-- ==== Sys2Proof/Word.lean ====
section
/-! DEFINITION. The word types of HUFFCORE: bytes, the 16-bit command word, the 64-bit code pattern.

Counts, weights, lengths and indexes are natural numbers: 00_scope.md R8 fixes "exact natural-number arithmetic" for
the 64-bit counters (log entry 5). Only what the spec treats as bits is a bit vector. -/

namespace Sys2Proof

/-- A byte: the operand `d` of a command, a character, a file byte, a response code (00_scope.md R9, 30_encoding.md R62). -/
abbrev Byte := BitVec 8

/-- A command word (30_encoding.md R60). -/
abbrev Word16 := BitVec 16

/-- A code's bit pattern and the decoder's accumulator: 64 bits, unsigned (00_scope.md R5 `PATTERN_W`). -/
abbrev Word64 := BitVec 64

end Sys2Proof
end

