-- ==== Sys2Proof/Syntax.lean ====
section
/-! DEFINITION. The abstract syntax of HUFFCORE's thirteen commands (30_encoding.md R63), the raw command format `C16`
(R60) and the names under which a word is rejected (R66). -/

namespace Sys2Proof

/-- The thirteen commands, one constructor per row of the opcode table (30_encoding.md R63). The operand of `FREQ`, `ENC`
and `DEC` is the unsigned byte `d` (R62). -/
inductive Instr where
  | nop
  | clr
  | freq (d : Byte)
  | seed
  | merge
  | build
  | gen
  | head
  | enc (d : Byte)
  | encend
  | decst
  | dec (d : Byte)
  | decend
deriving DecidableEq, Repr

/-- The raw fields of a command word: one length, one format (30_encoding.md R60). -/
structure C16 where
  /-- bits 15:12, the opcode -/
  op : BitVec 4
  /-- bits 11:8, reserved, must be 0 -/
  rs : BitVec 4
  /-- bits 7:0, the data byte operand, 0 for a command that takes none -/
  d : Byte
deriving DecidableEq, Repr

/-- Why a word is illegal, in the order in which 30_encoding.md R66 tests. All three raise `IllegalCommand` (60_exceptions.md
R152). -/
inductive Illegal where
  /-- `op` is 0xD, 0xE or 0xF (30_encoding.md R64). -/
  | reservedOpcode
  /-- `rs` is not 0 (30_encoding.md R65). -/
  | reservedField
  /-- `d` is not 0 on a command that takes no operand (30_encoding.md R65). -/
  | unusedOperand
deriving DecidableEq, Repr

end Sys2Proof
end

