-- ==== Sys2Proof/WellFormed.lean ====
section
/-! DEFINITION. Well-formedness of a command word's raw fields (30_encoding.md R63 to R65).

Every `Instr` is well formed by its type: its only operand is a byte, and every byte value is admitted (R62). What can be
ill formed is the raw format `C16`, so the checks are about it. -/

namespace Sys2Proof

/-- The opcode is one of the thirteen assigned ones; 0xD, 0xE and 0xF are reserved (30_encoding.md R64). -/
def C16.opAssigned (c : C16) : Bool := decide (c.op.toNat ≤ 0xC)

/-- The reserved field is 0 (30_encoding.md R65). -/
def C16.reservedZero (c : C16) : Bool := decide (c.rs = 0)

/-- The opcodes that take the data byte: `FREQ`, `ENC`, `DEC` (30_encoding.md R60, R63). -/
def C16.takesOperand (c : C16) : Bool := decide (c.op = 0x2 ∨ c.op = 0x8 ∨ c.op = 0xB)

/-- A command that takes no operand carries `d` = 0 (30_encoding.md R65). -/
def C16.operandOk (c : C16) : Bool := c.takesOperand || decide (c.d = 0)

/-- The raw fields are those of a legal command (30_encoding.md R64, R65). -/
def C16.wf (c : C16) : Bool := c.opAssigned && c.reservedZero && c.operandOk

end Sys2Proof
end

