-- ==== Sys2Proof/Decode.lean ====
section
/-! DEFINITION. The decoder, total on every 16-bit word and rejecting by name (30_encoding.md R61, R66), and after it the
encoder, written from the same table (R63). -/

namespace Sys2Proof

/-- The fields of a word: `op = w[15:12]`, `rs = w[11:8]`, `d = w[7:0]` (30_encoding.md R61). -/
def C16.ofWord (w : Word16) : C16 where
  op := w.extractLsb' 12 4
  rs := w.extractLsb' 8 4
  d := w.extractLsb' 0 8

/-- The word that holds the fields (30_encoding.md R60). -/
def C16.toWord (c : C16) : Word16 := c.op ++ c.rs ++ c.d

/-- The command that an opcode selects, with `d` as its operand where it takes one; none for the reserved opcodes
(30_encoding.md R63, R64). -/
def selectCommand (op : BitVec 4) (d : Byte) : Option Instr :=
  match op.toNat with
  | 0x0 => some .nop
  | 0x1 => some .clr
  | 0x2 => some (.freq d)
  | 0x3 => some .seed
  | 0x4 => some .merge
  | 0x5 => some .build
  | 0x6 => some .gen
  | 0x7 => some .head
  | 0x8 => some (.enc d)
  | 0x9 => some .encend
  | 0xA => some .decst
  | 0xB => some (.dec d)
  | 0xC => some .decend
  | _ => none

/-- `decode(w)` of 30_encoding.md R66, its tests in that order. -/
def decode (w : Word16) : Except Illegal Instr :=
  let c := C16.ofWord w
  match selectCommand c.op c.d with
  | none => .error .reservedOpcode
  | some i =>
    if c.rs ≠ 0 then .error .reservedField
    else if ¬(c.op = 0x2 ∨ c.op = 0x8 ∨ c.op = 0xB) ∧ c.d ≠ 0 then .error .unusedOperand
    else .ok i

/-- The opcode of a command (30_encoding.md R63). -/
def Instr.opcode : Instr → BitVec 4
  | .nop => 0x0
  | .clr => 0x1
  | .freq _ => 0x2
  | .seed => 0x3
  | .merge => 0x4
  | .build => 0x5
  | .gen => 0x6
  | .head => 0x7
  | .enc _ => 0x8
  | .encend => 0x9
  | .decst => 0xA
  | .dec _ => 0xB
  | .decend => 0xC

/-- The operand field of a command: `d`, or 0 for a command that takes none (30_encoding.md R60). -/
def Instr.operand : Instr → Byte
  | .nop => 0
  | .clr => 0
  | .freq d => d
  | .seed => 0
  | .merge => 0
  | .build => 0
  | .gen => 0
  | .head => 0
  | .enc d => d
  | .encend => 0
  | .decst => 0
  | .dec d => d
  | .decend => 0

/-- The command word of a command, with the reserved field 0 (30_encoding.md R60, R63). -/
def encode (i : Instr) : Word16 :=
  C16.toWord { op := i.opcode, rs := 0, d := i.operand }

/-- A row of the opcode table: `w` selects it when `w & mask = pattern` (30_encoding.md R63, where `pattern` is called
`match`). -/
structure OpcodeRow where
  mnemonic : String
  pattern : Word16
  mask : Word16
deriving DecidableEq, Repr

/-- The opcode table of 30_encoding.md R63. -/
def opcodeTable : List OpcodeRow :=
  [ ⟨"NOP", 0x0000, 0xFFFF⟩, ⟨"CLR", 0x1000, 0xFFFF⟩, ⟨"FREQ", 0x2000, 0xFF00⟩, ⟨"SEED", 0x3000, 0xFFFF⟩ ] ++
  [ ⟨"MERGE", 0x4000, 0xFFFF⟩, ⟨"BUILD", 0x5000, 0xFFFF⟩, ⟨"GEN", 0x6000, 0xFFFF⟩, ⟨"HEAD", 0x7000, 0xFFFF⟩ ] ++
  [ ⟨"ENC", 0x8000, 0xFF00⟩, ⟨"ENCEND", 0x9000, 0xFFFF⟩, ⟨"DECST", 0xA000, 0xFFFF⟩, ⟨"DEC", 0xB000, 0xFF00⟩ ] ++
  [ ⟨"DECEND", 0xC000, 0xFFFF⟩ ]

/-- The mnemonic of a command (30_encoding.md R63, R71). -/
def Instr.mnemonic : Instr → String
  | .nop => "NOP"
  | .clr => "CLR"
  | .freq _ => "FREQ"
  | .seed => "SEED"
  | .merge => "MERGE"
  | .build => "BUILD"
  | .gen => "GEN"
  | .head => "HEAD"
  | .enc _ => "ENC"
  | .encend => "ENCEND"
  | .decst => "DECST"
  | .dec _ => "DEC"
  | .decend => "DECEND"

/-- The word whose low `nbits` bits are those of `w`, every bit above them 0. -/
def tableWord (nbits w : Nat) : Word16 := BitVec.ofNat 16 (w % 2 ^ nbits)

/-- The command the decoder reads from an instruction whose bits are `w`, numbered as the opcode table numbers them; none
where the decoder rejects the word. A command is one 16-bit word, so no operand word follows. -/
def decodeTableWord (nbits w : Nat) : Option Instr :=
  match decode (tableWord nbits w) with
  | .ok i => some i
  | .error _ => none

end Sys2Proof
end

