-- ==== Sys2Proof/Config.lean ====
section
/-! DEFINITION. The parameters of 00_scope.md R5: constants of HUFFCORE, not run-time configuration.

The spec leaves no value open ("there is no oracle and no draw", 00_scope.md R6), so this file holds no free value. -/

namespace Sys2Proof.Config

/-- `ALPHABET`: the number of symbols, byte values 0..255 (00_scope.md R5). -/
def alphabet : Nat := 256

/-- `TABLE_CAP`: code-table and dictionary capacity in records (00_scope.md R5). -/
def tableCap : Nat := 256

/-- `NODE_CAP`: capacity of the node arena (00_scope.md R5, D18). -/
def nodeCap : Nat := 511

/-- `QUEUE_CAP`: capacity of the priority queue in entries (00_scope.md R5). -/
def queueCap : Nat := 256

/-- `MAX_CODE_LEN`: the longest representable code in bits (00_scope.md R5, D10). -/
def maxCodeLen : Nat := 64

/-- `REC_SIZE`: size and stride of a dictionary record in bytes (00_scope.md R5). -/
def recSize : Nat := 16

/-- `HDR_SIZE`: size of the file header in bytes (00_scope.md R5). -/
def hdrSize : Nat := 16

/-- The largest value of a `COUNT_W` = 64 bit counter (00_scope.md R5, D6). -/
def countMax : Nat := 2 ^ 64 - 1

end Sys2Proof.Config
end

