-- ==== Sys2Proof/Machine/State.lean ====
section
/-! DEFINITION. The state of HUFFCORE as plain data: the block's own state is exactly the table of 10_state.md R10, and
around it stands what the host has presented and what has crossed the ports (log entry 1). -/

namespace Sys2Proof.Machine

/-- The values `PHASE` holds (10_state.md R30). Values 10 to 14 are never held and a model's type need not have them
(93_implementation_defined.md row 23). -/
inductive Phase where
  /-- 0: after reset or `CLR` -/
  | idle
  /-- 1: pass 1 in progress -/
  | count
  /-- 2: the queue has been seeded -/
  | tree
  /-- 3: the code table has been generated -/
  | coded
  /-- 4: header and dictionary emitted, pass 2 in progress -/
  | enc
  /-- 5: the bitstream has been flushed -/
  | encDone
  /-- 6: collecting the 16 header bytes -/
  | decHdr
  /-- 7: collecting dictionary records -/
  | decDict
  /-- 8: consuming the bitstream -/
  | decBits
  /-- 9: `ORIGLEN` bytes have been emitted -/
  | decDone
  /-- 15: a command faulted -/
  | fault
deriving DecidableEq, Repr

/-- The fault kinds of 60_exceptions.md R150. Raising one is fault entry (R155), a NEXT state of the machine, not a stop. -/
inductive FaultKind where
  | emptyQueue
  | allocationFailure
  | tableOverflow
  | degenerateCodeError
  | corruptStream
  | formatError
  | codeTooLong
  | countOverflow
  | protocolError
  | illegalCommand
deriving DecidableEq, Repr

/-- The responses a command ends with (30_encoding.md R68). -/
inductive Rsp where
  | ok
  | emptyInput
  | fault (k : FaultKind)
  | faulted
deriving DecidableEq, Repr

/-- A node of the arena, "a tagged variant" (10_state.md R13). `left` and `right` are node indices. -/
inductive Node where
  | leaf (ch : Byte) (weight : Nat)
  | internal (weight : Nat) (left right : Nat)
deriving DecidableEq, Repr

/-- A priority-queue entry: an index into `NODE` and its insertion number (10_state.md R14). -/
structure PqEntry where
  node : Nat
  seq : Nat
deriving DecidableEq, Repr

/-- A code-table entry: the `len` low bits of `bits`, `len` = 0 meaning that the character has no code (10_state.md R20). -/
structure Code where
  bits : Word64
  len : Nat
deriving DecidableEq, Repr

/-- A register table of `n` entries (10_state.md R11, R20). It is a list of fixed length, so that the equality of two tables
is decided entry by entry. -/
structure Table (α : Type) (n : Nat) where
  entries : List α
  size : entries.length = n
deriving DecidableEq, Repr

/-- The table that holds `a` everywhere. -/
def Table.replicate {α : Type} (n : Nat) (a : α) : Table α n := ⟨List.replicate n a, List.length_replicate⟩

/-- The block's complete state, "and nothing else" (10_state.md R10). `NN`, `QLEN` and `DN` are the lengths of `node`, `pq`
and `dord` (log entry 6). -/
structure Block where
  /-- `FREQ[0..255]` (R11) -/
  freq : Table Nat 256
  /-- `TOTAL` (R12) -/
  total : Nat
  /-- `NODE[0..NN-1]` (R13) -/
  node : List Node
  /-- `PQ[0..QLEN-1]` (R14) -/
  pq : List PqEntry
  /-- `SEQ` (R15) -/
  seq : Nat
  /-- `CT[0..255]` (R20) -/
  ct : Table Code 256
  /-- `DORD[0..DN-1]` (R21) -/
  dord : List Byte
  /-- `PKBUF` (R23) -/
  pkbuf : Byte
  /-- `PKCNT` (R23) -/
  pkcnt : Fin 8
  /-- `ENCN` (R24) -/
  encn : Nat
  /-- `STAGE[0..15]` (R25) -/
  stage : Vector Byte 16
  /-- `SPOS` (R25) -/
  spos : Fin 16
  /-- `ORIGLEN` (R26) -/
  origlen : Nat
  /-- `DICTSZ` (R26) -/
  dictsz : Nat
  /-- `MAXLEN` (R27) -/
  maxlen : Nat
  /-- `ACCBITS` (R28) -/
  accbits : Word64
  /-- `ACCLEN` (R28) -/
  acclen : Nat
  /-- `OUTN` (R29) -/
  outn : Nat
  /-- `PHASE` (R30) -/
  phase : Phase
  /-- `ERR` (R31) -/
  err : Byte
  /-- `ERRCMD` (R32) -/
  errcmd : Word16
  /-- `ERRPHASE` (R32) -/
  errphase : Phase
deriving DecidableEq, Repr

/-- The reset value of every element (10_state.md R36). -/
def Block.reset : Block where
  freq := Table.replicate 256 0
  total := 0
  node := []
  pq := []
  seq := 0
  ct := Table.replicate 256 ⟨0, 0⟩
  dord := []
  pkbuf := 0
  pkcnt := 0
  encn := 0
  stage := Vector.replicate 16 0
  spos := 0
  origlen := 0
  dictsz := 0
  maxlen := 0
  accbits := 0
  acclen := 0
  outn := 0
  phase := .idle
  err := 0
  errcmd := 0
  errphase := .idle

/-- What the host does to the block: it issues a command word, or asserts reset between commands (70_reset_and_hazards.md
R171, R182). -/
inductive HostEvent where
  | command (w : Word16)
  | reset
deriving DecidableEq, Repr

/-- What crosses the ports, in order (20_memory.md R40, R53): a host event taken, an output byte, an 8-bit response code. -/
inductive PortEvent where
  | took (e : HostEvent)
  | byte (b : Byte)
  | response (c : Byte)
deriving DecidableEq, Repr

/-- The machine's state: the block, what the host has presented and the block has not yet taken (oldest first), and what
has crossed the ports so far. `port` and `wire` are the MODEL'S OWN fields (log entry 1). -/
structure State where
  block : Block
  port : List HostEvent
  wire : List PortEvent
deriving DecidableEq, Repr

/-- The machine right after reset (10_state.md R36, 70_reset_and_hazards.md R170). That the host has presented nothing and
nothing has crossed the ports is a DESIGN CHOICE (log entry 1). -/
def State.reset : State where
  block := Block.reset
  port := []
  wire := []

/-- Why the machine stops. The faults of the spec are no stops: they are next states (60_exceptions.md R155). -/
inductive Fault where
  /-- Raised by SEED, MERGE, BUILD and GEN when they would read an arena element at an index of `NN` or more: "Elements at
  index ≥ `NN` do not exist: no rule reads them" (10_state.md R13). Safe: no reachable state raises it (log entry 4). -/
  | absentNode
deriving DecidableEq, Repr

/-- Why the machine gives an instruction no meaning. -/
inductive Refusal where
  /-- Raised by exec's arm for a command that has no meaning yet. Safe: no arm of this model raises it. -/
  | notModelled (mnemonic : String)
deriving DecidableEq, Repr

end Sys2Proof.Machine
end

