-- ==== Sys2Proof/Machine/Ops.lean ====
section
/-! DEFINITION. The operations all commands share: byte order, response codes, the end of a command, fault entry and the way
out of a fault, phase legality and the common command procedure. -/

namespace Sys2Proof.Machine

/-! ## Byte order (00_scope.md R8, 20_memory.md R43, R46) -/

/-- The `n` low bytes of `v`, least significant first. -/
def leBytes : Nat → Nat → List Byte
  | 0, _ => []
  | n + 1, v => BitVec.ofNat 8 v :: leBytes n (v / 256)

/-- `le64(v)` (00_scope.md R8). -/
def le64 (v : Nat) : List Byte := leBytes 8 v

/-- `le32(v)` (00_scope.md R8). -/
def le32 (v : Nat) : List Byte := leBytes 4 v

/-- `un_le64` and `un_le32`: the sum of `b_i · 2^(8i)` over the bytes, first byte least significant (00_scope.md R8). -/
def unLe : List Byte → Nat
  | [] => 0
  | b :: bs => b.toNat + 256 * unLe bs

/-- `as_signed32(u)`: two's complement of 32 bits (00_scope.md R8, 20_memory.md R46). -/
def asSigned32 (u : Nat) : Int := if u < 2 ^ 31 then (u : Int) else (u : Int) - 2 ^ 32

/-! ## Codes (30_encoding.md R68) -/

/-- The code of a fault kind (30_encoding.md R68, 60_exceptions.md R150). -/
def FaultKind.code : FaultKind → Byte
  | .emptyQueue => 0x02
  | .allocationFailure => 0x03
  | .tableOverflow => 0x04
  | .degenerateCodeError => 0x05
  | .corruptStream => 0x06
  | .formatError => 0x07
  | .codeTooLong => 0x08
  | .countOverflow => 0x09
  | .protocolError => 0x0A
  | .illegalCommand => 0x0B

/-- The 8-bit response code (30_encoding.md R68). -/
def Rsp.code : Rsp → Byte
  | .ok => 0x00
  | .emptyInput => 0x01
  | .fault k => k.code
  | .faulted => 0x0C

/-! ## How a command's own rule ends -/

/-- Why a rule's pseudocode aborts: `raise K` of the spec, or the model's own stop. -/
inductive Abort where
  /-- `raise k` (00_scope.md R8): fault entry follows. -/
  | raise (k : FaultKind)
  /-- the machine stops (`Fault`, log entry 4) -/
  | stop (f : Fault)
deriving DecidableEq, Repr

/-- What a command's own rule leaves when it does not abort: the block, the bytes put out in order, the response. -/
structure Done where
  block : Block
  out : List Byte
  rsp : Rsp
deriving DecidableEq, Repr

/-- `respond OK` with no output (00_scope.md R8). -/
def Block.done (b : Block) : Done := { block := b, out := [], rsp := .ok }

/-- End of a command: the block's new state stands, the bytes leave in order and the response follows them
(20_memory.md R40, 30_encoding.md R68). -/
def State.respond (s : State) (b : Block) (out : List Byte) (r : Rsp) : State :=
  { s with block := b, wire := s.wire ++ out.map .byte ++ [.response r.code] }

/-! ## Faults (60_exceptions.md) -/

/-- Fault entry on the block: every element but the four control registers as before the command (60_exceptions.md R154,
R155). -/
def Block.enterFault (b : Block) (w : Word16) (k : FaultKind) : Block :=
  { b with phase := .fault, err := k.code, errcmd := w, errphase := b.phase }

/-- Fault entry: `s` is the state before the command, `w` the command word. No byte is put out (60_exceptions.md R155). -/
def State.takeFault (s : State) (w : Word16) (k : FaultKind) : State :=
  s.respond (s.block.enterFault w k) [] (.fault k)

/-- The answer to a word issued in `FAULT`: nothing changes, nothing is put out (60_exceptions.md R157). -/
def State.answerFaulted (s : State) : State := s.respond s.block [] .faulted

/-- The way out of `FAULT`, and the effect of `CLR` and reset: every element to its reset value (60_exceptions.md R159,
40_control.md R81, 70_reset_and_hazards.md R171). -/
def Block.cleared (_b : Block) : Block := Block.reset

/-! ## The common command procedure (40_control.md) -/

/-- `legal(c)`: the phases in which a command may execute (40_control.md R82). -/
def legalPhases : Instr → List Phase
  | .nop => [.idle, .count, .tree, .coded, .enc, .encDone, .decHdr, .decDict, .decBits, .decDone, .fault]
  | .clr => [.idle, .count, .tree, .coded, .enc, .encDone, .decHdr, .decDict, .decBits, .decDone, .fault]
  | .freq _ => [.idle, .count]
  | .seed => [.idle, .count]
  | .merge => [.tree]
  | .build => [.idle, .count]
  | .gen => [.tree]
  | .head => [.coded]
  | .enc _ => [.enc]
  | .encend => [.enc]
  | .decst => [.idle]
  | .dec _ => [.decHdr, .decDict, .decBits, .decDone]
  | .decend => [.decHdr, .decDict, .decBits, .decDone]

/-- Steps 1, 4 and 5 of 40_control.md R84 for the command `i` (neither `NOP` nor `CLR`) whose own rule is `rule`. The
command word that a fault records is the word of `i`, the only word that decodes to it (log entry 7). -/
def runCommand (i : Instr) (rule : Block → Except Abort Done) (s : State) : Host.Outcome State Fault Refusal :=
  if s.block.phase = .fault then .next s.answerFaulted
  else if s.block.phase ∈ legalPhases i then
    match rule s.block with
    | .ok r => .next (s.respond r.block r.out r.rsp)
    | .error (.raise k) => .next (s.takeFault (encode i) k)
    | .error (.stop f) => .fault f
  else .next (s.takeFault (encode i) .protocolError)

/-! ## The command port -/

/-- The next host event and the state once the block has taken it; none when the host has presented nothing. -/
def State.takeEvent (s : State) : Option (HostEvent × State) :=
  match s.port with
  | [] => none
  | e :: rest => some (e, { s with port := rest, wire := s.wire ++ [.took e] })

/-- Step 1 of 40_control.md R84: in `FAULT`, every word but 0x0000 and 0x1000 is answered `Faulted`, whatever it would
decode to (60_exceptions.md R157). -/
def answersFaulted (b : Block) (w : Word16) : Bool :=
  decide (b.phase = .fault ∧ w ≠ 0x0000 ∧ w ≠ 0x1000)

/-- Reset asserted between commands: the block's reset state; bytes already put out are not retracted, and a reset has no
response (70_reset_and_hazards.md R171). -/
def State.hostReset (s : State) : State := { s with block := Block.reset }

/-- The state with the word presented as the next one the block takes. -/
def State.present (s : State) (w : Word16) : State := { s with port := .command w :: s.port }

end Sys2Proof.Machine
end

