-- ==== Sys2Proof/Machine/Operands.lean ====
section
/-! DEFINITION. The one operand form, the unsigned byte `d`, as an index (30_encoding.md R62), and the accesses to the
block's tables and lists (20_memory.md R41). -/

namespace Sys2Proof.Machine

/-- The 256 characters in ascending order (42_tree.md R93). -/
def allBytes : List Byte := (List.range 256).map (BitVec.ofNat 8)

/-- The index a character gives: the unsigned byte value, never sign-extended (10_state.md R11, 30_encoding.md R62). -/
def charIndex (c : Byte) : Fin 256 := ⟨c.toNat, c.isLt⟩

/-- Entry `i` of a table. -/
def Table.get {α : Type} {n : Nat} (t : Table α n) (i : Fin n) : α := t.entries[i.val]'(by have := t.size; omega)

/-- The table with entry `i` replaced by `v`. -/
def Table.set {α : Type} {n : Nat} (t : Table α n) (i : Fin n) (v : α) : Table α n where
  entries := t.entries.set i.val v
  size := by rw [List.length_set]; exact t.size

/-- `FREQ[c]` (10_state.md R11). -/
def Block.count (b : Block) (c : Byte) : Nat := b.freq.get (charIndex c)

/-- `FREQ[c] <- v`. -/
def Block.setCount (b : Block) (c : Byte) (v : Nat) : Block :=
  { b with freq := b.freq.set (charIndex c) v }

/-- `CT[c]` (10_state.md R20). -/
def Block.code (b : Block) (c : Byte) : Code := b.ct.get (charIndex c)

/-- `CT[c] <- v`. -/
def Block.setCode (b : Block) (c : Byte) (v : Code) : Block :=
  { b with ct := b.ct.set (charIndex c) v }

/-- The counts with their characters, in ascending order of characters (41_count.md R88). -/
def Block.countList (b : Block) : List (Byte × Nat) := allBytes.zip b.freq.entries

/-- The code-table entries with their characters, in ascending order of characters. -/
def Block.codeList (b : Block) : List (Byte × Code) := allBytes.zip b.ct.entries

/-- `STAGE[SPOS] <- d` (45_decode.md R132, R133). -/
def Block.stageByte (b : Block) (d : Byte) : Block := { b with stage := b.stage.set b.spos d }

/-- The bytes `STAGE[lo .. lo+n-1]`. -/
def stageSlice (st : Vector Byte 16) (lo n : Nat) : List Byte := (st.toList.drop lo).take n

/-- The weight field of a node, whichever its kind (10_state.md R16). -/
def Node.weight : Node → Nat
  | .leaf _ w => w
  | .internal w _ _ => w

/-- `NODE[n]`; the machine stops where the element does not exist (10_state.md R13, log entry 4). -/
def nodeAt (arena : List Node) (n : Nat) : Except Abort Node :=
  match arena[n]? with
  | some x => .ok x
  | none => .error (.stop .absentNode)

/-- `weight(n)` = `NODE[n].weight` (00_scope.md R8, 10_state.md R16). -/
def weightAt (arena : List Node) (n : Nat) : Except Abort Nat :=
  match nodeAt arena n with
  | .ok x => .ok x.weight
  | .error a => .error a

/-- The weights of queue entries, in queue order: an entry's weight is that of its node (10_state.md R14). -/
def entryWeights (arena : List Node) : List PqEntry → Except Abort (List Nat)
  | [] => .ok []
  | e :: es =>
    match weightAt arena e.node with
    | .error a => .error a
    | .ok w =>
      match entryWeights arena es with
      | .error a => .error a
      | .ok ws => .ok (w :: ws)

end Sys2Proof.Machine
end

