-- ==== Sys2Proof/Machine/CodeGen.lean ====
section
/-! DEFINITION. The code generator: the depth-first, left-before-right traversal and the command GEN (43_codegen.md). -/

namespace Sys2Proof.Machine

/-- `record(bits, len, ch)`: put one code into the table (43_codegen.md R106). -/
def recordCode (bits : Word64) (len : Nat) (ch : Byte) (b : Block) : Except Abort Block :=
  if b.dord.length = Config.tableCap then .error (.raise .tableOverflow)
  else if len = 0 then .error (.raise .degenerateCodeError)
  else .ok { b.setCode ch ⟨bits, len⟩ with dord := b.dord ++ [ch] }

/-- `walk(n, bits, len)` (43_codegen.md R107). `room` is `64 - len`, the edges a code may still take, so `room = 0` is the
rule's test `len = 64` (R109). A root that is a Leaf is reached with `len = 0` and gets the code `(0, 1)` (R108). -/
def walk : (room : Nat) → (n : Nat) → (bits : Word64) → (len : Nat) → Block → Except Abort Block
  | room, n, bits, len, b =>
    match nodeAt b.node n with
    | .error a => .error a
    | .ok (.leaf ch _) => if len = 0 then recordCode 0 1 ch b else recordCode bits len ch b
    | .ok (.internal _ l r) =>
      match room with
      | 0 => .error (.raise .codeTooLong)
      | room + 1 =>
        match walk room l (bits <<< 1) (len + 1) b with
        | .error a => .error a
        | .ok b' => walk room r ((bits <<< 1) ||| 1) (len + 1) b'

/-- Record the codes of the tree whose root is the queue's first entry; an empty queue records nothing (43_codegen.md
R105). -/
def recordTree (b : Block) : Except Abort Block :=
  match b.pq with
  | [] => .ok b
  | e :: _ => walk Config.maxCodeLen e.node 0 0 b

/-- "the arena is freed/dropped as a unit after code generation": arena and queue are emptied, `SEQ` stays (43_codegen.md
R111). -/
def Block.freeTree (b : Block) : Block := { b with node := [], pq := [] }

/-- The rule of `GEN` (43_codegen.md R105). -/
def genRule (b : Block) : Except Abort Done :=
  if 1 < b.pq.length then .error (.raise .protocolError)
  else
    match recordTree b with
    | .error a => .error a
    | .ok b' => .ok { b'.freeTree with phase := .coded }.done

/-- `GEN` (43_codegen.md R105). -/
def execGen (s : State) : Host.Outcome State Fault Refusal := runCommand .gen genRule s

end Sys2Proof.Machine
end

