-- ==== Sys2Proof/Machine/Control.lean ====
section
/-! DEFINITION. The control commands NOP and CLR (40_control.md R80, R81), legal in every phase, `FAULT` included. -/

namespace Sys2Proof.Machine

/-- `NOP` (40_control.md R80): writes nothing, outputs nothing, responds `OK`. -/
def execNop (s : State) : Host.Outcome State Fault Refusal :=
  .next (s.respond s.block [] .ok)

/-- `CLR` (40_control.md R81): every element to its reset value, responds `OK`; the only command that leaves `FAULT`. -/
def execClr (s : State) : Host.Outcome State Fault Refusal :=
  .next (s.respond s.block.cleared [] .ok)

end Sys2Proof.Machine
end

