-- ==== Sys2Proof/Machine/Count.lean ====
section
/-! DEFINITION. The frequency counter: FREQ (41_count.md). -/

namespace Sys2Proof.Machine

/-- The rule of `FREQ d` (41_count.md R85, R86): count one input byte of pass 1, or fault where `TOTAL` is at its largest
value. -/
def freqRule (d : Byte) (b : Block) : Except Abort Done :=
  if b.total = Config.countMax then .error (.raise .countOverflow)
  else .ok { b.setCount d (b.count d + 1) with total := b.total + 1, phase := .count }.done

/-- `FREQ d` (41_count.md R85). -/
def execFreq (d : Byte) (s : State) : Host.Outcome State Fault Refusal :=
  runCommand (.freq d) (freqRule d) s

end Sys2Proof.Machine
end

