-- ==== Sys2Proof/Machine/Decoder.lean ====
section
/-! DEFINITION. The bitstream decoder: header and dictionary loader, the code matcher, and the commands DECST, DEC and DECEND
(45_decode.md). -/

namespace Sys2Proof.Machine

/-! ## Header -/

/-- The phase that follows once header or dictionary are complete and no record is left to load: the bit stage, or
`DEC_DONE` where no byte is to be decoded (45_decode.md R132, R133, R141). -/
def payloadPhase (origlen : Nat) : Phase := if origlen ≠ 0 then .decBits else .decDone

/-- `header_byte(d)` (45_decode.md R132). -/
def headerByte (d : Byte) (b : Block) : Except Abort Block :=
  let b1 := b.stageByte d
  if b.spos.val < 15 then .ok { b1 with spos := b.spos + 1 }
  else
    let origlen := unLe (stageSlice b1.stage 0 8)
    let dictsz := unLe (stageSlice b1.stage 8 8)
    if dictsz % Config.recSize ≠ 0 then .error (.raise .formatError)
    else
      .ok { b1 with
        spos := 0, origlen := origlen, dictsz := dictsz,
        phase := if dictsz ≠ 0 then .decDict else payloadPhase origlen }

/-! ## Dictionary -/

/-- A record's fields: pattern, signed length, character; the padding is ignored (20_memory.md R45 to R47, 45_decode.md
R134). -/
structure DictRecord where
  bits : Word64
  len : Int
  ch : Byte
deriving DecidableEq, Repr

/-- The fields of the 16 bytes of a record (45_decode.md R134). -/
def parseRecord (r : Vector Byte 16) : DictRecord where
  bits := BitVec.ofNat 64 (unLe (stageSlice r 0 8))
  len := asSigned32 (unLe (stageSlice r 8 4))
  ch := r[12]

/-- Some character already has this `(pattern, length)` key (45_decode.md R134). -/
def Block.hasKey (b : Block) (bits : Word64) (len : Nat) : Bool :=
  b.codeList.any (fun x => decide (x.2.len = len ∧ x.2.bits = bits))

/-- `load_record(r)`, its checks in the order of 45_decode.md R134. -/
def loadRecord (r : DictRecord) (b : Block) : Except Abort Block :=
  if r.len = 0 then .error (.raise .degenerateCodeError)
  else if r.len < 0 ∨ (Config.maxCodeLen : Int) < r.len then .error (.raise .formatError)
  else if (b.code r.ch).len ≠ 0 then .error (.raise .formatError)
  else if b.hasKey r.bits r.len.toNat then .error (.raise .formatError)
  else
    .ok { b.setCode r.ch ⟨r.bits, r.len.toNat⟩ with
      dord := b.dord ++ [r.ch], maxlen := max b.maxlen r.len.toNat }

/-- `dict_byte(d)` (45_decode.md R133). -/
def dictByte (d : Byte) (b : Block) : Except Abort Block :=
  let b1 := b.stageByte d
  if b.spos.val < 15 then .ok { b1 with spos := b.spos + 1 }
  else
    match loadRecord (parseRecord b1.stage) { b1 with spos := 0 } with
    | .error a => .error a
    | .ok b2 =>
      .ok { b2 with phase := if Config.recSize * b2.dord.length = b2.dictsz then payloadPhase b2.origlen else b2.phase }

/-! ## Bit stage -/

/-- `lookup(v, n)`: the character whose code has length `n` and full 64-bit pattern `v`, "keyed by both value and length"
(45_decode.md R136). At most one character qualifies in a reachable state; in any other state the lowest one is taken
(log entry 9). -/
def lookup (b : Block) (v : BitVec 65) (n : Nat) : Option Byte :=
  if Config.maxCodeLen < n then none
  else (b.codeList.find? (fun x => decide (x.2.len = n ∧ x.2.bits.setWidth 65 = v))).map Prod.fst

/-- `(ACCBITS << 1) | bit`, "computed in 65 bits" (45_decode.md R135). -/
def accumulate (acc : Word64) (bit : Bool) : BitVec 65 := acc ++ BitVec.ofBool bit

/-- The loop of `bits_byte` over the bits given, first bit first; `out` holds the bytes this command has put out
(45_decode.md R135, R137, R138). -/
def bitsLoop : List Bool → Block → List Byte → Except Abort (Block × List Byte)
  | [], b, out => .ok (b, out)
  | bit :: rest, b, out =>
    let nbits := accumulate b.accbits bit
    let nlen := b.acclen + 1
    match lookup b nbits nlen with
    | some ch =>
      let b1 := { b with accbits := 0, acclen := 0, outn := b.outn + 1 }
      if b1.outn = b1.origlen then .ok ({ b1 with phase := .decDone }, out ++ [ch])
      else bitsLoop rest b1 (out ++ [ch])
    | none =>
      if b.maxlen < nlen then .error (.raise .corruptStream)
      else bitsLoop rest { b with accbits := nbits.setWidth 64, acclen := nlen } out

/-- The bits of a byte, most significant first (20_memory.md R48, 45_decode.md R135). -/
def byteBits (d : Byte) : List Bool := (List.range 8).map (fun k => d.getLsbD (7 - k))

/-! ## Commands -/

/-- The rule of `DECST` (45_decode.md R130). -/
def decstRule (b : Block) : Except Abort Done := .ok { b with phase := .decHdr }.done

/-- The rule of `DEC d`: dispatch on the phase at the start of the command (45_decode.md R131, R139). A phase in which `DEC`
is not legal never reaches it (40_control.md R84 step 4). -/
def decRule (d : Byte) (b : Block) : Except Abort Done :=
  match b.phase with
  | .decHdr =>
    match headerByte d b with
    | .error a => .error a
    | .ok b' => .ok b'.done
  | .decDict =>
    match dictByte d b with
    | .error a => .error a
    | .ok b' => .ok b'.done
  | .decBits =>
    match bitsLoop (byteBits d) b [] with
    | .error a => .error a
    | .ok (b', out) => .ok { block := b', out := out, rsp := .ok }
  | .decDone => .ok b.done
  | .idle | .count | .tree | .coded | .enc | .encDone | .fault => .error (.raise .protocolError)

/-- The rule of `DECEND` (45_decode.md R140). A phase in which `DECEND` is not legal never reaches it (40_control.md R84
step 4). -/
def decendRule (b : Block) : Except Abort Done :=
  match b.phase with
  | .decHdr | .decDict => .error (.raise .formatError)
  | .decBits => .error (.raise .corruptStream)
  | .decDone => .ok b.done
  | .idle | .count | .tree | .coded | .enc | .encDone | .fault => .error (.raise .protocolError)

/-- `DECST` (45_decode.md R130). -/
def execDecst (s : State) : Host.Outcome State Fault Refusal := runCommand .decst decstRule s

/-- `DEC d` (45_decode.md R131). -/
def execDec (d : Byte) (s : State) : Host.Outcome State Fault Refusal := runCommand (.dec d) (decRule d) s

/-- `DECEND` (45_decode.md R140). -/
def execDecend (s : State) : Host.Outcome State Fault Refusal := runCommand .decend decendRule s

end Sys2Proof.Machine
end

