-- ==== Sys2Proof/Machine/Encoder.lean ====
section
/-! DEFINITION. The bitstream encoder: header and dictionary, the bit packer, and the commands HEAD, ENC and ENCEND
(44_encode.md, 20_memory.md R42 to R49). -/

namespace Sys2Proof.Machine

/-! ## Header and dictionary -/

/-- One dictionary record: pattern, length, character, three zero bytes (20_memory.md R45 to R47, 44_encode.md R117). -/
def recordBytes (c : Code) (ch : Byte) : List Byte :=
  le64 c.bits.toNat ++ le32 c.len ++ [ch] ++ [0x00, 0x00, 0x00]

/-- The two header fields (20_memory.md R44, 44_encode.md R116). -/
def headerBytes (total dn : Nat) : List Byte := le64 total ++ le64 (Config.recSize * dn)

/-- What `HEAD` puts out: the header, then one record per symbol in `DORD` order (44_encode.md R115, 20_memory.md R56). -/
def Block.headBytes (b : Block) : List Byte :=
  headerBytes b.total b.dord.length ++ b.dord.flatMap (fun ch => recordBytes (b.code ch) ch)

/-- The rule of `HEAD` (44_encode.md R115). -/
def headRule (b : Block) : Except Abort Done :=
  .ok { block := { b with phase := .enc }, out := b.headBytes, rsp := .ok }

/-! ## Bit packer -/

/-- The bit packer with the bytes it has put out so far (10_state.md R23). -/
structure Packer where
  buf : Byte
  cnt : Fin 8
  out : List Byte
deriving DecidableEq, Repr

/-- A bit as a byte, 0 or 1. -/
def bitByte (bit : Bool) : Byte := if bit then 1 else 0

/-- `pack_bit(bit)`: append one bit, most significant position first. `PKCNT + 1` is compared with 8 before it is stored in
its 3-bit register (44_encode.md R119). -/
def packBit (p : Packer) (bit : Bool) : Packer :=
  let buf := p.buf ||| (bitByte bit <<< (7 - p.cnt.val))
  if p.cnt.val + 1 = 8 then { buf := 0, cnt := 0, out := p.out ++ [buf] }
  else { buf := buf, cnt := p.cnt + 1, out := p.out }

/-- A code's bits in transmission order: `bits[len-1]` first, `bits[0]` last (20_memory.md R48, 30_encoding.md R70). -/
def codeBits (c : Code) : List Bool := (List.range c.len).map (fun k => c.bits.getLsbD (c.len - 1 - k))

/-- The rule of `ENC d` (44_encode.md R118, R121, R123). -/
def encRule (d : Byte) (b : Block) : Except Abort Done :=
  if b.encn = b.total then .error (.raise .protocolError)
  else if (b.code d).len = 0 then .error (.raise .degenerateCodeError)
  else
    let p := (codeBits (b.code d)).foldl packBit { buf := b.pkbuf, cnt := b.pkcnt, out := [] }
    .ok { block := { b with pkbuf := p.buf, pkcnt := p.cnt, encn := b.encn + 1 }, out := p.out, rsp := .ok }

/-- The rule of `ENCEND` (44_encode.md R120, R121). -/
def encendRule (b : Block) : Except Abort Done :=
  if b.encn ≠ b.total then .error (.raise .protocolError)
  else if 0 < b.pkcnt.val then
    .ok { block := { b with pkbuf := 0, pkcnt := 0, phase := .encDone }, out := [b.pkbuf], rsp := .ok }
  else .ok { b with phase := .encDone }.done

/-! ## Commands -/

/-- `HEAD` (44_encode.md R115). -/
def execHead (s : State) : Host.Outcome State Fault Refusal := runCommand .head headRule s

/-- `ENC d` (44_encode.md R118). -/
def execEnc (d : Byte) (s : State) : Host.Outcome State Fault Refusal := runCommand (.enc d) (encRule d) s

/-- `ENCEND` (44_encode.md R120). -/
def execEncend (s : State) : Host.Outcome State Fault Refusal := runCommand .encend encendRule s

end Sys2Proof.Machine
end

