-- ==== Sys2Proof/Machine/Tree.lean ====
section
/-! DEFINITION. The tree builder: the priority queue, the binary merge, and the commands SEED, MERGE and BUILD
(42_tree.md). -/

namespace Sys2Proof.Machine

/-! ## Primitives -/

/-- `alloc(node)`: append a node to the arena and return its index (42_tree.md R90). -/
def alloc (x : Node) (b : Block) : Except Abort (Nat × Block) :=
  if b.node.length = Config.nodeCap then .error (.raise .allocationFailure)
  else .ok (b.node.length, { b with node := b.node ++ [x] })

/-- `pq_insert(n)`: the new entry goes behind every entry of weight at most its own, and takes the next insertion number
(42_tree.md R91). -/
def pqInsert (n : Nat) (b : Block) : Except Abort Block :=
  match weightAt b.node n with
  | .error a => .error a
  | .ok w =>
    match entryWeights b.node b.pq with
    | .error a => .error a
    | .ok ws =>
      let p := ws.countP (· ≤ w)
      .ok { b with pq := b.pq.take p ++ [⟨n, b.seq⟩] ++ b.pq.drop p, seq := b.seq + 1 }

/-- `pq_pop_two()`: the two lowest entries, first-popped first; `EmptyQueue` if fewer than two remain (42_tree.md R92). -/
def pqPopTwo (b : Block) : Except Abort (PqEntry × PqEntry × Block) :=
  match b.pq with
  | x :: y :: rest => .ok (x, y, { b with pq := rest })
  | _ => .error (.raise .emptyQueue)

/-! ## Procedures -/

/-- One Leaf for the character `c` with the count `n`, or nothing where the count is 0 (42_tree.md R93, 41_count.md R88). -/
def seedOne (c : Byte) (n : Nat) (b : Block) : Except Abort Block :=
  if n = 0 then .ok b
  else
    match alloc (.leaf c n) b with
    | .error a => .error a
    | .ok (i, b') => pqInsert i b'

/-- The loop of `seed()` over the characters and counts given, in that order (42_tree.md R93). -/
def seedFrom : List (Byte × Nat) → Block → Except Abort Block
  | [], b => .ok b
  | x :: cs, b =>
    match seedOne x.1 x.2 b with
    | .error a => .error a
    | .ok b' => seedFrom cs b'

/-- `seed()`: all characters in ascending byte-value order (42_tree.md R93). -/
def seed (b : Block) : Except Abort Block := seedFrom b.countList b

/-- `merge_step()`: pop the two lowest entries, first-popped left, and reinsert their sum (42_tree.md R94). -/
def mergeStep (b : Block) : Except Abort Block :=
  match pqPopTwo b with
  | .error a => .error a
  | .ok (x, y, b1) =>
    match weightAt b1.node x.node with
    | .error a => .error a
    | .ok wx =>
      match weightAt b1.node y.node with
      | .error a => .error a
      | .ok wy =>
        match alloc (.internal (wx + wy) x.node y.node) b1 with
        | .error a => .error a
        | .ok (i, b2) => pqInsert i b2

/-- The loop of `BUILD`: while the queue holds more than one entry, merge. Each merge lowers `QLEN` by one, so `QLEN`
rounds are enough for the loop to end by its own test (42_tree.md R99, R100). -/
def mergeWhile : Nat → Block → Except Abort Block
  | 0, b => .ok b
  | k + 1, b =>
    if 1 < b.pq.length then
      match mergeStep b with
      | .error a => .error a
      | .ok b' => mergeWhile k b'
    else .ok b

/-- The response of `SEED` and `BUILD` after seeding: `EmptyInput` where no symbol has a nonzero count (42_tree.md R95, R99,
R104). -/
def seedResponse (b : Block) : Rsp := if b.pq.length = 0 then .emptyInput else .ok

/-! ## Commands -/

/-- The rule of `SEED` (42_tree.md R95). -/
def seedRule (b : Block) : Except Abort Done :=
  match seed b with
  | .error a => .error a
  | .ok b' => .ok { block := { b' with phase := .tree }, out := [], rsp := seedResponse b' }

/-- The rule of `MERGE` (42_tree.md R96). -/
def mergeRule (b : Block) : Except Abort Done :=
  match mergeStep b with
  | .error a => .error a
  | .ok b' => .ok b'.done

/-- The rule of `BUILD` (42_tree.md R99). -/
def buildRule (b : Block) : Except Abort Done :=
  match seed b with
  | .error a => .error a
  | .ok b1 =>
    match mergeWhile b1.pq.length b1 with
    | .error a => .error a
    | .ok b2 => .ok { block := { b2 with phase := .tree }, out := [], rsp := seedResponse b1 }

/-- `SEED` (42_tree.md R95). -/
def execSeed (s : State) : Host.Outcome State Fault Refusal := runCommand .seed seedRule s

/-- `MERGE` (42_tree.md R96). -/
def execMerge (s : State) : Host.Outcome State Fault Refusal := runCommand .merge mergeRule s

/-- `BUILD` (42_tree.md R99). -/
def execBuild (s : State) : Host.Outcome State Fault Refusal := runCommand .build buildRule s

end Sys2Proof.Machine
end

