-- ==== Sys2Proof/Machine/Dispatch.lean ====
section
/-! DEFINITION. One arm per command: exec calls the command's meaning. -/

namespace Sys2Proof.Machine

def exec (i : Instr) (s : State) : Host.Outcome State Fault Refusal :=
  match i with
  | .nop => Sys2Proof.Machine.execNop s
  | .clr => Sys2Proof.Machine.execClr s
  | .freq d => Sys2Proof.Machine.execFreq d s
  | .seed => Sys2Proof.Machine.execSeed s
  | .merge => Sys2Proof.Machine.execMerge s
  | .build => Sys2Proof.Machine.execBuild s
  | .gen => Sys2Proof.Machine.execGen s
  | .head => Sys2Proof.Machine.execHead s
  | .enc d => Sys2Proof.Machine.execEnc d s
  | .encend => Sys2Proof.Machine.execEncend s
  | .decst => Sys2Proof.Machine.execDecst s
  | .dec d => Sys2Proof.Machine.execDec d s
  | .decend => Sys2Proof.Machine.execDecend s

end Sys2Proof.Machine
end

