-- ==== Sys2Proof/Machine/Command.lean ====
section
/-! DEFINITION. A command word on its way to exec: the first two steps of the common command procedure (40_control.md R84). -/

namespace Sys2Proof.Machine

/-- A command word `w`: answered `Faulted` in `FAULT`, else decoded; an illegal word raises `IllegalCommand`, a legal one is
executed (40_control.md R84, 60_exceptions.md R152, R157, R160). -/
def runWord (w : Word16) (s : State) : Host.Outcome State Fault Refusal :=
  if answersFaulted s.block w then .next s.answerFaulted
  else
    match decode w with
    | .error _ => .next (s.takeFault w .illegalCommand)
    | .ok i => exec i s

/-- A host event: a command word is run, a reset clears the block (70_reset_and_hazards.md R171, R182). -/
def runEvent (e : HostEvent) (s : State) : Host.Outcome State Fault Refusal :=
  match e with
  | .command w => runWord w s
  | .reset => .next s.hostReset

/-- One step: take the next host event and run it; with none pending the block is idle and keeps all state
(60_exceptions.md R167, 70_reset_and_hazards.md R170, log entry 2). -/
def runStep (s : State) : Host.Outcome State Fault Refusal :=
  match s.takeEvent with
  | none => .next s
  | some (e, s') => runEvent e s'

end Sys2Proof.Machine
end

