-- ==== Sys2Proof/Machine/Step.lean ====
section
/-! DEFINITION. The step of the machine, and where it takes its next command from. -/

namespace Sys2Proof.Machine

/-- One step of the machine (00_scope.md R6). -/
def step (s : State) : Host.Outcome State Fault Refusal := runStep s

/-- `s` with the instruction presented on the command port as the next event, so that the very next step takes and runs
exactly it. The machine fetches nothing (00_scope.md R2): the host presents each word (log entry 3). -/
def State.withFetchWord (s : State) (nbits w : Nat) : State := s.present (tableWord nbits w)

end Sys2Proof.Machine
end

