-- ==== Sys2Proof/Machine/Flags.lean ====
section
/-! DEFINITION. What the block shows of its state. There are no condition codes, flags or predicates (10_state.md R35); what
stands in their place is the read-only status port (R33) with the two level outputs `FAULT_O` and `DONE_O` (60_exceptions.md
R161). -/

namespace Sys2Proof.Machine

/-- The 4-bit value of `PHASE` (10_state.md R30). -/
def Phase.code : Phase → BitVec 4
  | .idle => 0
  | .count => 1
  | .tree => 2
  | .coded => 3
  | .enc => 4
  | .encDone => 5
  | .decHdr => 6
  | .decDict => 7
  | .decBits => 8
  | .decDone => 9
  | .fault => 15

/-- The status port: the outputs the host may sample between commands (10_state.md R33). -/
structure StatusPort where
  phase : BitVec 4
  err : Byte
  errcmd : Word16
  errphase : BitVec 4
  total : Word64
  dn : BitVec 9
  qlen : BitVec 9
  encn : Word64
  origlen : Word64
  dictsz : Word64
  outn : Word64
  fault_o : Bool
  done_o : Bool
deriving DecidableEq, Repr

/-- `FAULT_O = (PHASE = 15)` (10_state.md R33). -/
def Block.faultOut (b : Block) : Bool := decide (b.phase = .fault)

/-- `DONE_O = (PHASE = 5 or PHASE = 9)` (10_state.md R33). -/
def Block.doneOut (b : Block) : Bool := decide (b.phase = .encDone ∨ b.phase = .decDone)

/-- Sampling the status port, with no side effect (10_state.md R33, 20_memory.md R51). -/
def Block.status (b : Block) : StatusPort where
  phase := b.phase.code
  err := b.err
  errcmd := b.errcmd
  errphase := b.errphase.code
  total := BitVec.ofNat 64 b.total
  dn := BitVec.ofNat 9 b.dord.length
  qlen := BitVec.ofNat 9 b.pq.length
  encn := BitVec.ofNat 64 b.encn
  origlen := BitVec.ofNat 64 b.origlen
  dictsz := BitVec.ofNat 64 b.dictsz
  outn := BitVec.ofNat 64 b.outn
  fault_o := b.faultOut
  done_o := b.doneOut

end Sys2Proof.Machine
end

