-- ==== Sys2Proof/Safety.lean ====
section
/-! DEFINITION. What counts as a safe run, and the vocabulary of the claims: the state a command leaves, the transcript's
parts, the paths of a tree, and the invariants the spec states (10_state.md R12 to R32). -/

namespace Sys2Proof.Machine

/-! ## What a command leaves -/

/-- The state after a command that leaves the block `b`, puts out `out` and is answered with the code `c`: nothing else of
the machine changes (20_memory.md R40, 30_encoding.md R68). -/
def State.answered (s : State) (b : Block) (out : List Byte) (c : Byte) : State where
  block := b
  port := s.port
  wire := s.wire ++ out.map PortEvent.byte ++ [PortEvent.response c]

/-- The state after fault entry with the code `c` on the command word `w`: the block as before but for the four control
registers, no byte put out, the code as the answer (60_exceptions.md R155). -/
def State.afterFault (s : State) (w : Word16) (c : Byte) : State :=
  s.answered { s.block with phase := Phase.fault, err := c, errcmd := w, errphase := s.block.phase } [] c

/-- The state once the block has taken the event at the head of the port. -/
def State.taken (s : State) (e : HostEvent) (rest : List HostEvent) : State where
  block := s.block
  port := rest
  wire := s.wire ++ [PortEvent.took e]

/-- The phases in which a command may execute, as the table of 40_control.md R82 has them. -/
def mayExecute (i : Instr) (p : Phase) : Prop :=
  match i with
  | .nop => True
  | .clr => True
  | .freq _ => p = .idle ∨ p = .count
  | .seed => p = .idle ∨ p = .count
  | .merge => p = .tree
  | .build => p = .idle ∨ p = .count
  | .gen => p = .tree
  | .head => p = .coded
  | .enc _ => p = .enc
  | .encend => p = .enc
  | .decst => p = .idle
  | .dec _ => p = .decHdr ∨ p = .decDict ∨ p = .decBits ∨ p = .decDone
  | .decend => p = .decHdr ∨ p = .decDict ∨ p = .decBits ∨ p = .decDone

/-! ## Bytes and bits -/

/-- The `n` bytes of `v`, least significant first, byte `k` being `v[8k+7 : 8k]` (00_scope.md R8). -/
def littleEndian (n v : Nat) : List Byte := (List.range n).map (fun k => BitVec.ofNat 8 (v / 256 ^ k))

/-- The sum of `b_k · 2^(8k)` over the bytes (00_scope.md R8). -/
def fromLittleEndian (bs : List Byte) : Nat := ((List.range bs.length).map (fun k => (bs.getD k 0).toNat * 256 ^ k)).sum

/-- The bits that output bytes and a partly filled packer byte hold, in transmission order (20_memory.md R48, 10_state.md
R23). -/
def packedBits (out : List Byte) (buf : Byte) (cnt : Nat) : List Bool := out.flatMap byteBits ++ (byteBits buf).take cnt

/-- The bits the decoder has accumulated, first bit first (10_state.md R28). -/
def pendingBits (b : Block) : List Bool := codeBits ⟨b.accbits, b.acclen⟩

/-! ## The transcript -/

/-- The output bytes of a transcript, in order. -/
def wireBytes (w : List PortEvent) : List Byte :=
  w.filterMap (fun e => match e with | .byte b => some b | .took _ => none | .response _ => none)

/-- The response codes of a transcript, in order. -/
def wireResponses (w : List PortEvent) : List Byte :=
  w.filterMap (fun e => match e with | .response c => some c | .byte _ => none | .took _ => none)

/-- The run since the last reset or `CLR`: the word last taken, the bytes put out, and whether the run has ended
successfully (70_reset_and_hazards.md R181). -/
structure RunView where
  word : Option Word16
  bytes : List Byte
  ended : Bool
deriving DecidableEq, Repr

/-- A run that has just begun. -/
def RunView.fresh : RunView := { word := none, bytes := [], ended := false }

/-- One event of the transcript: reset and `CLR` begin a new run, the answer `OK` to `ENCEND` or `DECEND` ends one
(70_reset_and_hazards.md R171, R172, R181). -/
def RunView.next (v : RunView) (e : PortEvent) : RunView :=
  match e with
  | .took .reset => RunView.fresh
  | .took (.command w) => if w = 0x1000 then RunView.fresh else { v with word := some w }
  | .byte b => { v with bytes := v.bytes ++ [b] }
  | .response c => { v with ended := v.ended || decide (c = 0x00 ∧ (v.word = some 0x9000 ∨ v.word = some 0xC000)) }

/-- The result of the run a transcript ends in: the output bytes since the last reset or `CLR` where the run has ended
successfully, else nothing (70_reset_and_hazards.md R181). -/
def runResult (w : List PortEvent) : Option (List Byte) :=
  let v := w.foldl RunView.next RunView.fresh
  if v.ended then some v.bytes else none

/-! ## Runs over command lists -/

/-- The machine after reset with these commands presented, run until it has taken them all. -/
def runFromReset (cs : List Instr) : Host.Outcome State Fault Refusal :=
  Sys2Proof.core.run cs.length { State.reset with port := cs.map (fun i => HostEvent.command (encode i)) }

/-- The encode sequence for the input `bs` (70_reset_and_hazards.md R173). -/
def encodeCommands (bs : List Byte) : List Instr :=
  bs.map Instr.freq ++ [Instr.build, Instr.gen, Instr.head] ++ bs.map Instr.enc ++ [Instr.encend]

/-- The decode sequence for the file `fs` (70_reset_and_hazards.md R173). -/
def decodeCommands (fs : List Byte) : List Instr := [Instr.decst] ++ fs.map Instr.dec ++ [Instr.decend]

/-! ## Trees -/

/-- The node reached from node `n` along a path, `false` a left edge and `true` a right edge (43_codegen.md R107). -/
def follow (arena : List Node) : Nat → List Bool → Option Node
  | n, [] => arena[n]?
  | n, bit :: path =>
    match arena[n]? with
    | some (Node.internal _ l r) => follow arena (if bit then r else l) path
    | some (Node.leaf _ _) => none
    | none => none

/-- Some Internal node stands at depth 64 below node `n` (43_codegen.md R109). -/
def tooDeep (arena : List Node) (n : Nat) : Prop :=
  ∃ path w l r, path.length = 64 ∧ follow arena n path = some (Node.internal w l r)

/-- The child indices of the arena's Internal nodes (10_state.md R18). -/
def childIndices (arena : List Node) : List Nat :=
  arena.flatMap (fun x => match x with | .internal _ l r => [l, r] | .leaf _ _ => [])

/-- The Leaves of the arena. -/
def leafCount (arena : List Node) : Nat :=
  arena.countP (fun x => match x with | .leaf _ _ => true | .internal _ _ _ => false)

/-- The weight of a queue entry's node, where the node exists (10_state.md R14). -/
def entryWeight? (arena : List Node) (e : PqEntry) : Option Nat := (arena[e.node]?).map Node.weight

/-- Entry `x` stands before entry `y`: a smaller weight, or an equal weight and an earlier insertion (10_state.md R17). -/
def entryBefore (arena : List Node) (x y : PqEntry) : Prop :=
  ∃ wx wy, entryWeight? arena x = some wx ∧ entryWeight? arena y = some wy ∧ (wx < wy ∨ (wx = wy ∧ x.seq < y.seq))

/-- The characters with a nonzero count, in ascending order (42_tree.md R93). -/
def presentBytes (b : Block) : List Byte := allBytes.filter (fun c => decide (b.count c ≠ 0))

/-! ## Codes -/

/-- No two distinct symbols' codes are one a prefix of the other (10_state.md R22 (b)). -/
def PrefixFree (b : Block) : Prop :=
  ∀ c ∈ b.dord, ∀ c' ∈ b.dord, c ≠ c' → ¬ (codeBits (b.code c)).IsPrefix (codeBits (b.code c'))

/-- The Kraft sum in units of 2^(-64): the sum of `2^(64 - len)` over the codes present (10_state.md R22 (b)). -/
def kraftSum (b : Block) : Nat := (b.dord.map (fun c => 2 ^ (64 - (b.code c).len))).sum

/-! ## Invariants -/

/-- `TOTAL` is the sum of the counts and fits 64 bits (10_state.md R12, 41_count.md R86). -/
structure CountInv (b : Block) : Prop where
  total_eq : b.total = b.freq.entries.sum
  total_fits : b.total ≤ Config.countMax

/-- The arena and the queue (10_state.md R13 to R19). -/
structure TreeInv (b : Block) : Prop where
  /-- arena and queue are empty but in `TREE` and after a fault (42_tree.md R93, 43_codegen.md R111) -/
  idle_empty : b.phase ≠ .tree → b.phase ≠ .fault → b.node = [] ∧ b.pq = []
  /-- nothing has been inserted before seeding or in a decode run (R15) -/
  seq_zero : b.phase ∈ [Phase.idle, .count, .decHdr, .decDict, .decBits, .decDone] → b.seq = 0
  node_cap : b.node.length ≤ Config.nodeCap
  queue_cap : b.pq.length ≤ Config.queueCap
  seq_cap : b.seq ≤ 511
  /-- each insertion put one allocated node into the queue (42_tree.md R93, R94) -/
  seq_eq : b.node ≠ [] → b.seq = b.node.length
  /-- `left` and `right` are smaller than the node's own index (R18) -/
  child_lt : ∀ (i w l r : Nat), b.node[i]? = some (Node.internal w l r) → l < i ∧ r < i
  /-- "Every node index appears at most once as a child" (R18) -/
  child_once : (childIndices b.node).Nodup
  /-- "a node is in `PQ` exactly when it is no node's child" (R18) -/
  queued : ∀ n, n ∈ b.pq.map PqEntry.node ↔ n < b.node.length ∧ n ∉ childIndices b.node
  queued_once : (b.pq.map PqEntry.node).Nodup
  /-- `QLEN` = (number of Leaves) - (number of Internal nodes) (R18) -/
  balance : b.pq.length + (b.node.length - leafCount b.node) = leafCount b.node
  /-- the Leaves come first, in ascending order of their characters (R18) -/
  leaves_first : ∀ (i j : Nat) (c : Byte) (w : Nat), i < j → b.node[j]? = some (Node.leaf c w) →
    ∃ (c' : Byte) (w' : Nat), b.node[i]? = some (Node.leaf c' w') ∧ c'.toNat < c.toNat
  /-- a Leaf's weight is its character's count and not 0 (R16) -/
  leaf_weight : ∀ (i : Nat) (c : Byte) (w : Nat), b.node[i]? = some (Node.leaf c w) → w = b.count c ∧ w ≠ 0
  /-- an Internal node's weight is the sum of its children's (R16) -/
  internal_weight : ∀ (i w l r : Nat), b.node[i]? = some (Node.internal w l r) →
    ∃ x y : Node, b.node[l]? = some x ∧ b.node[r]? = some y ∧ w = x.weight + y.weight
  /-- "every node's weight is the sum of the `FREQ` entries of the distinct Leaves below it, hence at most `TOTAL`" (R19) -/
  weight_le : ∀ (i : Nat) (x : Node), b.node[i]? = some x → x.weight ≤ b.total
  /-- the queued weights add up to the counted bytes, so that the last entry's weight is `TOTAL` (R19) -/
  queue_weight : b.phase = .tree → (b.pq.filterMap (entryWeight? b.node)).sum = b.total
  /-- every present character has a Leaf once the queue is seeded (42_tree.md R93) -/
  leaf_present : b.phase = .tree → ∀ c, b.count c ≠ 0 → ∃ i w : Nat, b.node[i]? = some (Node.leaf c w)
  /-- the queue is ordered by weight, then by insertion (R17) -/
  order : b.pq.Pairwise (entryBefore b.node)
  /-- "All `seq` values in the queue are distinct and less than `SEQ`" (R17) -/
  seq_lt : ∀ e ∈ b.pq, e.seq < b.seq
  seq_once : (b.pq.map PqEntry.seq).Nodup

/-- The code table (10_state.md R20 to R22). -/
structure TableInv (b : Block) : Prop where
  /-- `CT[c].len ≠ 0` exactly when `c` occurs in `DORD` (R22 (a)) -/
  listed : ∀ c, (b.code c).len ≠ 0 ↔ c ∈ b.dord
  listed_once : b.dord.Nodup
  /-- the bits of an absent entry are 0 (R20) -/
  absent_bits : ∀ c, (b.code c).len = 0 → (b.code c).bits = 0
  len_le : ∀ c, (b.code c).len ≤ Config.maxCodeLen
  /-- no code before `GEN` or before the first record (R38) -/
  empty_before : b.phase ∈ [Phase.idle, .count, .tree, .decHdr] → b.dord = []
  /-- after `GEN`: exactly the present characters have codes (R22 (b)) -/
  coded_present : b.phase ∈ [Phase.coded, .enc, .encDone] → ∀ c, c ∈ b.dord ↔ b.count c ≠ 0
  /-- after `GEN`: `bits < 2^len` (R20) -/
  coded_bits : b.phase ∈ [Phase.coded, .enc, .encDone] → ∀ c, (b.code c).bits.toNat < 2 ^ (b.code c).len
  /-- after `GEN`: the codes are prefix-free (R22 (b)) -/
  coded_prefix_free : b.phase ∈ [Phase.coded, .enc, .encDone] → PrefixFree b
  /-- after `GEN`: the Kraft sum is 1, 1/2 for one symbol, 0 for none (R22 (b)) -/
  coded_kraft : b.phase ∈ [Phase.coded, .enc, .encDone] →
    kraftSum b = if b.dord.length = 0 then 0 else if b.dord.length = 1 then 2 ^ 63 else 2 ^ 64
  /-- on the decode path no two present entries have the same key (R22 (c)) -/
  loaded_keys : b.phase ∈ [Phase.decDict, .decBits, .decDone] →
    ∀ c ∈ b.dord, ∀ c' ∈ b.dord, b.code c = b.code c' → c = c'

/-- The bit packer: the bits of `PKBUF` below the filled ones are 0, so `PKCNT = 0` implies `PKBUF = 0` (10_state.md R23). -/
def PackerInv (b : Block) : Prop := b.pkbuf.toNat % 2 ^ (8 - b.pkcnt.val) = 0

/-- The encoder registers (10_state.md R23, R24, R38). -/
structure EncoderInv (b : Block) : Prop where
  packer : PackerInv b
  encn_le : b.encn ≤ b.total
  /-- the packer is idle but in `ENC` and after a fault (R38) -/
  packer_idle : b.phase ≠ .enc → b.phase ≠ .fault → b.pkcnt = 0
  encn_zero : b.phase ∈ [Phase.idle, .count, .tree, .coded, .decHdr, .decDict, .decBits, .decDone] → b.encn = 0
  /-- every byte has been encoded when the run is over (44_encode.md R121) -/
  encn_done : b.phase = .encDone → b.encn = b.total

/-- The decoder registers (10_state.md R25 to R29). -/
structure DecoderInv (b : Block) : Prop where
  origlen_fits : b.origlen ≤ Config.countMax
  dictsz_fits : b.dictsz ≤ Config.countMax
  /-- both header fields hold 0 until the header is complete (R26) -/
  header_zero : b.phase ∈ [Phase.idle, .count, .tree, .coded, .enc, .encDone, .decHdr] → b.origlen = 0 ∧ b.dictsz = 0
  /-- records are missing as long as the dictionary stage lasts (45_decode.md R133) -/
  dict_open : b.phase = .decDict → b.dictsz % 16 = 0 ∧ 16 * b.dord.length < b.dictsz
  /-- "all N records are loaded" (20_memory.md R55, 45_decode.md R133) -/
  dict_closed : b.phase ∈ [Phase.decBits, .decDone] → 16 * b.dord.length = b.dictsz
  /-- `MAXLEN` is the longest code length loaded (R27) -/
  maxlen_le : b.maxlen ≤ Config.maxCodeLen
  maxlen_bound : b.phase ∈ [Phase.decHdr, .decDict, .decBits, .decDone] → ∀ c, (b.code c).len ≤ b.maxlen
  maxlen_met : b.maxlen = 0 ∨ ∃ c ∈ b.dord, (b.code c).len = b.maxlen
  /-- "Not maintained on the encode path (it stays 0 there" (R27) -/
  maxlen_encode : b.phase ∈ [Phase.idle, .count, .tree, .coded, .enc, .encDone] → b.maxlen = 0
  acclen_le : b.acclen ≤ b.maxlen
  accbits_lt : b.accbits.toNat < 2 ^ b.acclen
  /-- no present entry equals the accumulator unless `ACCLEN` is 0 (R28) -/
  acc_unmatched : b.phase = .decBits → b.acclen ≠ 0 → ∀ c, b.code c ≠ ⟨b.accbits, b.acclen⟩
  /-- no code that can match is a prefix of the accumulated bits: it would have been matched (R135, DEDUCED, log entry 10) -/
  acc_no_prefix : b.phase = .decBits → ∀ c ∈ b.dord, (b.code c).bits.toNat < 2 ^ (b.code c).len →
    ¬ (codeBits (b.code c)).IsPrefix (pendingBits b)
  /-- the automaton is in its initial state but in `DEC_BITS` and after a fault (R38, 45_decode.md R137) -/
  acc_zero : b.phase ≠ .decBits → b.phase ≠ .fault → b.acclen = 0
  /-- `OUTN ≤ ORIGLEN` (R29) -/
  outn_le : b.outn ≤ b.origlen
  outn_lt : b.phase = .decBits → b.outn < b.origlen
  outn_done : b.phase = .decDone → b.outn = b.origlen
  outn_zero : b.phase ∈ [Phase.idle, .count, .tree, .coded, .enc, .encDone, .decHdr, .decDict] → b.outn = 0

/-- Which groups a run leaves untouched: "An encode run never touches the decode group and a decode run never touches the
count, tree and encode groups" (10_state.md R38). -/
structure RunInv (b : Block) : Prop where
  encode_run : b.phase ∈ [Phase.idle, .count, .tree, .coded, .enc, .encDone] →
    b.stage = Block.reset.stage ∧ b.spos = 0
  decode_run : b.phase ∈ [Phase.idle, .decHdr, .decDict, .decBits, .decDone] →
    b.freq = Block.reset.freq ∧ b.total = 0
  /-- the staging buffer is empty once the dictionary is complete (R38) -/
  staged : b.phase ∈ [Phase.decBits, .decDone] → b.spos = 0

/-- The error registers (10_state.md R31, R32). -/
structure ErrInv (b : Block) : Prop where
  /-- "`ERR ≠ 0` exactly when `PHASE = FAULT`" -/
  err_iff : b.err ≠ 0 ↔ b.phase = .fault
  /-- "`ERR` is never 0x00 (`OK`), 0x01 (`EmptyInput`) or 0x0C (`Faulted`) in `FAULT`", nor a code of no fault kind -/
  err_kind : b.phase = .fault → 0x02 ≤ b.err.toNat ∧ b.err.toNat ≤ 0x0B
  /-- "both are 0 when `PHASE ≠ FAULT`" -/
  err_clear : b.phase ≠ .fault → b.errcmd = 0 ∧ b.errphase = .idle
  /-- a fault is recorded with the phase before it, which was not `FAULT` (60_exceptions.md R155, R159) -/
  err_phase : b.errphase ≠ .fault

/-- All invariants of 10_state.md together. -/
structure Inv (b : Block) : Prop where
  count : CountInv b
  tree : TreeInv b
  table : TableInv b
  encoder : EncoderInv b
  decoder : DecoderInv b
  run : RunInv b
  err : ErrInv b

/-- A safe run: the machine has not stopped (00_scope.md R7: every command in every state has a response). -/
def Running (o : Host.Outcome State Fault Refusal) : Prop := ∃ t, o = .next t

end Sys2Proof.Machine
end

