-- ==== Sys2Proof/Certificates/Slice0/Obligations.lean ====
section
/-! DEFINITION. The claims about HUFFCORE for the provers. What a command puts out and answers stands in `State.wire` (log
entry 1); `State.answered` and `State.afterFault` (Sys2Proof/Safety.lean) spell out the state a command leaves. -/

open Sys2Proof Sys2Proof.Machine

/-! ## Encoding (30_encoding.md) -/

/-- Every legal word stands for one command and every command has one word: 30_encoding.md R60 to R66. -/
def Obligations.DecodeExactlyInvertsEncode : Prop :=
  ∀ (w : Word16) (i : Instr), decode w = .ok i ↔ w = encode i

/-- R64 and R65: reserved opcodes, a nonzero reserved field, and a nonzero `d` on a command that takes no operand are
illegal; every other word is legal and carries its opcode and operand (R66). -/
def Obligations.IllegalWordsAreRejected : Prop :=
  ∀ w : Word16,
    (0xC < (w.extractLsb 15 12).toNat → ∃ e, decode w = .error e) ∧
    (w.extractLsb 11 8 ≠ 0 → ∃ e, decode w = .error e) ∧
    ((w.extractLsb 15 12).toNat ∈ [0x0, 0x1, 0x3, 0x4, 0x5, 0x6, 0x7, 0x9, 0xA, 0xC] →
      w.extractLsb 7 0 ≠ 0 → ∃ e, decode w = .error e) ∧
    ((w.extractLsb 15 12).toNat ≤ 0xC → w.extractLsb 11 8 = 0 →
      ((w.extractLsb 15 12).toNat ∈ [0x2, 0x8, 0xB] ∨ w.extractLsb 7 0 = 0) →
      ∃ i, decode w = .ok i ∧ i.opcode.toNat = (w.extractLsb 15 12).toNat ∧ i.operand.toNat = (w.extractLsb 7 0).toNat)

/-- R66: "Of the 65,536 words, 10 + 3·256 = 778 are legal". -/
def Obligations.LegalWordsNumber778 : Prop :=
  ∃ ws : List Word16, ws.Nodup ∧ ws.length = 778 ∧ ∀ w, w ∈ ws ↔ ∃ i, decode w = .ok i

/-- R63: a word is legal exactly when it selects a row of the opcode table, and the row it selects is its command's. -/
def Obligations.OpcodeRowSelectsTheCommand : Prop :=
  (∀ w : Word16, (∃ i, decode w = .ok i) ↔ ∃ row ∈ opcodeTable, w &&& row.mask = row.pattern) ∧
  (∀ (w : Word16) (i : Instr), ∀ row ∈ opcodeTable,
    decode w = .ok i → w &&& row.mask = row.pattern → row.mnemonic = i.mnemonic)

/-- Words written out from the encodings of R63 decode to the commands they stand for. -/
def Obligations.SampleWordsDecode : Prop :=
  decode 0b0000000000000000#16 = .ok .nop ∧ decode 0b0001000000000000#16 = .ok .clr ∧
  decode 0b0010000001100001#16 = .ok (.freq 0x61) ∧ decode 0b0101000000000000#16 = .ok .build ∧
  decode 0b0110000000000000#16 = .ok .gen ∧ decode 0b1000000011111111#16 = .ok (.enc 0xFF) ∧
  decode 0b1011000000011111#16 = .ok (.dec 0x1F) ∧ decode 0b1100000000000000#16 = .ok .decend

/-! ## The step (40_control.md R84) -/

/-- A command word at the head of the port that decodes to `i` is taken, and the step is `exec i`: R84 steps 2 to 5. -/
def Obligations.StepRunsTheDecodedCommand : Prop :=
  ∀ (s : State) (w : Word16) (rest : List HostEvent) (i : Instr),
    s.port = .command w :: rest → decode w = .ok i → step s = exec i (s.taken (.command w) rest)

/-- R152: an illegal word raises `IllegalCommand` in every phase but `FAULT`, whatever the phase. -/
def Obligations.IllegalWordRaisesIllegalCommand : Prop :=
  ∀ (s : State) (w : Word16) (rest : List HostEvent) (e : Illegal),
    s.port = .command w :: rest → s.block.phase ≠ .fault → decode w = .error e →
    step s = .next ((s.taken (.command w) rest).afterFault w 0x0B)

/-- R157: in `FAULT` every word but 0x0000 and 0x1000, illegal ones included, is answered `Faulted`, and no state element
changes. -/
def Obligations.FaultPhaseAnswersFaulted : Prop :=
  ∀ (s : State) (w : Word16) (rest : List HostEvent),
    s.port = .command w :: rest → s.block.phase = .fault → w ≠ 0x0000 → w ≠ 0x1000 →
    step s = .next ((s.taken (.command w) rest).answered s.block [] 0x0C)

/-- With no event the block is idle and keeps all state (log entry 2, DEDUCED from 60_exceptions.md R167); a reset puts the
block in its reset state, retracts nothing and has no response (70_reset_and_hazards.md R171). -/
def Obligations.IdleAndResetSteps : Prop :=
  ∀ s : State,
    (s.port = [] → step s = .next s) ∧
    (∀ rest, s.port = .reset :: rest →
      step s = .next { block := State.reset.block, port := rest, wire := s.wire ++ [.took .reset] })

/-- R36: the value of every element after reset, and identically after `CLR`. -/
def Obligations.ResetValues : Prop :=
  let b := State.reset.block
  (∀ c, b.count c = 0) ∧ b.total = 0 ∧ b.node = [] ∧ b.pq = [] ∧ b.seq = 0 ∧ (∀ c, b.code c = ⟨0, 0⟩) ∧ b.dord = [] ∧
  b.pkbuf = 0 ∧ b.pkcnt = 0 ∧ b.encn = 0 ∧ (∀ k : Fin 16, b.stage[k] = 0) ∧ b.spos = 0 ∧ b.origlen = 0 ∧ b.dictsz = 0 ∧
  b.maxlen = 0 ∧ b.accbits = 0 ∧ b.acclen = 0 ∧ b.outn = 0 ∧ b.phase = .idle ∧ b.err = 0x00 ∧ b.errcmd = 0x0000 ∧
  b.errphase = .idle ∧
  (∀ s : State, ∃ t, exec .clr s = .next t ∧ t.block = b)

/-! ## Rules over all commands -/

/-- R82: outside its phases a command raises `ProtocolError`, except in `FAULT`, where it is answered `Faulted`. -/
def Obligations.PhaseTableIsEnforced : Prop :=
  ∀ (i : Instr) (s : State), i ≠ .nop → i ≠ .clr →
    (s.block.phase ≠ .fault → ¬ mayExecute i s.block.phase → exec i s = .next (s.afterFault (encode i) 0x0A)) ∧
    (s.block.phase = .fault → exec i s = .next (s.answered s.block [] 0x0C))

/-- R153: when a command raises `ProtocolError`; "No other condition raises it". -/
def Obligations.ProtocolErrorExactlyWhen : Prop :=
  ∀ (i : Instr) (s : State), s.block.phase ≠ .fault →
    (exec i s = .next (s.afterFault (encode i) 0x0A) ↔
      ¬ mayExecute i s.block.phase ∨
      (i = .gen ∧ s.block.phase = .tree ∧ 1 < s.block.pq.length) ∨
      (∃ d, i = .enc d ∧ s.block.phase = .enc ∧ s.block.encn = s.block.total) ∨
      (i = .encend ∧ s.block.phase = .enc ∧ s.block.encn ≠ s.block.total))

/-- R154 and R155: a command that ends in `FAULT` leaves every other element as it was, records its kind's code, its word
and the phase before it, and puts out nothing; the same of every command word, the illegal ones included. -/
def Obligations.FaultsArePrecise : Prop :=
  (∀ (i : Instr) (s t : State), exec i s = .next t → s.block.phase ≠ .fault → t.block.phase = .fault →
    ∃ k : FaultKind, t = s.afterFault (encode i) k.code) ∧
  (∀ (s t : State) (w : Word16) (rest : List HostEvent), s.port = .command w :: rest → step s = .next t →
    s.block.phase ≠ .fault → t.block.phase = .fault →
    ∃ k : FaultKind, t = (s.taken (.command w) rest).afterFault w k.code)

/-- The table of R150: the fault kinds each command can raise; R98: `EmptyQueue` only from `MERGE`. -/
def Obligations.FaultKindsOfEachCommand : Prop :=
  ∀ (i : Instr) (s t : State), exec i s = .next t → s.block.phase ≠ .fault → t.block.phase = .fault →
    match i with
    | .nop => False
    | .clr => False
    | .freq _ => t.block.err ∈ [0x09, 0x0A]
    | .seed => t.block.err ∈ [0x03, 0x0A]
    | .merge => t.block.err ∈ [0x02, 0x03, 0x0A]
    | .build => t.block.err ∈ [0x03, 0x0A]
    | .gen => t.block.err ∈ [0x04, 0x05, 0x08, 0x0A]
    | .head => t.block.err = 0x0A
    | .enc _ => t.block.err ∈ [0x05, 0x0A]
    | .encend => t.block.err = 0x0A
    | .decst => t.block.err = 0x0A
    | .dec _ => t.block.err ∈ [0x05, 0x06, 0x07, 0x0A]
    | .decend => t.block.err ∈ [0x06, 0x07, 0x0A]

/-- R159: only `CLR` and reset leave `FAULT`, and both put every element at its reset value; nothing else changes in it. -/
def Obligations.OnlyClrAndResetLeaveFault : Prop :=
  ∀ s t : State, s.block.phase = .fault → step s = .next t →
    (t.block = s.block ∨
      (t.block = Block.reset ∧ ∃ rest, s.port = .reset :: rest ∨ s.port = .command 0x1000 :: rest)) ∧
    (∀ rest, s.port = .reset :: rest ∨ s.port = .command 0x1000 :: rest → t.block = Block.reset)

/-- R83: the phase after a command that does not fault. -/
def Obligations.PhaseTransitions : Prop :=
  ∀ (i : Instr) (s t : State), exec i s = .next t → (s.block.phase = .fault ∨ t.block.phase ≠ .fault) →
    (i = .clr → t.block.phase = .idle) ∧
    (i = .nop → t.block.phase = s.block.phase) ∧
    (s.block.phase ≠ .fault →
      ((∃ d, i = .freq d) → t.block.phase = .count) ∧
      (i = .seed ∨ i = .build → t.block.phase = .tree) ∧
      (i = .merge → t.block.phase = .tree) ∧
      (i = .gen → t.block.phase = .coded) ∧
      (i = .head → t.block.phase = .enc) ∧
      ((∃ d, i = .enc d) → t.block.phase = .enc) ∧
      (i = .encend → t.block.phase = .encDone) ∧
      (i = .decst → t.block.phase = .decHdr) ∧
      (i = .decend → t.block.phase = .decDone) ∧
      ((∃ d, i = .dec d) →
        (s.block.phase = .decHdr →
          if s.block.spos.val < 15 then t.block.phase = .decHdr
          else if t.block.dictsz ≠ 0 then t.block.phase = .decDict
          else if t.block.origlen ≠ 0 then t.block.phase = .decBits
          else t.block.phase = .decDone) ∧
        (s.block.phase = .decDict →
          if s.block.spos.val < 15 ∨ 16 * t.block.dord.length ≠ t.block.dictsz then t.block.phase = .decDict
          else if t.block.origlen ≠ 0 then t.block.phase = .decBits
          else t.block.phase = .decDone) ∧
        (s.block.phase = .decBits → s.block.outn < s.block.origlen →
          if t.block.outn < t.block.origlen then t.block.phase = .decBits
          else t.block.phase = .decDone ∧ t.block.outn = t.block.origlen) ∧
        (s.block.phase = .decDone → t.block.phase = .decDone)))

/-- R68: one response code per command and per command word, after its output bytes, from 0x00 to 0x0C with the names the
table gives; a fault response puts out nothing, `Faulted` changes nothing, `EmptyInput` comes from `SEED` and `BUILD`
alone. -/
def Obligations.OneResponsePerCommand : Prop :=
  (∀ (i : Instr) (s t : State), exec i s = .next t →
    t.port = s.port ∧
    ∃ (out : List Byte) (c : Byte),
      t.wire = s.wire ++ out.map .byte ++ [.response c] ∧ c.toNat ≤ 0x0C ∧
      (2 ≤ c.toNat → out = []) ∧
      (2 ≤ c.toNat → c.toNat ≤ 0x0B → s.block.phase ≠ .fault ∧ t.block.phase = .fault ∧ t.block.err = c) ∧
      (c = 0x0C → t.block = s.block ∧ s.block.phase = .fault) ∧
      (c.toNat ≤ 1 → t.block.phase = .fault → i = .nop) ∧
      (c = 0x01 → i = .seed ∨ i = .build)) ∧
  (∀ (s t : State) (w : Word16) (rest : List HostEvent), s.port = .command w :: rest → step s = .next t →
    t.port = rest ∧ ∃ (out : List Byte) (c : Byte), c.toNat ≤ 0x0C ∧
      t.wire = s.wire ++ [.took (.command w)] ++ out.map .byte ++ [.response c]) ∧
  [Rsp.ok, .emptyInput, .faulted].map Rsp.code = [0x00, 0x01, 0x0C] ∧
  [FaultKind.emptyQueue, .allocationFailure, .tableOverflow, .degenerateCodeError, .corruptStream, .formatError,
    .codeTooLong, .countOverflow, .protocolError, .illegalCommand].map FaultKind.code =
    [0x02, 0x03, 0x04, 0x05, 0x06, 0x07, 0x08, 0x09, 0x0A, 0x0B]

/-- What a command leaves unchanged when it does not fault: every element but those its rule writes (20_memory.md R41,
10_state.md R11 to R32), the error registers among the unchanged ones. -/
def Obligations.CommandFrames : Prop :=
  ∀ (i : Instr) (s t : State), exec i s = .next t → s.block.phase ≠ .fault → t.block.phase ≠ .fault →
    match i with
    | .nop => t.block = s.block
    | .clr => t.block = Block.reset
    | .freq d => t.block = { s.block with freq := t.block.freq, total := t.block.total, phase := t.block.phase } ∧
        ∀ c, c ≠ d → t.block.count c = s.block.count c
    | .seed => t.block = { s.block with
        node := t.block.node, pq := t.block.pq, seq := t.block.seq, phase := t.block.phase }
    | .merge => t.block = { s.block with node := t.block.node, pq := t.block.pq, seq := t.block.seq }
    | .build => t.block = { s.block with
        node := t.block.node, pq := t.block.pq, seq := t.block.seq, phase := t.block.phase }
    | .gen => t.block = { s.block with
        node := t.block.node, pq := t.block.pq, ct := t.block.ct, dord := t.block.dord, phase := t.block.phase }
    | .head => t.block = { s.block with phase := t.block.phase }
    | .enc _ => t.block = { s.block with pkbuf := t.block.pkbuf, pkcnt := t.block.pkcnt, encn := t.block.encn }
    | .encend => t.block = { s.block with pkbuf := t.block.pkbuf, pkcnt := t.block.pkcnt, phase := t.block.phase }
    | .decst => t.block = { s.block with phase := t.block.phase }
    | .decend => t.block = s.block
    | .dec _ =>
      (s.block.phase = .decHdr → t.block = { s.block with
        stage := t.block.stage, spos := t.block.spos, origlen := t.block.origlen, dictsz := t.block.dictsz,
        phase := t.block.phase }) ∧
      (s.block.phase = .decDict → t.block = { s.block with
        stage := t.block.stage, spos := t.block.spos, ct := t.block.ct, dord := t.block.dord,
        maxlen := t.block.maxlen, phase := t.block.phase }) ∧
      (s.block.phase = .decBits → t.block = { s.block with
        accbits := t.block.accbits, acclen := t.block.acclen, outn := t.block.outn, phase := t.block.phase }) ∧
      (s.block.phase = .decDone → t.block = s.block)

/-- The status port shows the registers at their widths, and `FAULT_O` and `DONE_O` are functions of `PHASE`: R33, R161,
with the values of `PHASE` of R30. -/
def Obligations.StatusPortShowsTheRegisters : Prop :=
  (∀ b : Block,
    b.status.err = b.err ∧ b.status.errcmd = b.errcmd ∧ b.status.phase = b.phase.code ∧
    b.status.errphase = b.errphase.code ∧
    b.status.total.toNat = b.total % 2 ^ 64 ∧ b.status.encn.toNat = b.encn % 2 ^ 64 ∧
    b.status.origlen.toNat = b.origlen % 2 ^ 64 ∧ b.status.dictsz.toNat = b.dictsz % 2 ^ 64 ∧
    b.status.outn.toNat = b.outn % 2 ^ 64 ∧ b.status.dn.toNat = b.dord.length % 2 ^ 9 ∧
    b.status.qlen.toNat = b.pq.length % 2 ^ 9 ∧
    (b.status.fault_o = true ↔ b.status.phase = 15) ∧
    (b.status.done_o = true ↔ b.status.phase = 5 ∨ b.status.phase = 9)) ∧
  [Phase.idle, .count, .tree, .coded, .enc, .encDone, .decHdr, .decDict, .decBits, .decDone, .fault].map Phase.code =
    [0, 1, 2, 3, 4, 5, 6, 7, 8, 9, 15]

/-! ## Control and count (40_control.md R80, R81, 41_count.md) -/

/-- R80: the word 0x0000 writes nothing and answers `OK` in every phase, `FAULT` included. -/
def Obligations.NopChangesNothing : Prop :=
  encode .nop = 0x0000 ∧ ∀ s : State, exec .nop s = .next (s.answered s.block [] 0x00)

/-- R81: the word 0x1000 puts every element at its reset value and answers `OK` in every phase, `FAULT` included; no other
command leaves `FAULT` or goes back to `IDLE`, where a run starts. -/
def Obligations.ClrPutsTheResetState : Prop :=
  encode .clr = 0x1000 ∧ (∀ s : State, exec .clr s = .next (s.answered State.reset.block [] 0x00)) ∧
  ∀ (i : Instr) (s t : State), exec i s = .next t → i ≠ .clr →
    (s.block.phase = .fault → t.block.phase = .fault) ∧ (s.block.phase ≠ .idle → t.block.phase ≠ .idle)

/-- R85 and R86: `FREQ d` counts one byte, faults `CountOverflow` where `TOTAL` is 2^64 − 1, and is legal in `IDLE` and
`COUNT` only. -/
def Obligations.FreqCountsOneByte : Prop :=
  ∀ (d : Byte) (s : State), encode (.freq d) = 0x2000 + d.setWidth 16 ∧
    (s.block.phase = .idle ∨ s.block.phase = .count → s.block.total ≠ 2 ^ 64 - 1 →
      ∃ t, exec (.freq d) s = .next t ∧
        t = s.answered { s.block with freq := t.block.freq, total := s.block.total + 1, phase := .count } [] 0x00 ∧
        ∀ c, t.block.count c = if c = d then s.block.count c + 1 else s.block.count c) ∧
    (s.block.phase = .idle ∨ s.block.phase = .count → s.block.total = 2 ^ 64 - 1 →
      exec (.freq d) s = .next (s.afterFault (encode (.freq d)) 0x09)) ∧
    (s.block.phase ∉ [Phase.idle, .count, .fault] → exec (.freq d) s = .next (s.afterFault (encode (.freq d)) 0x0A))

/-- R89: only `FREQ d` (+1 in one slot) and `CLR` (all to 0) change the counts. -/
def Obligations.OnlyFreqAndClrChangeCounts : Prop :=
  ∀ (i : Instr) (s t : State), exec i s = .next t →
    t.block.freq = s.block.freq ∨ (i = .clr ∧ ∀ c, t.block.count c = 0) ∨
    ∃ d, i = .freq d ∧ ∀ c, t.block.count c = if c = d then s.block.count c + 1 else s.block.count c

/-- R87: a pass of `FREQ` commands adds to every count the number of its occurrences and to `TOTAL` the number of bytes. -/
def Obligations.CountingPass : Prop :=
  ∀ (s : State) (ds : List Byte) (rest : List HostEvent),
    s.port = ds.map (fun d => HostEvent.command (encode (.freq d))) ++ rest →
    (s.block.phase = .idle ∨ s.block.phase = .count) → s.block.total + ds.length ≤ 2 ^ 64 - 1 →
    ∃ t, Sys2Proof.core.run ds.length s = .next t ∧ t.port = rest ∧
      t.block.total = s.block.total + ds.length ∧ ∀ c, t.block.count c = s.block.count c + ds.count c

/-! ## Tree builder (42_tree.md) -/

/-- R93: after `SEED` the arena holds one Leaf per present character in ascending order, and the queue holds the Leaves by
count, equal counts in ascending byte-value order. -/
def Obligations.SeedQueuesTheLeaves : Prop :=
  ∀ s : State, (s.block.phase = .idle ∨ s.block.phase = .count) →
    s.block.node = [] → s.block.pq = [] → s.block.seq = 0 →
    let n := (presentBytes s.block).length
    let leaves := (presentBytes s.block).map (fun c => Node.leaf c (s.block.count c))
    ∃ q : List PqEntry,
      exec .seed s = .next (s.answered { s.block with node := leaves, pq := q, seq := n, phase := .tree } []
        (if n = 0 then 0x01 else 0x00)) ∧
      q.Perm ((List.range n).map (fun k => ⟨k, k⟩)) ∧ q.Pairwise (entryBefore leaves)

/-- R151: with no nonzero count `SEED` and `BUILD` answer `EmptyInput`, which is no fault: `PHASE` becomes `TREE` and the
error registers keep their values. -/
def Obligations.EmptyInputIsNoFault : Prop :=
  ∀ s : State, (s.block.phase = .idle ∨ s.block.phase = .count) → (∀ c, s.block.count c = 0) → s.block.pq = [] →
    exec .seed s = .next (s.answered { s.block with phase := .tree } [] 0x01) ∧
    exec .build s = .next (s.answered { s.block with phase := .tree } [] 0x01)

/-- R103: with exactly one symbol the queue never merges; the tree is one Leaf of weight `TOTAL`. -/
def Obligations.OneSymbolIsOneLeaf : Prop :=
  ∀ (s : State) (c : Byte), CountInv s.block → (s.block.phase = .idle ∨ s.block.phase = .count) →
    s.block.node = [] → s.block.pq = [] → s.block.seq = 0 →
    (∀ c', s.block.count c' ≠ 0 ↔ c' = c) →
    let b := { s.block with node := [Node.leaf c s.block.total], pq := [⟨0, 0⟩], seq := 1, phase := .tree }
    exec .seed s = .next (s.answered b [] 0x00) ∧ exec .build s = .next (s.answered b [] 0x00)

/-- R91, R92 and R94: `MERGE` pops the two lowest entries, first-popped left, appends their sum and inserts it behind every
entry of weight at most its own; with fewer than two entries it faults `EmptyQueue`. -/
def Obligations.MergeJoinsTheTwoLowest : Prop :=
  (∀ (s : State) (x y : PqEntry) (rest : List PqEntry) (wx wy : Nat) (ws : List Nat),
    s.block.phase = .tree → s.block.pq = x :: y :: rest → s.block.node.length ≠ 511 →
    entryWeight? s.block.node x = some wx → entryWeight? s.block.node y = some wy →
    rest.map (entryWeight? s.block.node) = ws.map some →
    let p := (ws.filter (fun w => decide (w ≤ wx + wy))).length
    exec .merge s = .next (s.answered { s.block with
      node := s.block.node ++ [Node.internal (wx + wy) x.node y.node],
      pq := rest.take p ++ [⟨s.block.node.length, s.block.seq⟩] ++ rest.drop p,
      seq := s.block.seq + 1 } [] 0x00)) ∧
  (∀ s : State, s.block.phase = .tree → s.block.pq.length < 2 → exec .merge s = .next (s.afterFault 0x4000 0x02))

/-- R99: `BUILD` leaves exactly the block that `SEED` and then `MERGE` repeated until `QLEN ≤ 1` leave. -/
def Obligations.BuildEqualsSeedThenMerges : Prop :=
  ∀ s : State, (s.block.phase = .idle ∨ s.block.phase = .count) →
    s.block.node = [] → s.block.pq = [] → s.block.seq = 0 →
    ∃ (n : Nat) (t u : State), exec .build s = .next t ∧
      Sys2Proof.core.run (n + 1)
        { s with port := (encode .seed :: List.replicate n (encode .merge)).map HostEvent.command } = .next u ∧
      t.block = u.block ∧ t.block.phase = .tree ∧ t.block.pq.length ≤ 1

/-- R100: `BUILD` ends after one merge fewer than there are distinct symbols (one Internal node per merge), with the counts
that follow, and answers `OK`, or `EmptyInput` where there is no symbol. -/
def Obligations.BuildMergesAllSymbols : Prop :=
  ∀ s : State, Inv s.block → (s.block.phase = .idle ∨ s.block.phase = .count) →
    let n := (presentBytes s.block).length
    ∃ (node : List Node) (q : List PqEntry),
      exec .build s = .next (s.answered { s.block with node := node, pq := q, seq := 2 * n - 1, phase := .tree } []
        (if n = 0 then 0x01 else 0x00)) ∧
      node.length = 2 * n - 1 ∧ q.length = min n 1 ∧ node.length ≤ 511 ∧ node.length - leafCount node = n - 1

/-- R19: "When the queue has been reduced to one entry, that entry's node is the root" and its weight is `TOTAL`, a 64-bit
value; no node is heavier. -/
def Obligations.RootWeightIsTotal : Prop :=
  ∀ s t : State, Inv s.block → step s = .next t → t.block.phase = .tree →
    (∀ x ∈ t.block.node, x.weight ≤ 2 ^ 64 - 1) ∧
    (∀ e, t.block.pq = [e] → entryWeight? t.block.node e = some t.block.total)

/-! ## Code generator (43_codegen.md) -/

/-- R105, R107 to R110: `GEN` on a complete tree gives every Leaf its path from the root as its code (a single Leaf the code
`0` of length 1), lists the characters left before right, frees the tree and answers `OK`; an Internal node at depth 64
makes it fault `CodeTooLong`. -/
def Obligations.GenAssignsRootPaths : Prop :=
  ∀ s : State, Inv s.block → s.block.phase = .tree →
    (s.block.pq = [] →
      exec .gen s = .next (s.answered { s.block with phase := .coded } [] 0x00)) ∧
    (∀ e, s.block.pq = [e] → ¬ tooDeep s.block.node e.node →
      ∃ (ct : Table Code 256) (dord : List Byte),
        let b := { s.block with ct := ct, dord := dord, node := [], pq := [], phase := .coded }
        exec .gen s = .next (s.answered b [] 0x00) ∧
        (∀ c w, s.block.node[e.node]? = some (.leaf c w) → dord = [c] ∧ b.code c = ⟨0, 1⟩) ∧
        (∀ path c w, path ≠ [] → follow s.block.node e.node path = some (.leaf c w) →
          c ∈ dord ∧ codeBits (b.code c) = path) ∧
        (∀ c ∈ dord, ∃ path w, follow s.block.node e.node path = some (.leaf c w)) ∧
        dord.Pairwise (fun c c' => codeBits (b.code c) < codeBits (b.code c'))) ∧
    (∀ e, s.block.pq = [e] → tooDeep s.block.node e.node → exec .gen s = .next (s.afterFault 0x6000 0x08))

/-- R22 (b) and R112: after `GEN` exactly the present characters have codes, the codes are prefix-free, their bits lie below
their length, and the Kraft sum is 1, 1/2 for one symbol, 0 for none. -/
def Obligations.GeneratedCodesArePrefixFree : Prop :=
  ∀ s t : State, Inv s.block → exec .gen s = .next t → t.block.phase = .coded →
    PrefixFree t.block ∧ (∀ c, c ∈ t.block.dord ↔ t.block.count c ≠ 0) ∧
    (∀ c ∈ t.block.dord, 1 ≤ (t.block.code c).len ∧ (t.block.code c).len ≤ 64 ∧
      (t.block.code c).bits.toNat < 2 ^ (t.block.code c).len) ∧
    t.block.dord.length = (presentBytes t.block).length ∧
    kraftSum t.block = if t.block.dord.length = 0 then 0 else if t.block.dord.length = 1 then 2 ^ 63 else 2 ^ 64

/-- R111: `GEN` empties the arena and the queue as a unit and leaves `SEQ` as it is. -/
def Obligations.GenFreesTheTree : Prop :=
  ∀ s t : State, exec .gen s = .next t → t.block.phase = .coded →
    t.block.node = [] ∧ t.block.pq = [] ∧ t.block.seq = s.block.seq

/-! ## Encoder (44_encode.md) -/

/-- R115 to R117, with the layout of 20_memory.md R44 and R45: `HEAD` puts out the two header fields and one record per
symbol in `DORD` order, 16 + 16·`DN` bytes, and writes only `PHASE`; outside `CODED` it raises `ProtocolError`. The packer
is empty then, and the lengths written are 1 to 64. -/
def Obligations.HeadEmitsHeaderAndDictionary : Prop :=
  ∀ s : State,
    (s.block.phase = .coded →
      ∃ out : List Byte, exec .head s = .next (s.answered { s.block with phase := .enc } out 0x00) ∧
        out = littleEndian 8 s.block.total ++ littleEndian 8 (16 * s.block.dord.length) ++
          s.block.dord.flatMap (fun ch =>
            littleEndian 8 (s.block.code ch).bits.toNat ++ littleEndian 4 (s.block.code ch).len ++ [ch, 0x00, 0x00, 0x00]) ∧
        out.length = 16 + 16 * s.block.dord.length ∧ (s.block.dord.length ≤ 256 → out.length ≤ 4112)) ∧
    (s.block.phase ∉ [Phase.coded, .fault] → exec .head s = .next (s.afterFault 0x7000 0x0A)) ∧
    (Inv s.block → s.block.phase = .coded →
      s.block.pkbuf = 0 ∧ s.block.pkcnt = 0 ∧ s.block.encn = 0 ∧
      ∀ ch ∈ s.block.dord, 1 ≤ (s.block.code ch).len ∧ (s.block.code ch).len ≤ 64)

/-- R118 and R123: `ENC d` packs the code of `d`, most significant bit first, behind the bits already pending; it faults
where pass 2 is complete (`ProtocolError`) or `d` has no code (`DegenerateCodeError`), as every byte that pass 1 did not
count, and packs nothing then. -/
def Obligations.EncPacksTheCode : Prop :=
  ∀ (d : Byte) (s : State),
    let len := (s.block.code d).len
    (s.block.phase = .enc → s.block.encn ≠ s.block.total → len ≠ 0 →
      ∃ (out : List Byte) (buf : Byte) (cnt : Fin 8),
        exec (.enc d) s = .next (s.answered { s.block with
          pkbuf := buf, pkcnt := cnt, encn := s.block.encn + 1 } out 0x00) ∧
        out.length = (s.block.pkcnt.val + len) / 8 ∧ (len ≤ 64 → out.length ≤ 8) ∧ cnt.val = (s.block.pkcnt.val + len) % 8 ∧
        (PackerInv s.block → packedBits out buf cnt.val =
          packedBits [] s.block.pkbuf s.block.pkcnt.val ++
            (List.range len).map (fun k => (s.block.code d).bits.getLsbD (len - 1 - k)))) ∧
    (s.block.phase = .enc → s.block.encn = s.block.total →
      exec (.enc d) s = .next (s.afterFault (encode (.enc d)) 0x0A)) ∧
    (s.block.phase = .enc → s.block.encn ≠ s.block.total → len = 0 →
      exec (.enc d) s = .next (s.afterFault (encode (.enc d)) 0x05)) ∧
    (Inv s.block → s.block.phase = .enc → s.block.count d = 0 → len = 0) ∧
    (s.block.phase ∉ [Phase.enc, .fault] → exec (.enc d) s = .next (s.afterFault (encode (.enc d)) 0x0A))

/-- R120: `ENCEND` puts out a pending partial byte, whose low bits are already 0, and ends the encode run; before `TOTAL`
bytes have been encoded, or outside `ENC`, it raises `ProtocolError`. -/
def Obligations.EncendFlushesTheLastByte : Prop :=
  ∀ s : State,
    (s.block.phase = .enc → s.block.encn = s.block.total → 0 < s.block.pkcnt.val →
      exec .encend s = .next (s.answered { s.block with pkbuf := 0, pkcnt := 0, phase := .encDone } [s.block.pkbuf] 0x00)) ∧
    (s.block.phase = .enc → s.block.encn = s.block.total → s.block.pkcnt.val = 0 →
      exec .encend s = .next (s.answered { s.block with phase := .encDone } [] 0x00)) ∧
    (s.block.phase = .enc → s.block.encn ≠ s.block.total → exec .encend s = .next (s.afterFault 0x9000 0x0A)) ∧
    (s.block.phase ∉ [Phase.enc, .fault] → exec .encend s = .next (s.afterFault 0x9000 0x0A)) ∧
    (PackerInv s.block → (byteBits s.block.pkbuf).drop s.block.pkcnt.val = List.replicate (8 - s.block.pkcnt.val) false)

/-- R23: all bits of `PKBUF` below the filled ones are 0, after every step. -/
def Obligations.PackerInvariantKept : Prop :=
  ∀ s t : State, PackerInv s.block → step s = .next t → PackerInv t.block

/-- R124: the bytes of pass 2 and `ENCEND` are the concatenated codes, padded with zero bits to whole bytes. -/
def Obligations.EncodePassIsTheBitstream : Prop :=
  ∀ (s : State) (ds : List Byte),
    s.port = (ds.map Instr.enc ++ [Instr.encend]).map (fun i => HostEvent.command (encode i)) →
    s.block.phase = .enc → s.block.pkbuf = 0 → s.block.pkcnt = 0 → s.block.encn = 0 → s.block.total = ds.length →
    (∀ d ∈ ds, (s.block.code d).len ≠ 0) →
    let bits := ds.flatMap (fun d => codeBits (s.block.code d))
    ∃ (t : State) (out : List Byte), Sys2Proof.core.run (ds.length + 1) s = .next t ∧ t.block.phase = .encDone ∧
      wireBytes t.wire = wireBytes s.wire ++ out ∧
      wireResponses t.wire = wireResponses s.wire ++ List.replicate (ds.length + 1) 0x00 ∧
      out.flatMap byteBits = bits ++ List.replicate ((8 - bits.length % 8) % 8) false

/-! ## Decoder (45_decode.md) -/

/-- R130: `DECST` starts a decode run in `IDLE` and raises `ProtocolError` elsewhere; every decode register has its reset
value on entry. -/
def Obligations.DecstStartsADecodeRun : Prop :=
  ∀ s : State,
    (s.block.phase = .idle → exec .decst s = .next (s.answered { s.block with phase := .decHdr } [] 0x00)) ∧
    (s.block.phase ∉ [Phase.idle, .fault] → exec .decst s = .next (s.afterFault 0xA000 0x0A)) ∧
    (Inv s.block → s.block.phase = .idle →
      s.block.spos = 0 ∧ s.block.dord = [] ∧ (∀ c, s.block.code c = ⟨0, 0⟩) ∧ s.block.maxlen = 0 ∧
      s.block.accbits = 0 ∧ s.block.acclen = 0 ∧ s.block.outn = 0)

/-- R132: `DEC` in `DEC_HDR` collects 16 bytes, then reads the two little-endian fields; a dictionary size that is no
multiple of 16 is a `FormatError`. -/
def Obligations.DecReadsTheHeader : Prop :=
  ∀ (d : Byte) (s : State), s.block.phase = .decHdr →
    (s.block.spos.val < 15 →
      exec (.dec d) s = .next (s.answered { s.block with
        stage := s.block.stage.set s.block.spos d, spos := s.block.spos + 1 } [] 0x00)) ∧
    (s.block.spos.val = 15 →
      let stage := s.block.stage.set 15 d
      let origlen := fromLittleEndian (stage.toList.take 8)
      let dictsz := fromLittleEndian (stage.toList.drop 8)
      (dictsz % 16 ≠ 0 → exec (.dec d) s = .next (s.afterFault (encode (.dec d)) 0x07)) ∧
      (dictsz % 16 = 0 → exec (.dec d) s = .next (s.answered { s.block with
        stage := stage, spos := 0, origlen := origlen, dictsz := dictsz,
        phase := if dictsz ≠ 0 then .decDict else if origlen ≠ 0 then .decBits else .decDone } [] 0x00)))

/-- R133 and R134: `DEC` in `DEC_DICT` collects 16 bytes, then checks the record in the rule's order and loads it; the last
record opens the bit stage, or ends the run where no byte is to be decoded. -/
def Obligations.DecLoadsARecord : Prop :=
  ∀ (d : Byte) (s : State), s.block.phase = .decDict →
    (s.block.spos.val < 15 →
      exec (.dec d) s = .next (s.answered { s.block with
        stage := s.block.stage.set s.block.spos d, spos := s.block.spos + 1 } [] 0x00)) ∧
    (s.block.spos.val = 15 →
      let stage := s.block.stage.set 15 d
      let bits : Word64 := BitVec.ofNat 64 (fromLittleEndian (stage.toList.take 8))
      let u := fromLittleEndian ((stage.toList.drop 8).take 4)
      let len : Int := if u < 2 ^ 31 then (u : Int) else (u : Int) - 2 ^ 32
      let ch := stage[12]
      let bad (c : Byte) := exec (.dec d) s = .next (s.afterFault (encode (.dec d)) c)
      (len = 0 → bad 0x05) ∧
      (len < 0 ∨ 64 < len → bad 0x07) ∧
      (len ≠ 0 → (s.block.code ch).len ≠ 0 → bad 0x07) ∧
      (len ≠ 0 → (∃ c, ((s.block.code c).len : Int) = len ∧ (s.block.code c).bits = bits) → bad 0x07) ∧
      (1 ≤ len → len ≤ 64 → (s.block.code ch).len = 0 →
        (¬ ∃ c, ((s.block.code c).len : Int) = len ∧ (s.block.code c).bits = bits) →
        ∃ ct : Table Code 256,
          let b := { s.block with
            stage := stage, spos := 0, ct := ct, dord := s.block.dord ++ [ch], maxlen := max s.block.maxlen len.toNat,
            phase := if 16 * (s.block.dord.length + 1) = s.block.dictsz then
              (if s.block.origlen ≠ 0 then .decBits else .decDone) else .decDict }
          exec (.dec d) s = .next (s.answered b [] 0x00) ∧
          ∀ c, b.code c = if c = ch then ⟨bits, len.toNat⟩ else s.block.code c))

/-- R135 to R137: what `DEC` puts out in `DEC_BITS` are the characters whose codes, one after the other, make up the pending
bits and the bits consumed; once `ORIGLEN` bytes are out the remaining bits of the byte make no difference. -/
def Obligations.DecEmitsTheMatchedCodes : Prop :=
  ∀ (d : Byte) (s t : State), Inv s.block → s.block.phase = .decBits → exec (.dec d) s = .next t →
    t.block.phase ≠ .fault →
    ∃ (out : List Byte) (k : Nat), k ≤ 8 ∧ out.length ≤ 8 ∧
      t = s.answered { s.block with
        accbits := t.block.accbits, acclen := t.block.acclen, outn := s.block.outn + out.length,
        phase := t.block.phase } out 0x00 ∧
      pendingBits s.block ++ (byteBits d).take k =
        out.flatMap (fun c => codeBits (s.block.code c)) ++ pendingBits t.block ∧
      (∀ c ∈ out, c ∈ s.block.dord) ∧
      (t.block.phase = .decBits → k = 8 ∧ t.block.outn < t.block.origlen) ∧
      (t.block.phase = .decDone → t.block.outn = t.block.origlen ∧ t.block.accbits = 0 ∧ t.block.acclen = 0 ∧
        ∀ d' : Byte, (byteBits d').take k = (byteBits d).take k → exec (.dec d') s = .next t)

/-- R135 and R138: as long as `MAXLEN` leaves room for eight more bits no byte can raise `CorruptStream`, so `DEC` goes on
in `DEC_BITS` or reaches `DEC_DONE`. -/
def Obligations.DecBitsCompletes : Prop :=
  ∀ (d : Byte) (s : State), s.block.phase = .decBits → s.block.acclen + 8 ≤ s.block.maxlen →
    ∃ t, exec (.dec d) s = .next t ∧ (t.block.phase = .decBits ∨ t.block.phase = .decDone)

/-- R138: the bit that makes the accumulated length exceed `MAXLEN` without a match raises `CorruptStream`. -/
def Obligations.CorruptStreamOnTooManyBits : Prop :=
  ∀ (d : Byte) (s : State), s.block.phase = .decBits → s.block.acclen = s.block.maxlen →
    (∀ c, ¬ ((s.block.code c).len = s.block.acclen + 1 ∧
      (s.block.code c).bits.toNat = 2 * s.block.accbits.toNat + (d.getLsbD 7).toNat)) →
    exec (.dec d) s = .next (s.afterFault (encode (.dec d)) 0x06)

/-- R138: with a prefix-free table whose Kraft sum is 1 the bit stage cannot raise `CorruptStream`: every byte is decoded. -/
def Obligations.CompleteTablesNeverCorrupt : Prop :=
  ∀ (d : Byte) (s : State), Inv s.block → s.block.phase = .decBits → PrefixFree s.block → kraftSum s.block = 2 ^ 64 →
    (∀ c, (s.block.code c).bits.toNat < 2 ^ (s.block.code c).len) →
    ∃ t, exec (.dec d) s = .next t ∧ (t.block.phase = .decBits ∨ t.block.phase = .decDone)

/-- R139: `DEC` in `DEC_DONE` discards the byte: nothing changes, nothing is put out, the answer is `OK`. -/
def Obligations.DecDoneDiscardsTheByte : Prop :=
  ∀ (d : Byte) (s : State), s.block.phase = .decDone → exec (.dec d) s = .next (s.answered s.block [] 0x00)

/-- R140: `DECEND` answers `OK` in `DEC_DONE` and changes nothing; a file that ends earlier is a `FormatError` or a
`CorruptStream`. -/
def Obligations.DecendJudgesTheEnd : Prop :=
  ∀ s : State,
    (s.block.phase = .decDone → exec .decend s = .next (s.answered s.block [] 0x00)) ∧
    (s.block.phase = .decHdr ∨ s.block.phase = .decDict → exec .decend s = .next (s.afterFault 0xC000 0x07)) ∧
    (s.block.phase = .decBits → exec .decend s = .next (s.afterFault 0xC000 0x06)) ∧
    (s.block.phase ∉ [Phase.decHdr, .decDict, .decBits, .decDone, .fault] →
      exec .decend s = .next (s.afterFault 0xC000 0x0A))

/-- R145: each decoded byte counts once in `OUTN`, and `OUTN` never passes `ORIGLEN`. -/
def Obligations.NoMoreThanOriglenBytes : Prop :=
  ∀ (s t : State), Inv s.block → step s = .next t → s.block.phase ∈ [Phase.decHdr, .decDict, .decBits, .decDone] →
    t.block.phase ∈ [Phase.decDict, .decBits, .decDone] →
    (wireBytes t.wire).length + s.block.outn = (wireBytes s.wire).length + t.block.outn ∧
    t.block.outn ≤ t.block.origlen ∧ (t.block.phase = .decDone → t.block.outn = t.block.origlen)

/-! ## Invariants of 10_state.md -/

/-- The invariants hold right after reset. -/
def Obligations.InvariantAtReset : Prop := Inv State.reset.block

/-- The invariants of 10_state.md R12 to R32 are kept by every step, from every state that meets them. -/
def Obligations.InvariantKeptByEveryStep : Prop := ∀ s t : State, Inv s.block → step s = .next t → Inv t.block

/-- R12: `TOTAL` stays the sum of the counts and within 64 bits. -/
def Obligations.TotalStaysTheSumOfCounts : Prop :=
  ∀ s t : State, CountInv s.block → step s = .next t → CountInv t.block

/-- R31 and R32: `ERR` is nonzero exactly in `FAULT` and never 0x00, 0x01 or 0x0C there; `ERRCMD` and `ERRPHASE` are 0
elsewhere. -/
def Obligations.ErrorRegistersInvariant : Prop :=
  ∀ s t : State, ErrInv s.block → step s = .next t → ErrInv t.block

/-- 00_scope.md R7: no command leaves the machine stuck; from every state that meets the invariants every step answers a
next state (log entry 4). -/
def Obligations.EveryStepIsAnswered : Prop := ∀ s : State, Inv s.block → Running (step s)

/-- R166: `AllocationFailure`, `TableOverflow` and a `DegenerateCodeError` of `GEN` cannot be raised. -/
def Obligations.UnreachableFaultsAreDead : Prop :=
  ∀ (i : Instr) (s t : State), Inv s.block → exec i s = .next t → s.block.phase ≠ .fault → t.block.phase = .fault →
    t.block.err ≠ 0x03 ∧ t.block.err ≠ 0x04 ∧ (i = .gen → t.block.err ≠ 0x05)

/-! ## Whole runs (45_decode.md R144) -/

/-- The image `HEAD` puts out is read back by `DEC` as the same table: 20_memory.md R42 to R46, 44_encode.md R115,
45_decode.md R132 to R134. -/
def Obligations.DictionaryReadsBack : Prop :=
  ∀ (s t : State), Inv s.block → s.block.phase = .coded → exec .head s = .next t →
    ∃ (file : List Byte) (u : State), wireBytes t.wire = wireBytes s.wire ++ file ∧
      runFromReset (Instr.decst :: file.map Instr.dec) = .next u ∧
      u.block.ct = s.block.ct ∧ u.block.dord = s.block.dord ∧ u.block.origlen = s.block.total ∧
      u.block.dictsz = 16 * s.block.dord.length ∧
      u.block.phase = if s.block.total ≠ 0 then .decBits else .decDone

/-- R144: for every input of fewer than 2^64 bytes whose tree has no Internal node at depth 64, the encode run succeeds and
decoding its file gives the input back. -/
def Obligations.DecodeInvertsEncode : Prop :=
  ∀ bs : List Byte, bs.length < 2 ^ 64 →
    (∀ s e, runFromReset (bs.map Instr.freq ++ [Instr.build]) = .next s → e ∈ s.block.pq →
      ¬ tooDeep s.block.node e.node) →
    ∃ (t u : State) (file : List Byte),
      runFromReset (encodeCommands bs) = .next t ∧ runResult t.wire = some file ∧
      (∀ c ∈ wireResponses t.wire, c = 0x00 ∨ (bs = [] ∧ c = 0x01)) ∧
      runFromReset (decodeCommands file) = .next u ∧ runResult u.wire = some bs ∧
      (∀ c ∈ wireResponses u.wire, c = 0x00)
end

