-- ==== Sys2Proof/Laws/State.lean ====
section
/-! SUPPORT. One lemma per field per named update of the state, each true by rfl, so that no proof unfolds a record update. -/

namespace Sys2Proof.Machine

/-! ## Fault entry -/

@[simp] theorem Block.enterFault_freq (b : Block) (w : Word16) (k : FaultKind) :
    (b.enterFault w k).freq = b.freq := rfl

@[simp] theorem Block.enterFault_total (b : Block) (w : Word16) (k : FaultKind) :
    (b.enterFault w k).total = b.total := rfl

@[simp] theorem Block.enterFault_node (b : Block) (w : Word16) (k : FaultKind) :
    (b.enterFault w k).node = b.node := rfl

@[simp] theorem Block.enterFault_pq (b : Block) (w : Word16) (k : FaultKind) :
    (b.enterFault w k).pq = b.pq := rfl

@[simp] theorem Block.enterFault_seq (b : Block) (w : Word16) (k : FaultKind) :
    (b.enterFault w k).seq = b.seq := rfl

@[simp] theorem Block.enterFault_ct (b : Block) (w : Word16) (k : FaultKind) :
    (b.enterFault w k).ct = b.ct := rfl

@[simp] theorem Block.enterFault_dord (b : Block) (w : Word16) (k : FaultKind) :
    (b.enterFault w k).dord = b.dord := rfl

@[simp] theorem Block.enterFault_pkbuf (b : Block) (w : Word16) (k : FaultKind) :
    (b.enterFault w k).pkbuf = b.pkbuf := rfl

@[simp] theorem Block.enterFault_pkcnt (b : Block) (w : Word16) (k : FaultKind) :
    (b.enterFault w k).pkcnt = b.pkcnt := rfl

@[simp] theorem Block.enterFault_encn (b : Block) (w : Word16) (k : FaultKind) :
    (b.enterFault w k).encn = b.encn := rfl

@[simp] theorem Block.enterFault_stage (b : Block) (w : Word16) (k : FaultKind) :
    (b.enterFault w k).stage = b.stage := rfl

@[simp] theorem Block.enterFault_spos (b : Block) (w : Word16) (k : FaultKind) :
    (b.enterFault w k).spos = b.spos := rfl

@[simp] theorem Block.enterFault_origlen (b : Block) (w : Word16) (k : FaultKind) :
    (b.enterFault w k).origlen = b.origlen := rfl

@[simp] theorem Block.enterFault_dictsz (b : Block) (w : Word16) (k : FaultKind) :
    (b.enterFault w k).dictsz = b.dictsz := rfl

@[simp] theorem Block.enterFault_maxlen (b : Block) (w : Word16) (k : FaultKind) :
    (b.enterFault w k).maxlen = b.maxlen := rfl

@[simp] theorem Block.enterFault_accbits (b : Block) (w : Word16) (k : FaultKind) :
    (b.enterFault w k).accbits = b.accbits := rfl

@[simp] theorem Block.enterFault_acclen (b : Block) (w : Word16) (k : FaultKind) :
    (b.enterFault w k).acclen = b.acclen := rfl

@[simp] theorem Block.enterFault_outn (b : Block) (w : Word16) (k : FaultKind) :
    (b.enterFault w k).outn = b.outn := rfl

@[simp] theorem Block.enterFault_phase (b : Block) (w : Word16) (k : FaultKind) :
    (b.enterFault w k).phase = .fault := rfl

@[simp] theorem Block.enterFault_err (b : Block) (w : Word16) (k : FaultKind) :
    (b.enterFault w k).err = k.code := rfl

@[simp] theorem Block.enterFault_errcmd (b : Block) (w : Word16) (k : FaultKind) :
    (b.enterFault w k).errcmd = w := rfl

@[simp] theorem Block.enterFault_errphase (b : Block) (w : Word16) (k : FaultKind) :
    (b.enterFault w k).errphase = b.phase := rfl

/-! ## Table writes -/

@[simp] theorem Block.setCount_freq (b : Block) (c : Byte) (v : Nat) :
    (b.setCount c v).freq = b.freq.set (charIndex c) v := rfl

@[simp] theorem Block.setCount_total (b : Block) (c : Byte) (v : Nat) :
    (b.setCount c v).total = b.total := rfl

@[simp] theorem Block.setCount_node (b : Block) (c : Byte) (v : Nat) :
    (b.setCount c v).node = b.node := rfl

@[simp] theorem Block.setCount_pq (b : Block) (c : Byte) (v : Nat) :
    (b.setCount c v).pq = b.pq := rfl

@[simp] theorem Block.setCount_seq (b : Block) (c : Byte) (v : Nat) :
    (b.setCount c v).seq = b.seq := rfl

@[simp] theorem Block.setCount_ct (b : Block) (c : Byte) (v : Nat) :
    (b.setCount c v).ct = b.ct := rfl

@[simp] theorem Block.setCount_dord (b : Block) (c : Byte) (v : Nat) :
    (b.setCount c v).dord = b.dord := rfl

@[simp] theorem Block.setCount_pkbuf (b : Block) (c : Byte) (v : Nat) :
    (b.setCount c v).pkbuf = b.pkbuf := rfl

@[simp] theorem Block.setCount_pkcnt (b : Block) (c : Byte) (v : Nat) :
    (b.setCount c v).pkcnt = b.pkcnt := rfl

@[simp] theorem Block.setCount_encn (b : Block) (c : Byte) (v : Nat) :
    (b.setCount c v).encn = b.encn := rfl

@[simp] theorem Block.setCount_stage (b : Block) (c : Byte) (v : Nat) :
    (b.setCount c v).stage = b.stage := rfl

@[simp] theorem Block.setCount_spos (b : Block) (c : Byte) (v : Nat) :
    (b.setCount c v).spos = b.spos := rfl

@[simp] theorem Block.setCount_origlen (b : Block) (c : Byte) (v : Nat) :
    (b.setCount c v).origlen = b.origlen := rfl

@[simp] theorem Block.setCount_dictsz (b : Block) (c : Byte) (v : Nat) :
    (b.setCount c v).dictsz = b.dictsz := rfl

@[simp] theorem Block.setCount_maxlen (b : Block) (c : Byte) (v : Nat) :
    (b.setCount c v).maxlen = b.maxlen := rfl

@[simp] theorem Block.setCount_accbits (b : Block) (c : Byte) (v : Nat) :
    (b.setCount c v).accbits = b.accbits := rfl

@[simp] theorem Block.setCount_acclen (b : Block) (c : Byte) (v : Nat) :
    (b.setCount c v).acclen = b.acclen := rfl

@[simp] theorem Block.setCount_outn (b : Block) (c : Byte) (v : Nat) :
    (b.setCount c v).outn = b.outn := rfl

@[simp] theorem Block.setCount_phase (b : Block) (c : Byte) (v : Nat) :
    (b.setCount c v).phase = b.phase := rfl

@[simp] theorem Block.setCount_err (b : Block) (c : Byte) (v : Nat) :
    (b.setCount c v).err = b.err := rfl

@[simp] theorem Block.setCount_errcmd (b : Block) (c : Byte) (v : Nat) :
    (b.setCount c v).errcmd = b.errcmd := rfl

@[simp] theorem Block.setCount_errphase (b : Block) (c : Byte) (v : Nat) :
    (b.setCount c v).errphase = b.errphase := rfl

@[simp] theorem Block.setCode_freq (b : Block) (c : Byte) (v : Code) :
    (b.setCode c v).freq = b.freq := rfl

@[simp] theorem Block.setCode_total (b : Block) (c : Byte) (v : Code) :
    (b.setCode c v).total = b.total := rfl

@[simp] theorem Block.setCode_node (b : Block) (c : Byte) (v : Code) :
    (b.setCode c v).node = b.node := rfl

@[simp] theorem Block.setCode_pq (b : Block) (c : Byte) (v : Code) :
    (b.setCode c v).pq = b.pq := rfl

@[simp] theorem Block.setCode_seq (b : Block) (c : Byte) (v : Code) :
    (b.setCode c v).seq = b.seq := rfl

@[simp] theorem Block.setCode_ct (b : Block) (c : Byte) (v : Code) :
    (b.setCode c v).ct = b.ct.set (charIndex c) v := rfl

@[simp] theorem Block.setCode_dord (b : Block) (c : Byte) (v : Code) :
    (b.setCode c v).dord = b.dord := rfl

@[simp] theorem Block.setCode_pkbuf (b : Block) (c : Byte) (v : Code) :
    (b.setCode c v).pkbuf = b.pkbuf := rfl

@[simp] theorem Block.setCode_pkcnt (b : Block) (c : Byte) (v : Code) :
    (b.setCode c v).pkcnt = b.pkcnt := rfl

@[simp] theorem Block.setCode_encn (b : Block) (c : Byte) (v : Code) :
    (b.setCode c v).encn = b.encn := rfl

@[simp] theorem Block.setCode_stage (b : Block) (c : Byte) (v : Code) :
    (b.setCode c v).stage = b.stage := rfl

@[simp] theorem Block.setCode_spos (b : Block) (c : Byte) (v : Code) :
    (b.setCode c v).spos = b.spos := rfl

@[simp] theorem Block.setCode_origlen (b : Block) (c : Byte) (v : Code) :
    (b.setCode c v).origlen = b.origlen := rfl

@[simp] theorem Block.setCode_dictsz (b : Block) (c : Byte) (v : Code) :
    (b.setCode c v).dictsz = b.dictsz := rfl

@[simp] theorem Block.setCode_maxlen (b : Block) (c : Byte) (v : Code) :
    (b.setCode c v).maxlen = b.maxlen := rfl

@[simp] theorem Block.setCode_accbits (b : Block) (c : Byte) (v : Code) :
    (b.setCode c v).accbits = b.accbits := rfl

@[simp] theorem Block.setCode_acclen (b : Block) (c : Byte) (v : Code) :
    (b.setCode c v).acclen = b.acclen := rfl

@[simp] theorem Block.setCode_outn (b : Block) (c : Byte) (v : Code) :
    (b.setCode c v).outn = b.outn := rfl

@[simp] theorem Block.setCode_phase (b : Block) (c : Byte) (v : Code) :
    (b.setCode c v).phase = b.phase := rfl

@[simp] theorem Block.setCode_err (b : Block) (c : Byte) (v : Code) :
    (b.setCode c v).err = b.err := rfl

@[simp] theorem Block.setCode_errcmd (b : Block) (c : Byte) (v : Code) :
    (b.setCode c v).errcmd = b.errcmd := rfl

@[simp] theorem Block.setCode_errphase (b : Block) (c : Byte) (v : Code) :
    (b.setCode c v).errphase = b.errphase := rfl

@[simp] theorem Block.stageByte_freq (b : Block) (d : Byte) :
    (b.stageByte d).freq = b.freq := rfl

@[simp] theorem Block.stageByte_total (b : Block) (d : Byte) :
    (b.stageByte d).total = b.total := rfl

@[simp] theorem Block.stageByte_node (b : Block) (d : Byte) :
    (b.stageByte d).node = b.node := rfl

@[simp] theorem Block.stageByte_pq (b : Block) (d : Byte) :
    (b.stageByte d).pq = b.pq := rfl

@[simp] theorem Block.stageByte_seq (b : Block) (d : Byte) :
    (b.stageByte d).seq = b.seq := rfl

@[simp] theorem Block.stageByte_ct (b : Block) (d : Byte) :
    (b.stageByte d).ct = b.ct := rfl

@[simp] theorem Block.stageByte_dord (b : Block) (d : Byte) :
    (b.stageByte d).dord = b.dord := rfl

@[simp] theorem Block.stageByte_pkbuf (b : Block) (d : Byte) :
    (b.stageByte d).pkbuf = b.pkbuf := rfl

@[simp] theorem Block.stageByte_pkcnt (b : Block) (d : Byte) :
    (b.stageByte d).pkcnt = b.pkcnt := rfl

@[simp] theorem Block.stageByte_encn (b : Block) (d : Byte) :
    (b.stageByte d).encn = b.encn := rfl

@[simp] theorem Block.stageByte_stage (b : Block) (d : Byte) :
    (b.stageByte d).stage = b.stage.set b.spos d := rfl

@[simp] theorem Block.stageByte_spos (b : Block) (d : Byte) :
    (b.stageByte d).spos = b.spos := rfl

@[simp] theorem Block.stageByte_origlen (b : Block) (d : Byte) :
    (b.stageByte d).origlen = b.origlen := rfl

@[simp] theorem Block.stageByte_dictsz (b : Block) (d : Byte) :
    (b.stageByte d).dictsz = b.dictsz := rfl

@[simp] theorem Block.stageByte_maxlen (b : Block) (d : Byte) :
    (b.stageByte d).maxlen = b.maxlen := rfl

@[simp] theorem Block.stageByte_accbits (b : Block) (d : Byte) :
    (b.stageByte d).accbits = b.accbits := rfl

@[simp] theorem Block.stageByte_acclen (b : Block) (d : Byte) :
    (b.stageByte d).acclen = b.acclen := rfl

@[simp] theorem Block.stageByte_outn (b : Block) (d : Byte) :
    (b.stageByte d).outn = b.outn := rfl

@[simp] theorem Block.stageByte_phase (b : Block) (d : Byte) :
    (b.stageByte d).phase = b.phase := rfl

@[simp] theorem Block.stageByte_err (b : Block) (d : Byte) :
    (b.stageByte d).err = b.err := rfl

@[simp] theorem Block.stageByte_errcmd (b : Block) (d : Byte) :
    (b.stageByte d).errcmd = b.errcmd := rfl

@[simp] theorem Block.stageByte_errphase (b : Block) (d : Byte) :
    (b.stageByte d).errphase = b.errphase := rfl

/-! ## Freeing the tree -/

@[simp] theorem Block.freeTree_freq (b : Block) :
    (b.freeTree).freq = b.freq := rfl

@[simp] theorem Block.freeTree_total (b : Block) :
    (b.freeTree).total = b.total := rfl

@[simp] theorem Block.freeTree_node (b : Block) :
    (b.freeTree).node = [] := rfl

@[simp] theorem Block.freeTree_pq (b : Block) :
    (b.freeTree).pq = [] := rfl

@[simp] theorem Block.freeTree_seq (b : Block) :
    (b.freeTree).seq = b.seq := rfl

@[simp] theorem Block.freeTree_ct (b : Block) :
    (b.freeTree).ct = b.ct := rfl

@[simp] theorem Block.freeTree_dord (b : Block) :
    (b.freeTree).dord = b.dord := rfl

@[simp] theorem Block.freeTree_pkbuf (b : Block) :
    (b.freeTree).pkbuf = b.pkbuf := rfl

@[simp] theorem Block.freeTree_pkcnt (b : Block) :
    (b.freeTree).pkcnt = b.pkcnt := rfl

@[simp] theorem Block.freeTree_encn (b : Block) :
    (b.freeTree).encn = b.encn := rfl

@[simp] theorem Block.freeTree_stage (b : Block) :
    (b.freeTree).stage = b.stage := rfl

@[simp] theorem Block.freeTree_spos (b : Block) :
    (b.freeTree).spos = b.spos := rfl

@[simp] theorem Block.freeTree_origlen (b : Block) :
    (b.freeTree).origlen = b.origlen := rfl

@[simp] theorem Block.freeTree_dictsz (b : Block) :
    (b.freeTree).dictsz = b.dictsz := rfl

@[simp] theorem Block.freeTree_maxlen (b : Block) :
    (b.freeTree).maxlen = b.maxlen := rfl

@[simp] theorem Block.freeTree_accbits (b : Block) :
    (b.freeTree).accbits = b.accbits := rfl

@[simp] theorem Block.freeTree_acclen (b : Block) :
    (b.freeTree).acclen = b.acclen := rfl

@[simp] theorem Block.freeTree_outn (b : Block) :
    (b.freeTree).outn = b.outn := rfl

@[simp] theorem Block.freeTree_phase (b : Block) :
    (b.freeTree).phase = b.phase := rfl

@[simp] theorem Block.freeTree_err (b : Block) :
    (b.freeTree).err = b.err := rfl

@[simp] theorem Block.freeTree_errcmd (b : Block) :
    (b.freeTree).errcmd = b.errcmd := rfl

@[simp] theorem Block.freeTree_errphase (b : Block) :
    (b.freeTree).errphase = b.errphase := rfl

/-! ## Ends of a command -/

@[simp] theorem Block.done_block (b : Block) : b.done.block = b := rfl
@[simp] theorem Block.done_out (b : Block) : b.done.out = [] := rfl
@[simp] theorem Block.done_rsp (b : Block) : b.done.rsp = .ok := rfl
@[simp] theorem Block.cleared_eq (b : Block) : b.cleared = Block.reset := rfl

@[simp] theorem State.respond_block (s : State) (b : Block) (out : List Byte) (r : Rsp) :
    (s.respond b out r).block = b := rfl

@[simp] theorem State.respond_port (s : State) (b : Block) (out : List Byte) (r : Rsp) :
    (s.respond b out r).port = s.port := rfl

@[simp] theorem State.respond_wire (s : State) (b : Block) (out : List Byte) (r : Rsp) :
    (s.respond b out r).wire = s.wire ++ out.map .byte ++ [.response r.code] := rfl

@[simp] theorem State.takeFault_block (s : State) (w : Word16) (k : FaultKind) :
    (s.takeFault w k).block = s.block.enterFault w k := rfl

@[simp] theorem State.takeFault_port (s : State) (w : Word16) (k : FaultKind) :
    (s.takeFault w k).port = s.port := rfl

@[simp] theorem State.answerFaulted_block (s : State) : s.answerFaulted.block = s.block := rfl

@[simp] theorem State.answerFaulted_port (s : State) : s.answerFaulted.port = s.port := rfl

@[simp] theorem State.hostReset_block (s : State) : s.hostReset.block = Block.reset := rfl
@[simp] theorem State.hostReset_port (s : State) : s.hostReset.port = s.port := rfl
@[simp] theorem State.hostReset_wire (s : State) : s.hostReset.wire = s.wire := rfl

@[simp] theorem State.present_block (s : State) (w : Word16) : (s.present w).block = s.block := rfl
@[simp] theorem State.present_wire (s : State) (w : Word16) : (s.present w).wire = s.wire := rfl

@[simp] theorem State.present_port (s : State) (w : Word16) : (s.present w).port = .command w :: s.port := rfl

end Sys2Proof.Machine
end

