-- ==== Sys2Proof/Laws/Ops.lean ====
section
/-! SUPPORT. What the shared operations do, said once: the ends of a command in the claims' vocabulary, the common command
procedure, and one step. Later proofs cite these and do not unfold the operations. -/

namespace Sys2Proof.Machine

/-! ## Ends of a command in the vocabulary of Sys2Proof/Safety.lean -/

theorem respond_eq_answered (s : State) (b : Block) (out : List Byte) (r : Rsp) :
    s.respond b out r = s.answered b out r.code := rfl

theorem takeFault_eq_afterFault (s : State) (w : Word16) (k : FaultKind) :
    s.takeFault w k = s.afterFault w k.code := rfl

theorem answerFaulted_eq_answered (s : State) : s.answerFaulted = s.answered s.block [] 0x0C := rfl

@[simp] theorem State.answered_block (s : State) (b : Block) (out : List Byte) (c : Byte) :
    (s.answered b out c).block = b := rfl

@[simp] theorem State.answered_port (s : State) (b : Block) (out : List Byte) (c : Byte) :
    (s.answered b out c).port = s.port := rfl

@[simp] theorem State.answered_wire (s : State) (b : Block) (out : List Byte) (c : Byte) :
    (s.answered b out c).wire = s.wire ++ out.map PortEvent.byte ++ [PortEvent.response c] := rfl

@[simp] theorem State.afterFault_block (s : State) (w : Word16) (c : Byte) :
    (s.afterFault w c).block =
      { s.block with phase := Phase.fault, err := c, errcmd := w, errphase := s.block.phase } := rfl

@[simp] theorem State.afterFault_port (s : State) (w : Word16) (c : Byte) : (s.afterFault w c).port = s.port := rfl

@[simp] theorem State.afterFault_wire (s : State) (w : Word16) (c : Byte) :
    (s.afterFault w c).wire = s.wire ++ [PortEvent.response c] := by simp [State.afterFault]

@[simp] theorem State.taken_block (s : State) (e : HostEvent) (rest : List HostEvent) :
    (s.taken e rest).block = s.block := rfl

@[simp] theorem State.taken_port (s : State) (e : HostEvent) (rest : List HostEvent) :
    (s.taken e rest).port = rest := rfl

@[simp] theorem State.taken_wire (s : State) (e : HostEvent) (rest : List HostEvent) :
    (s.taken e rest).wire = s.wire ++ [PortEvent.took e] := rfl

/-! ## The common command procedure (40_control.md R84) -/

theorem legalPhases_iff (i : Instr) (p : Phase) (hp : p ≠ .fault) : p ∈ legalPhases i ↔ mayExecute i p := by
  cases i <;> cases p <;> simp_all [legalPhases, mayExecute]

theorem runCommand_fault {i : Instr} {rule : Block → Except Abort Done} {s : State} (h : s.block.phase = .fault) :
    runCommand i rule s = .next s.answerFaulted := by simp [runCommand, h]

theorem runCommand_wrongPhase {i : Instr} {rule : Block → Except Abort Done} {s : State} (hf : s.block.phase ≠ .fault)
    (h : s.block.phase ∉ legalPhases i) : runCommand i rule s = .next (s.takeFault (encode i) .protocolError) := by
  simp [runCommand, hf, h]

theorem runCommand_ok {i : Instr} {rule : Block → Except Abort Done} {s : State} {r : Done}
    (hf : s.block.phase ≠ .fault) (h : s.block.phase ∈ legalPhases i) (hr : rule s.block = .ok r) :
    runCommand i rule s = .next (s.respond r.block r.out r.rsp) := by
  simp [runCommand, hf, h, hr]

theorem runCommand_raise {i : Instr} {rule : Block → Except Abort Done} {s : State} {k : FaultKind}
    (hf : s.block.phase ≠ .fault) (h : s.block.phase ∈ legalPhases i) (hr : rule s.block = .error (.raise k)) :
    runCommand i rule s = .next (s.takeFault (encode i) k) := by
  simp [runCommand, hf, h, hr]

/-- Everything the common procedure can do when it answers a next state. -/
theorem runCommand_cases {i : Instr} {rule : Block → Except Abort Done} {s t : State}
    (h : runCommand i rule s = .next t) :
    (s.block.phase = .fault ∧ t = s.answerFaulted) ∨
    (s.block.phase ≠ .fault ∧ s.block.phase ∉ legalPhases i ∧ t = s.takeFault (encode i) .protocolError) ∨
    (s.block.phase ≠ .fault ∧ s.block.phase ∈ legalPhases i ∧
      ∃ k, rule s.block = .error (.raise k) ∧ t = s.takeFault (encode i) k) ∨
    (s.block.phase ≠ .fault ∧ s.block.phase ∈ legalPhases i ∧
      ∃ r, rule s.block = .ok r ∧ t = s.respond r.block r.out r.rsp) := by
  unfold runCommand at h
  split at h
  · exact .inl ⟨‹_›, by cases h; rfl⟩
  · rename_i hf
    split at h
    · rename_i hl
      split at h
      · exact .inr (.inr (.inr ⟨hf, hl, _, ‹_›, by cases h; rfl⟩))
      · exact .inr (.inr (.inl ⟨hf, hl, _, ‹_›, by cases h; rfl⟩))
      · cases h
    · exact .inr (.inl ⟨hf, ‹_›, by cases h; rfl⟩)

/-- The common procedure answers a next state unless the rule itself stops the machine. -/
theorem runCommand_running {i : Instr} {rule : Block → Except Abort Done} {s : State}
    (h : ∀ f, rule s.block ≠ .error (.stop f)) : Running (runCommand i rule s) := by
  unfold runCommand Running
  split
  · exact ⟨_, rfl⟩
  · split
    · split
      · exact ⟨_, rfl⟩
      · exact ⟨_, rfl⟩
      · exact absurd ‹_› (h _)
    · exact ⟨_, rfl⟩

/-! ## exec over the commands' own rules -/

/-- The own rule of a command; `NOP` and `CLR` have none behind the common procedure. -/
def ruleOf : Instr → Block → Except Abort Done
  | .nop => fun b => .ok b.done
  | .clr => fun b => .ok b.cleared.done
  | .freq d => freqRule d
  | .seed => seedRule
  | .merge => mergeRule
  | .build => buildRule
  | .gen => genRule
  | .head => headRule
  | .enc d => encRule d
  | .encend => encendRule
  | .decst => decstRule
  | .dec d => decRule d
  | .decend => decendRule

theorem exec_eq_runCommand {i : Instr} (hn : i ≠ .nop) (hc : i ≠ .clr) (s : State) :
    exec i s = runCommand i (ruleOf i) s := by
  cases i <;> first | rfl | exact absurd rfl hn | exact absurd rfl hc

@[simp] theorem exec_nop (s : State) : exec .nop s = .next (s.answered s.block [] 0x00) := rfl
@[simp] theorem exec_clr (s : State) : exec .clr s = .next (s.answered Block.reset [] 0x00) := rfl

/-- Everything a command can do when it answers a next state: `NOP`, `CLR`, an answer in `FAULT`, a wrong phase, a fault of
its own rule, or its own effect. -/
theorem exec_cases {i : Instr} {s t : State} (h : exec i s = .next t) :
    (i = .nop ∧ t = s.answered s.block [] 0x00) ∨
    (i = .clr ∧ t = s.answered Block.reset [] 0x00) ∨
    (i ≠ .nop ∧ i ≠ .clr ∧ s.block.phase = .fault ∧ t = s.answered s.block [] 0x0C) ∨
    (i ≠ .nop ∧ i ≠ .clr ∧ s.block.phase ≠ .fault ∧ ¬ mayExecute i s.block.phase ∧ t = s.afterFault (encode i) 0x0A) ∨
    (i ≠ .nop ∧ i ≠ .clr ∧ s.block.phase ≠ .fault ∧ mayExecute i s.block.phase ∧
      ∃ k, ruleOf i s.block = .error (.raise k) ∧ t = s.afterFault (encode i) k.code) ∨
    (i ≠ .nop ∧ i ≠ .clr ∧ s.block.phase ≠ .fault ∧ mayExecute i s.block.phase ∧
      ∃ r, ruleOf i s.block = .ok r ∧ t = s.answered r.block r.out r.rsp.code) := by
  by_cases hn : i = .nop
  · subst hn; simp at h; exact .inl ⟨rfl, h.symm⟩
  by_cases hc : i = .clr
  · subst hc; simp at h; exact .inr (.inl ⟨rfl, h.symm⟩)
  rw [exec_eq_runCommand hn hc] at h
  rcases runCommand_cases h with ⟨hf, ht⟩ | ⟨hf, hl, ht⟩ | ⟨hf, hl, k, hk, ht⟩ | ⟨hf, hl, r, hr, ht⟩
  · exact .inr (.inr (.inl ⟨hn, hc, hf, ht⟩))
  · rw [legalPhases_iff _ _ hf] at hl
    exact .inr (.inr (.inr (.inl ⟨hn, hc, hf, hl, ht⟩)))
  · rw [legalPhases_iff _ _ hf] at hl
    exact .inr (.inr (.inr (.inr (.inl ⟨hn, hc, hf, hl, k, hk, ht⟩))))
  · rw [legalPhases_iff _ _ hf] at hl
    exact .inr (.inr (.inr (.inr (.inr ⟨hn, hc, hf, hl, r, hr, ht⟩))))

/-- A command in one of its phases whose rule completes. -/
theorem exec_ok {i : Instr} {s : State} {r : Done} (hn : i ≠ .nop) (hc : i ≠ .clr) (hf : s.block.phase ≠ .fault)
    (hm : mayExecute i s.block.phase) (hr : ruleOf i s.block = .ok r) :
    exec i s = .next (s.answered r.block r.out r.rsp.code) := by
  rw [exec_eq_runCommand hn hc]
  exact runCommand_ok hf ((legalPhases_iff _ _ hf).mpr hm) hr

/-- A command in one of its phases whose rule raises a fault. -/
theorem exec_raise {i : Instr} {s : State} {k : FaultKind} (hn : i ≠ .nop) (hc : i ≠ .clr) (hf : s.block.phase ≠ .fault)
    (hm : mayExecute i s.block.phase) (hr : ruleOf i s.block = .error (.raise k)) :
    exec i s = .next (s.afterFault (encode i) k.code) := by
  rw [exec_eq_runCommand hn hc]
  exact runCommand_raise hf ((legalPhases_iff _ _ hf).mpr hm) hr

/-- A command outside its phases. -/
theorem exec_wrongPhase {i : Instr} {s : State} (hn : i ≠ .nop) (hc : i ≠ .clr) (hf : s.block.phase ≠ .fault)
    (hm : ¬ mayExecute i s.block.phase) : exec i s = .next (s.afterFault (encode i) 0x0A) := by
  rw [exec_eq_runCommand hn hc]
  exact runCommand_wrongPhase hf (fun hl => hm ((legalPhases_iff _ _ hf).mp hl))

/-- A command in `FAULT` (60_exceptions.md R157). -/
theorem exec_faulted {i : Instr} {s : State} (hn : i ≠ .nop) (hc : i ≠ .clr) (hf : s.block.phase = .fault) :
    exec i s = .next (s.answered s.block [] 0x0C) := by
  rw [exec_eq_runCommand hn hc]
  exact runCommand_fault hf

/-! ## One step -/

theorem step_idle {s : State} (h : s.port = []) : step s = .next s := by
  simp [step, runStep, State.takeEvent, h]

theorem step_reset {s : State} {rest : List HostEvent} (h : s.port = .reset :: rest) :
    step s = .next { block := Block.reset, port := rest, wire := s.wire ++ [.took .reset] } := by
  simp [step, runStep, State.takeEvent, h, runEvent, State.hostReset]

theorem step_command {s : State} {w : Word16} {rest : List HostEvent} (h : s.port = .command w :: rest) :
    step s = runWord w (s.taken (.command w) rest) := by
  simp [step, runStep, State.takeEvent, h, runEvent, State.taken]

/-- Everything one step can do when it answers a next state. -/
theorem step_cases {s t : State} (h : step s = .next t) :
    (s.port = [] ∧ t = s) ∨
    (∃ rest, s.port = .reset :: rest ∧ t = { block := Block.reset, port := rest, wire := s.wire ++ [.took .reset] }) ∨
    (∃ w rest, s.port = .command w :: rest ∧
      ((s.block.phase = .fault ∧ w ≠ 0x0000 ∧ w ≠ 0x1000 ∧
          t = (s.taken (.command w) rest).answered s.block [] 0x0C) ∨
       (s.block.phase ≠ .fault ∧ (∃ e, decode w = .error e) ∧ t = (s.taken (.command w) rest).afterFault w 0x0B) ∨
       (∃ i, decode w = .ok i ∧ exec i (s.taken (.command w) rest) = .next t))) := by
  cases hp : s.port with
  | nil => rw [step_idle hp] at h; cases h; exact .inl ⟨rfl, rfl⟩
  | cons e rest =>
    cases e with
    | reset => rw [step_reset hp] at h; cases h; exact .inr (.inl ⟨rest, rfl, rfl⟩)
    | command w =>
      refine .inr (.inr ⟨w, rest, rfl, ?_⟩)
      rw [step_command hp, runWord] at h
      split at h
      · rename_i ha
        obtain ⟨hf, h0, h1⟩ := of_decide_eq_true ha
        cases h
        exact .inl ⟨hf, h0, h1, rfl⟩
      · rename_i ha
        split at h
        · rename_i e hd
          cases h
          refine .inr (.inl ⟨fun hf => ha (decide_eq_true ⟨hf, ?_, ?_⟩), ⟨e, hd⟩, rfl⟩)
          · rintro rfl
            have h0 : decode 0x0000 = .ok .nop := by decide
            exact absurd (h0.symm.trans hd) (by simp)
          · rintro rfl
            have h1 : decode 0x1000 = .ok .clr := by decide
            exact absurd (h1.symm.trans hd) (by simp)
        · exact .inr (.inr ⟨_, ‹_›, h⟩)

/-! ## Transcripts and runs -/

@[simp] theorem wireBytes_nil : wireBytes [] = [] := rfl
@[simp] theorem wireBytes_byte (b : Byte) (w : List PortEvent) : wireBytes (.byte b :: w) = b :: wireBytes w := rfl
@[simp] theorem wireBytes_took (e : HostEvent) (w : List PortEvent) : wireBytes (.took e :: w) = wireBytes w := rfl
@[simp] theorem wireBytes_response (c : Byte) (w : List PortEvent) : wireBytes (.response c :: w) = wireBytes w := rfl

@[simp] theorem wireBytes_append (v w : List PortEvent) : wireBytes (v ++ w) = wireBytes v ++ wireBytes w := by
  simp only [wireBytes, List.filterMap_append]

@[simp] theorem wireBytes_bytes (bs : List Byte) : wireBytes (bs.map PortEvent.byte) = bs := by
  induction bs with
  | nil => rfl
  | cons b bs ih => exact congrArg (b :: ·) ih

@[simp] theorem wireResponses_nil : wireResponses [] = [] := rfl
@[simp] theorem wireResponses_byte (b : Byte) (w : List PortEvent) : wireResponses (.byte b :: w) = wireResponses w := rfl
@[simp] theorem wireResponses_took (e : HostEvent) (w : List PortEvent) :
    wireResponses (.took e :: w) = wireResponses w := rfl
@[simp] theorem wireResponses_response (c : Byte) (w : List PortEvent) :
    wireResponses (.response c :: w) = c :: wireResponses w := rfl

@[simp] theorem wireResponses_append (v w : List PortEvent) :
    wireResponses (v ++ w) = wireResponses v ++ wireResponses w := by
  simp only [wireResponses, List.filterMap_append]

@[simp] theorem wireResponses_bytes (bs : List Byte) : wireResponses (bs.map PortEvent.byte) = [] := by
  induction bs with
  | nil => rfl
  | cons b bs ih => exact ih

/-- A run begins with its first step. -/
theorem run_succ_of_step {s t : State} (n : Nat) (h : step s = .next t) :
    Sys2Proof.core.run (n + 1) s = Sys2Proof.core.run n t := by
  simp only [Host.Core.run]
  rw [show Sys2Proof.core.step s = .next t from h]

/-- A run continues where a shorter one ended. -/
theorem run_add {s t : State} (n m : Nat) (h : Sys2Proof.core.run n s = .next t) :
    Sys2Proof.core.run (n + m) s = Sys2Proof.core.run m t := by
  induction n generalizing s with
  | zero => cases h; rw [Nat.zero_add]
  | succ n ih =>
    rw [Nat.succ_add]
    simp only [Host.Core.run] at h ⊢
    split at h
    · exact ih h
    · cases h
    · cases h

end Sys2Proof.Machine
end

