-- ==== Sys2Proof/Laws/Count.lean ====
section
/-! SUPPORT. The table accessors and what the rule of FREQ can do (41_count.md). -/

namespace Sys2Proof.Machine

theorem charIndex_inj {c d : Byte} : charIndex c = charIndex d ↔ c = d :=
  ⟨fun h => BitVec.eq_of_toNat_eq (Fin.mk.inj h), fun h => by rw [h]⟩

theorem Table.get_set {α : Type} {n : Nat} (t : Table α n) (i j : Fin n) (v : α) :
    (t.set i v).get j = if j = i then v else t.get j := by
  simp only [Table.get, Table.set, List.getElem_set, Fin.ext_iff, eq_comm]

@[simp] theorem Table.get_replicate {α : Type} {n : Nat} (a : α) (i : Fin n) : (Table.replicate n a).get i = a := by
  simp [Table.get, Table.replicate]

@[simp] theorem Block.count_setCount (b : Block) (c d : Byte) (v : Nat) :
    (b.setCount d v).count c = if c = d then v else b.count c := by
  simp only [Block.count, Block.setCount, Table.get_set, charIndex_inj]

@[simp] theorem Block.code_setCode (b : Block) (c d : Byte) (v : Code) :
    (b.setCode d v).code c = if c = d then v else b.code c := by
  simp only [Block.code, Block.setCode, Table.get_set, charIndex_inj]

@[simp] theorem Block.count_reset (c : Byte) : Block.reset.count c = 0 := by simp [Block.count, Block.reset]

@[simp] theorem Block.code_reset (c : Byte) : Block.reset.code c = ⟨0, 0⟩ := by simp [Block.code, Block.reset]

/-- A block's counts are those of its table. -/
theorem count_congr {a b : Block} (h : a.freq = b.freq) (c : Byte) : a.count c = b.count c := by
  simp [Block.count, h]

/-- A block's codes are those of its table. -/
theorem code_congr {a b : Block} (h : a.ct = b.ct) (c : Byte) : a.code c = b.code c := by
  simp [Block.code, h]

@[simp] theorem mem_allBytes (c : Byte) : c ∈ allBytes := by
  simp only [allBytes, List.mem_map, List.mem_range]
  exact ⟨c.toNat, c.isLt, by simp⟩

theorem allBytes_length : allBytes.length = 256 := by simp [allBytes]

/-- The characters stand in ascending order (42_tree.md R93). -/
theorem allBytes_ascending : allBytes.Pairwise (fun a b => a.toNat < b.toNat) := by
  simp only [allBytes, List.pairwise_map]
  have h : (List.range 256).Pairwise (fun a b => a < b ∧ b < 256) := by
    rw [List.pairwise_iff_getElem]
    intro i j hi hj hij
    simp at hi hj ⊢
    omega
  refine h.imp ?_
  intro a b hab
  simp only [BitVec.toNat_ofNat]
  omega

theorem allBytes_nodup : allBytes.Nodup :=
  allBytes_ascending.imp (fun h heq => by simp [heq] at h)

/-- The table of the counts is the list of the counts in ascending order of characters. -/
theorem freq_entries (b : Block) : b.freq.entries = allBytes.map b.count := by
  apply List.ext_getElem
  · simp [allBytes, b.freq.size]
  · intro i h1 h2
    rw [b.freq.size] at h1
    simp [allBytes, Block.count, Table.get, charIndex, Nat.mod_eq_of_lt h1]

theorem ct_entries (b : Block) : b.ct.entries = allBytes.map b.code := by
  apply List.ext_getElem
  · simp [allBytes, b.ct.size]
  · intro i h1 h2
    rw [b.ct.size] at h1
    simp [allBytes, Block.code, Table.get, charIndex, Nat.mod_eq_of_lt h1]

theorem zip_map_self {α β : Type} (f : α → β) (l : List α) : l.zip (l.map f) = l.map (fun a => (a, f a)) := by
  induction l with
  | nil => rfl
  | cons a l ih => simp [ih]

theorem countList_eq (b : Block) : b.countList = allBytes.map (fun c => (c, b.count c)) := by
  rw [Block.countList, freq_entries, zip_map_self]

theorem codeList_eq (b : Block) : b.codeList = allBytes.map (fun c => (c, b.code c)) := by
  rw [Block.codeList, ct_entries, zip_map_self]

/-- What the rule of `FREQ` does (41_count.md R85, R86). -/
theorem freqRule_ok {d : Byte} {b : Block} {r : Done} (h : freqRule d b = .ok r) :
    b.total ≠ Config.countMax ∧
      r = { b.setCount d (b.count d + 1) with total := b.total + 1, phase := .count }.done := by
  unfold freqRule at h
  split at h
  · cases h
  · exact ⟨‹_›, by cases h; rfl⟩

theorem freqRule_error {d : Byte} {b : Block} {a : Abort} (h : freqRule d b = .error a) :
    b.total = Config.countMax ∧ a = .raise .countOverflow := by
  unfold freqRule at h
  split at h
  · exact ⟨‹_›, by cases h; rfl⟩
  · cases h

end Sys2Proof.Machine
end

