-- ==== Sys2Proof/Laws/CodeGen.lean ====
section
/-! SUPPORT. What the code generator's operations do (43_codegen.md). -/

namespace Sys2Proof.Machine

theorem nodeAt_ok {arena : List Node} {n : Nat} {x : Node} : nodeAt arena n = .ok x ↔ arena[n]? = some x := by
  unfold nodeAt
  cases arena[n]? <;> simp

theorem nodeAt_error {arena : List Node} {n : Nat} {a : Abort} (h : nodeAt arena n = .error a) :
    a = .stop .absentNode ∧ arena[n]? = none := by
  unfold nodeAt at h
  split at h
  · cases h
  · exact ⟨by cases h; rfl, ‹_›⟩

/-- Everything `record` can do when it completes (43_codegen.md R106). -/
theorem recordCode_ok {bits : Word64} {len : Nat} {ch : Byte} {b b' : Block} :
    recordCode bits len ch b = .ok b' ↔
      b.dord.length ≠ Config.tableCap ∧ len ≠ 0 ∧ b' = { b.setCode ch ⟨bits, len⟩ with dord := b.dord ++ [ch] } := by
  unfold recordCode
  split
  · simp_all
  · split
    · simp_all
    · simp_all [eq_comm]

theorem recordCode_error {bits : Word64} {len : Nat} {ch : Byte} {b : Block} {a : Abort}
    (h : recordCode bits len ch b = .error a) :
    (a = .raise .tableOverflow ∧ b.dord.length = Config.tableCap) ∨ (a = .raise .degenerateCodeError ∧ len = 0) := by
  unfold recordCode at h
  split at h
  · exact .inl ⟨by cases h; rfl, ‹_›⟩
  · split at h
    · exact .inr ⟨by cases h; rfl, ‹_›⟩
    · cases h

/-- `b'` differs from `b` in the code table and its order alone. -/
def SameButTable (b b' : Block) : Prop := b' = { b with ct := b'.ct, dord := b'.dord }

theorem SameButTable.refl (b : Block) : SameButTable b b := rfl

theorem SameButTable.trans {a b c : Block} (h1 : SameButTable a b) (h2 : SameButTable b c) : SameButTable a c := by
  unfold SameButTable at *
  rw [h1] at h2
  exact h2

theorem SameButTable.node {a b : Block} (h : SameButTable a b) : b.node = a.node := by
  unfold SameButTable at h
  rw [h]

theorem recordCode_frame {bits : Word64} {len : Nat} {ch : Byte} {b b' : Block}
    (h : recordCode bits len ch b = .ok b') : SameButTable b b' := by
  obtain ⟨_, _, rfl⟩ := recordCode_ok.mp h
  rfl

/-- `walk` on a Leaf (43_codegen.md R107, R108). -/
theorem walk_leaf {room n : Nat} {bits : Word64} {len : Nat} {b : Block} {ch : Byte} {w : Nat}
    (h : b.node[n]? = some (.leaf ch w)) :
    walk room n bits len b = if len = 0 then recordCode 0 1 ch b else recordCode bits len ch b := by
  unfold walk
  simp [nodeAt_ok.mpr h]

/-- `walk` on an Internal node at depth 64 (43_codegen.md R109). -/
theorem walk_tooLong {n : Nat} {bits : Word64} {len : Nat} {b : Block} {w l r : Nat}
    (h : b.node[n]? = some (.internal w l r)) : walk 0 n bits len b = .error (.raise .codeTooLong) := by
  unfold walk
  simp [nodeAt_ok.mpr h]

/-- `walk` on any other Internal node: left, then right (43_codegen.md R107). -/
theorem walk_internal {room n : Nat} {bits : Word64} {len : Nat} {b : Block} {w l r : Nat}
    (h : b.node[n]? = some (.internal w l r)) :
    walk (room + 1) n bits len b =
      match walk room l (bits <<< 1) (len + 1) b with
      | .error a => .error a
      | .ok b' => walk room r ((bits <<< 1) ||| 1) (len + 1) b' := by
  rw [walk]
  simp only [nodeAt_ok.mpr h]
  all_goals (cases walk room l (bits <<< 1) (len + 1) b <;> rfl)

theorem walk_absent {room n : Nat} {bits : Word64} {len : Nat} {b : Block} (h : b.node[n]? = none) :
    walk room n bits len b = .error (.stop .absentNode) := by
  unfold walk
  simp [nodeAt, h]

theorem walk_frame {room n : Nat} {bits : Word64} {len : Nat} {b b' : Block} (h : walk room n bits len b = .ok b') :
    SameButTable b b' := by
  induction room generalizing n bits len b b' with
  | zero =>
    rcases hn : b.node[n]? with _ | ⟨ch, w⟩ | ⟨w, l, r⟩
    · rw [walk_absent hn] at h; cases h
    · rw [walk_leaf hn] at h
      split at h <;> exact recordCode_frame h
    · rw [walk_tooLong hn] at h; cases h
  | succ room ih =>
    rcases hn : b.node[n]? with _ | ⟨ch, w⟩ | ⟨w, l, r⟩
    · rw [walk_absent hn] at h; cases h
    · rw [walk_leaf hn] at h
      split at h <;> exact recordCode_frame h
    · rw [walk_internal hn] at h
      split at h
      · cases h
      · exact (ih ‹_›).trans (ih h)

/-- The kinds `walk` can abort with. -/
theorem walk_error {room n : Nat} {bits : Word64} {len : Nat} {b : Block} {a : Abort}
    (h : walk room n bits len b = .error a) :
    a ∈ [Abort.raise .codeTooLong, .raise .tableOverflow, .raise .degenerateCodeError, .stop .absentNode] := by
  have hrec : ∀ {bits : Word64} {len : Nat} {ch : Byte} {b : Block}, recordCode bits len ch b = .error a →
      a ∈ [Abort.raise .codeTooLong, .raise .tableOverflow, .raise .degenerateCodeError, .stop .absentNode] := by
    intro bits len ch b h
    rcases recordCode_error h with ⟨rfl, _⟩ | ⟨rfl, _⟩ <;> simp
  induction room generalizing n bits len b with
  | zero =>
    rcases hn : b.node[n]? with _ | ⟨ch, w⟩ | ⟨w, l, r⟩
    · rw [walk_absent hn] at h; cases h; simp
    · rw [walk_leaf hn] at h
      split at h <;> exact hrec h
    · rw [walk_tooLong hn] at h; cases h; simp
  | succ room ih =>
    rcases hn : b.node[n]? with _ | ⟨ch, w⟩ | ⟨w, l, r⟩
    · rw [walk_absent hn] at h; cases h; simp
    · rw [walk_leaf hn] at h
      split at h <;> exact hrec h
    · rw [walk_internal hn] at h
      split at h
      · rename_i h1
        cases h
        exact ih h1
      · exact ih h

theorem recordTree_frame {b b' : Block} (h : recordTree b = .ok b') : SameButTable b b' := by
  unfold recordTree at h
  split at h
  · cases h; exact SameButTable.refl _
  · exact walk_frame h

/-- Everything the rule of `GEN` can do when it completes (43_codegen.md R105). -/
theorem genRule_ok {b : Block} {r : Done} (h : genRule b = .ok r) :
    b.pq.length ≤ 1 ∧ ∃ b', recordTree b = .ok b' ∧ r = { b'.freeTree with phase := .coded }.done := by
  unfold genRule at h
  split at h
  · cases h
  · split at h
    · cases h
    · exact ⟨by omega, _, ‹_›, by cases h; rfl⟩

theorem genRule_error {b : Block} {a : Abort} (h : genRule b = .error a) :
    (a = .raise .protocolError ∧ 1 < b.pq.length) ∨ (b.pq.length ≤ 1 ∧ recordTree b = .error a) := by
  unfold genRule at h
  split at h
  · exact .inl ⟨by cases h; rfl, ‹_›⟩
  · split at h
    · exact .inr ⟨by omega, by cases h; assumption⟩
    · cases h

theorem recordTree_error {b : Block} {a : Abort} (h : recordTree b = .error a) :
    a ∈ [Abort.raise .codeTooLong, .raise .tableOverflow, .raise .degenerateCodeError, .stop .absentNode] := by
  unfold recordTree at h
  split at h
  · cases h
  · exact walk_error h

end Sys2Proof.Machine
end

