-- ==== Sys2Proof/Laws/Encoder.lean ====
section
/-! SUPPORT. What the encoder's operations do (44_encode.md): the byte order of the fields, the bit packer, the rules. -/

namespace Sys2Proof.Machine

/-! ## Byte order -/

theorem leBytes_eq_littleEndian (n v : Nat) : leBytes n v = littleEndian n v := by
  induction n generalizing v with
  | zero => rfl
  | succ n ih =>
    rw [leBytes, ih, littleEndian, littleEndian, List.range_succ_eq_map]
    simp only [List.map_cons, pow_zero, Nat.div_one, List.map_map, List.cons.injEq, true_and]
    apply List.map_congr_left
    intro k _
    simp only [Function.comp_apply, Nat.succ_eq_add_one, pow_succ]
    rw [Nat.div_div_eq_div_mul, Nat.mul_comm]

@[simp] theorem leBytes_length (n v : Nat) : (leBytes n v).length = n := by
  rw [leBytes_eq_littleEndian]; simp [littleEndian]

/-- Reading back the bytes written (00_scope.md R8). -/
theorem unLe_leBytes (n v : Nat) (h : v < 256 ^ n) : unLe (leBytes n v) = v := by
  induction n generalizing v with
  | zero => simp at h; simp [leBytes, unLe, h]
  | succ n ih =>
    have hv : v / 256 < 256 ^ n := by
      rw [Nat.div_lt_iff_lt_mul (by decide), ← pow_succ]; exact h
    simp only [leBytes, unLe, ih _ hv, BitVec.toNat_ofNat]
    omega

theorem unLe_eq_fromLittleEndian (bs : List Byte) : unLe bs = fromLittleEndian bs := by
  induction bs with
  | nil => rfl
  | cons b bs ih =>
    simp only [unLe, ih, fromLittleEndian, List.length_cons, List.range_succ_eq_map, List.map_cons, List.map_map,
      List.sum_cons, List.getD_cons_zero, pow_zero, Nat.mul_one, Nat.add_left_cancel_iff]
    rw [← List.sum_map_mul_left]
    apply congrArg
    apply List.map_congr_left
    intro k _
    simp only [Function.comp_apply, Nat.succ_eq_add_one, List.getD_cons_succ, pow_succ]
    ring

theorem unLe_lt (bs : List Byte) : unLe bs < 256 ^ bs.length := by
  induction bs with
  | nil => simp [unLe]
  | cons b bs ih =>
    have := b.isLt
    simp only [unLe, List.length_cons, pow_succ]
    omega

/-! ## Header and dictionary -/

@[simp] theorem recordBytes_length (c : Code) (ch : Byte) : (recordBytes c ch).length = 16 := by
  simp [recordBytes, le64, le32]

theorem headBytes_length (b : Block) : b.headBytes.length = 16 + 16 * b.dord.length := by
  have : ∀ l : List Byte, (l.flatMap (fun ch => recordBytes (b.code ch) ch)).length = 16 * l.length := by
    intro l
    induction l with
    | nil => rfl
    | cons c l ih => simp [ih]; omega
  simp [Block.headBytes, headerBytes, le64, this]
  omega

/-! ## Bit packer -/

@[simp] theorem byteBits_length (d : Byte) : (byteBits d).length = 8 := by simp [byteBits]

@[simp] theorem codeBits_length (c : Code) : (codeBits c).length = c.len := by simp [codeBits]

/-- One bit into a packer byte whose unfilled bits are 0 (44_encode.md R119, 10_state.md R23). -/
theorem packBit_byte : ∀ (buf : Byte) (cnt : Fin 8) (bit : Bool), buf.toNat % 2 ^ (8 - cnt.val) = 0 →
    (byteBits (buf ||| (bitByte bit <<< (7 - cnt.val)))).take (cnt.val + 1) = (byteBits buf).take cnt.val ++ [bit] ∧
    (buf ||| (bitByte bit <<< (7 - cnt.val))).toNat % 2 ^ (7 - cnt.val) = 0 := by
  decide +kernel

/-- The unfilled bits of the packer byte are 0 (10_state.md R23). -/
def Packer.Ok (p : Packer) : Prop := p.buf.toNat % 2 ^ (8 - p.cnt.val) = 0

/-- `pack_bit` appends one bit and keeps the unfilled bits 0 (44_encode.md R119). -/
theorem packBit_spec {p : Packer} (h : p.Ok) (bit : Bool) :
    (packBit p bit).Ok ∧
    packedBits (packBit p bit).out (packBit p bit).buf (packBit p bit).cnt.val =
      packedBits p.out p.buf p.cnt.val ++ [bit] := by
  obtain ⟨h1, h2⟩ := packBit_byte p.buf p.cnt bit h
  unfold packBit
  simp only
  split
  · rename_i hc
    have hc7 : p.cnt.val = 7 := by omega
    refine ⟨by simp [Packer.Ok], ?_⟩
    simp only [packedBits, List.flatMap_append, List.append_assoc]
    have h3 : (byteBits (p.buf ||| bitByte bit <<< (7 - p.cnt.val))).take (p.cnt.val + 1) =
        byteBits (p.buf ||| bitByte bit <<< (7 - p.cnt.val)) := by
      apply List.take_of_length_le; simp [hc7]
    rw [h3] at h1
    simp [h1]
  · rename_i hc
    have hv : (p.cnt + 1).val = p.cnt.val + 1 := by
      rw [Fin.val_add]; simp; omega
    refine ⟨?_, ?_⟩
    · simp only [Packer.Ok, hv]
      rwa [show 8 - (p.cnt.val + 1) = 7 - p.cnt.val by omega]
    · simp only [packedBits, hv, h1, List.append_assoc]

/-- The packer's counts after one bit: bits filled in, whole bytes put out. -/
theorem packBit_count (p : Packer) (bit : Bool) :
    8 * (packBit p bit).out.length + (packBit p bit).cnt.val = 8 * p.out.length + p.cnt.val + 1 := by
  unfold packBit
  simp only
  split
  · simp; omega
  · have hv : (p.cnt + 1).val = p.cnt.val + 1 := by
      rw [Fin.val_add]; simp; omega
    simp only [hv]; omega

theorem packBits_spec {bits : List Bool} {p : Packer} (h : p.Ok) :
    (bits.foldl packBit p).Ok ∧
    packedBits (bits.foldl packBit p).out (bits.foldl packBit p).buf (bits.foldl packBit p).cnt.val =
      packedBits p.out p.buf p.cnt.val ++ bits := by
  induction bits generalizing p with
  | nil => simp [h]
  | cons bit bits ih =>
    obtain ⟨h1, h2⟩ := packBit_spec h bit
    obtain ⟨h3, h4⟩ := ih h1
    exact ⟨h3, by rw [List.foldl_cons, h4, h2]; simp⟩

theorem packBits_count (bits : List Bool) (p : Packer) :
    8 * (bits.foldl packBit p).out.length + (bits.foldl packBit p).cnt.val =
      8 * p.out.length + p.cnt.val + bits.length := by
  induction bits generalizing p with
  | nil => simp
  | cons bit bits ih =>
    rw [List.foldl_cons, ih, packBit_count]
    simp; omega

/-! ## The commands' rules -/

/-- Everything the rule of `ENC` can do when it completes (44_encode.md R118). -/
theorem encRule_ok {d : Byte} {b : Block} {r : Done} (h : encRule d b = .ok r) :
    b.encn ≠ b.total ∧ (b.code d).len ≠ 0 ∧
      let p := (codeBits (b.code d)).foldl packBit { buf := b.pkbuf, cnt := b.pkcnt, out := [] }
      r = { block := { b with pkbuf := p.buf, pkcnt := p.cnt, encn := b.encn + 1 }, out := p.out, rsp := .ok } := by
  unfold encRule at h
  split at h
  · cases h
  · split at h
    · cases h
    · exact ⟨‹_›, ‹_›, by cases h; rfl⟩

theorem encRule_error {d : Byte} {b : Block} {a : Abort} (h : encRule d b = .error a) :
    (a = .raise .protocolError ∧ b.encn = b.total) ∨
    (a = .raise .degenerateCodeError ∧ b.encn ≠ b.total ∧ (b.code d).len = 0) := by
  unfold encRule at h
  split at h
  · exact .inl ⟨by cases h; rfl, ‹_›⟩
  · split at h
    · exact .inr ⟨by cases h; rfl, ‹_›, ‹_›⟩
    · cases h

/-- Everything the rule of `ENCEND` can do when it completes (44_encode.md R120). -/
theorem encendRule_ok {b : Block} {r : Done} (h : encendRule b = .ok r) :
    b.encn = b.total ∧
      ((0 < b.pkcnt.val ∧
          r = { block := { b with pkbuf := 0, pkcnt := 0, phase := .encDone }, out := [b.pkbuf], rsp := .ok }) ∨
       (b.pkcnt.val = 0 ∧ r = { b with phase := .encDone }.done)) := by
  unfold encendRule at h
  split at h
  · cases h
  · rename_i h1
    refine ⟨not_not.mp h1, ?_⟩
    split at h
    · exact .inl ⟨‹_›, by cases h; rfl⟩
    · exact .inr ⟨by omega, by cases h; rfl⟩

theorem encendRule_error {b : Block} {a : Abort} (h : encendRule b = .error a) :
    a = .raise .protocolError ∧ b.encn ≠ b.total := by
  unfold encendRule at h
  split at h
  · exact ⟨by cases h; rfl, ‹_›⟩
  · split at h <;> cases h

end Sys2Proof.Machine
end

