-- ==== Sys2Proof/Laws/Arena.lean ====
section
/-! SUPPORT. The arena as a forest of binary trees, and the code generator's traversal as a fold over a tree's leaves
(10_state.md R18, 43_codegen.md R107). -/

namespace Sys2Proof.Machine

/-! ## Paths as codes -/

/-- The bits of a path, first edge most significant (43_codegen.md R107). -/
def pathBits (p : List Bool) : Word64 := p.foldl (fun acc bit => acc <<< 1 ||| (if bit then 1 else 0)) 0

/-- A path as a code. -/
def pathCode (p : List Bool) : Code := ⟨pathBits p, p.length⟩

@[simp] theorem pathBits_nil : pathBits [] = 0 := rfl

@[simp] theorem pathBits_snoc (p : List Bool) (bit : Bool) :
    pathBits (p ++ [bit]) = pathBits p <<< 1 ||| (if bit then 1 else 0) := by simp [pathBits]

theorem pathBits_left (p : List Bool) : pathBits (p ++ [false]) = pathBits p <<< 1 := by
  rw [pathBits_snoc]; exact BitVec.or_zero

theorem pathBits_right (p : List Bool) : pathBits (p ++ [true]) = pathBits p <<< 1 ||| 1 := by rw [pathBits_snoc]; rfl

/-- A code with one bit more has that bit last (20_memory.md R48). -/
theorem codeBits_snoc (x : Word64) (n : Nat) (bit : Bool) (hn : n < 64) :
    codeBits ⟨x <<< 1 ||| (if bit then 1 else 0), n + 1⟩ = codeBits ⟨x, n⟩ ++ [bit] := by
  have h0 : ∀ k, (if bit then (1 : Word64) else 0).getLsbD k = (decide (k = 0) && bit) := by
    intro k
    cases bit with
    | false => simp
    | true =>
      simp only [if_true, Bool.and_true]
      have : (1 : Word64) = BitVec.ofNat 64 1 := rfl
      rw [this, BitVec.getLsbD_ofNat]
      cases k with
      | zero => rfl
      | succ k => simp [Nat.testBit_succ]
  simp only [codeBits, List.range_succ, List.map_append, List.map_cons, List.map_nil]
  congr 1
  · apply List.map_congr_left
    intro k hk
    simp only [List.mem_range] at hk
    simp only [BitVec.getLsbD_or, BitVec.getLsbD_shiftLeft, h0]
    have h1 : n + 1 - 1 - k < 64 := by omega
    have h2 : ¬ (n + 1 - 1 - k < 1) := by omega
    have h3 : ¬ (n + 1 - 1 - k = 0) := by omega
    simp only [h1, h2, h3, decide_true, decide_false, Bool.not_false, Bool.true_and, Bool.false_and, Bool.or_false]
    congr 1
    omega
  · have h1 : (x <<< 1 ||| (if bit then 1 else 0)).getLsbD 0 = bit := by
      rw [BitVec.getLsbD_or, h0]; simp
    simpa using h1

/-- The code of a path spells the path. -/
theorem codeBits_pathCode (p : List Bool) (hp : p.length ≤ 64) : codeBits (pathCode p) = p := by
  induction p using List.reverseRecOn with
  | nil => rfl
  | append_singleton p bit ih =>
    simp only [List.length_append, List.length_cons, List.length_nil] at hp
    simp only [pathCode, pathBits_snoc, List.length_append, List.length_cons, List.length_nil, zero_add] at ih ⊢
    rw [codeBits_snoc _ _ _ (by omega), ih (by omega)]

/-- The code of a path has no bit above its length (10_state.md R20). -/
theorem pathBits_lt (p : List Bool) : (pathBits p).toNat < 2 ^ p.length := by
  induction p using List.reverseRecOn with
  | nil => simp
  | append_singleton p bit ih =>
    simp only [pathBits_snoc, List.length_append, List.length_cons, List.length_nil, BitVec.toNat_or,
      BitVec.toNat_shiftLeft, zero_add]
    apply Nat.or_lt_two_pow
    · have h1 : (pathBits p).toNat <<< 1 < 2 ^ (p.length + 1) := by
        rw [Nat.shiftLeft_eq, pow_succ]; omega
      exact Nat.lt_of_le_of_lt (Nat.mod_le _ _) h1
    · cases bit <;> simp

/-- A code is determined by its length and, where its bits lie below its length, the bits it spells. -/
theorem codeBits_inj {a b : Code} (ha : a.len ≤ 64) (ha' : a.bits.toNat < 2 ^ a.len) (hb' : b.bits.toNat < 2 ^ b.len)
    (h : codeBits a = codeBits b) : a = b := by
  have hl : a.len = b.len := by
    have := congrArg List.length h
    simpa using this
  obtain ⟨abits, n⟩ := a
  obtain ⟨bbits, m⟩ := b
  simp only at hl ha ha' hb'
  subst hl
  congr 1
  apply BitVec.eq_of_getLsbD_eq
  intro k hk
  by_cases hkn : k < n
  · have h1 := congrArg (fun l => l[n - 1 - k]?) h
    have h2 : n - 1 - (n - 1 - k) = k := by omega
    have h3 : n - 1 - k < n := by omega
    simpa [codeBits, h2, h3] using h1
  · have hlt : ∀ x : Word64, x.toNat < 2 ^ n → x.getLsbD k = false := by
      intro x hx
      rw [BitVec.getLsbD]
      exact Nat.testBit_lt_two_pow (lt_of_lt_of_le hx (Nat.pow_le_pow_right (by decide) (by omega)))
    rw [hlt _ ha', hlt _ hb']

/-! ## Binary trees -/

/-- The shape of a code tree: a character or two subtrees. -/
inductive HTree where
  | leaf (ch : Byte)
  | node (left right : HTree)
deriving DecidableEq, Repr

/-- The leaves from left to right with their paths from the root. -/
def HTree.paths : HTree → List (Byte × List Bool)
  | .leaf ch => [(ch, [])]
  | .node l r => l.paths.map (fun x => (x.1, false :: x.2)) ++ r.paths.map (fun x => (x.1, true :: x.2))

/-- The characters of the leaves from left to right. -/
def HTree.chars (t : HTree) : List Byte := t.paths.map Prod.fst

/-- The edges on the longest path. -/
def HTree.depth : HTree → Nat
  | .leaf _ => 0
  | .node l r => max l.depth r.depth + 1

@[simp] theorem HTree.chars_leaf (ch : Byte) : (HTree.leaf ch).chars = [ch] := rfl

@[simp] theorem HTree.chars_node (l r : HTree) : (HTree.node l r).chars = l.chars ++ r.chars := by
  simp [HTree.chars, HTree.paths, Function.comp_def]

theorem HTree.length_chars_pos (t : HTree) : 1 ≤ t.chars.length := by
  induction t with
  | leaf ch => simp
  | node l r ihl _ => simp; omega

theorem HTree.length_path_le (t : HTree) : ∀ x ∈ t.paths, x.2.length ≤ t.depth := by
  induction t with
  | leaf ch => simp [HTree.paths]
  | node l r ihl ihr =>
    intro x hx
    simp only [HTree.paths, List.mem_append, List.mem_map] at hx
    rcases hx with ⟨y, hy, rfl⟩ | ⟨y, hy, rfl⟩
    · have := ihl y hy; simp only [HTree.depth, List.length_cons]; omega
    · have := ihr y hy; simp only [HTree.depth, List.length_cons]; omega

/-- Along the leaves the paths increase, left before right. -/
theorem HTree.paths_sorted (t : HTree) : (t.paths.map Prod.snd).Pairwise (· < ·) := by
  induction t with
  | leaf ch => simp [HTree.paths]
  | node l r ihl ihr =>
    simp only [HTree.paths, List.map_append, List.map_map, List.pairwise_append]
    refine ⟨?_, ?_, ?_⟩
    · rw [List.pairwise_map] at ihl ⊢
      exact ihl.imp (fun h => List.cons_lt_cons_iff.mpr (.inr ⟨rfl, h⟩))
    · rw [List.pairwise_map] at ihr ⊢
      exact ihr.imp (fun h => List.cons_lt_cons_iff.mpr (.inr ⟨rfl, h⟩))
    · intro a ha b hb
      simp only [List.mem_map, Function.comp_apply] at ha hb
      obtain ⟨x, _, rfl⟩ := ha
      obtain ⟨y, _, rfl⟩ := hb
      exact List.cons_lt_cons_iff.mpr (.inl (by decide))

/-- No leaf's path is a prefix of another leaf's path. -/
theorem HTree.paths_prefix_free (t : HTree) :
    t.paths.Pairwise (fun x y => ¬ x.2 <+: y.2 ∧ ¬ y.2 <+: x.2) := by
  induction t with
  | leaf ch => simp [HTree.paths]
  | node l r ihl ihr =>
    simp only [HTree.paths, List.pairwise_append, List.pairwise_map, List.cons_prefix_cons, true_and]
    refine ⟨ihl, ihr, ?_⟩
    intro a ha b hb
    simp only [List.mem_map] at ha hb
    obtain ⟨x, _, rfl⟩ := ha
    obtain ⟨y, _, rfl⟩ := hb
    simp

/-- The Kraft sum over the leaves of a tree is that of one code of length 0. -/
theorem HTree.kraft (t : HTree) (k : Nat) (h : t.depth ≤ k) : (t.paths.map (fun x => 2 ^ (k - x.2.length))).sum = 2 ^ k := by
  induction t generalizing k with
  | leaf ch => simp [HTree.paths]
  | node l r ihl ihr =>
    simp only [HTree.depth] at h
    obtain ⟨k, rfl⟩ : ∃ m, k = m + 1 := ⟨k - 1, by omega⟩
    have hl := ihl k (by omega)
    have hr := ihr k (by omega)
    simp only [HTree.paths, List.map_append, List.map_map, List.sum_append, Function.comp_def, List.length_cons,
      Nat.add_sub_add_right]
    rw [hl, hr, pow_succ]
    omega

/-! ## Trees in the arena -/

/-- The tree `t` stands below node `n` of the arena. -/
inductive IsTree (arena : List Node) : Nat → HTree → Prop where
  | leaf {n : Nat} {ch : Byte} {w : Nat} (h : arena[n]? = some (.leaf ch w)) : IsTree arena n (.leaf ch)
  | node {n w l r : Nat} {tl tr : HTree} (h : arena[n]? = some (.internal w l r)) (hl : IsTree arena l tl)
      (hr : IsTree arena r tr) : IsTree arena n (.node tl tr)

theorem IsTree.unique {arena : List Node} {n : Nat} {t u : HTree} (h : IsTree arena n t) (h' : IsTree arena n u) :
    t = u := by
  induction h generalizing u with
  | leaf h => cases h' with
    | leaf h2 => rw [h] at h2; cases h2; rfl
    | node h2 => rw [h] at h2; cases h2
  | node h _ _ ihl ihr => cases h' with
    | leaf h2 => rw [h] at h2; cases h2
    | node h2 hl hr => rw [h] at h2; cases h2; rw [ihl hl, ihr hr]

/-- Children stand below their own index (10_state.md R18), so every node has a tree. -/
theorem isTree_exists {arena : List Node}
    (h : ∀ (i w l r : Nat), arena[i]? = some (Node.internal w l r) → l < i ∧ r < i) (n : Nat) (hn : n < arena.length) :
    ∃ t, IsTree arena n t := by
  induction n using Nat.strong_induction_on with
  | _ n ih =>
    rcases hx : arena[n]? with _ | ⟨ch, w⟩ | ⟨w, l, r⟩
    · rw [List.getElem?_eq_none_iff] at hx; omega
    · exact ⟨_, .leaf hx⟩
    · obtain ⟨hl, hr⟩ := h _ _ _ _ hx
      obtain ⟨tl, htl⟩ := ih l hl (by omega)
      obtain ⟨tr, htr⟩ := ih r hr (by omega)
      exact ⟨_, .node hx htl htr⟩

/-- Appending a node leaves the trees below the others. -/
theorem IsTree.of_append {arena : List Node} {x : Node} {n : Nat} {t : HTree} (h : IsTree (arena ++ [x]) n t)
    (hc : ∀ (i w l r : Nat), (arena ++ [x])[i]? = some (Node.internal w l r) → l < i ∧ r < i) (hn : n < arena.length) :
    IsTree arena n t := by
  induction h with
  | leaf h => rw [List.getElem?_append_left hn] at h; exact .leaf h
  | node h _ _ ihl ihr =>
    obtain ⟨h1, h2⟩ := hc _ _ _ _ h
    rw [List.getElem?_append_left hn] at h
    exact .node h (ihl (by omega)) (ihr (by omega))

/-- The characters of the arena's Leaves, in index order. -/
def leafChars (arena : List Node) : List Byte :=
  arena.filterMap (fun x => match x with | .leaf c _ => some c | .internal _ _ _ => none)

theorem leafChars_length (arena : List Node) : (leafChars arena).length = leafCount arena := by
  induction arena with
  | nil => rfl
  | cons x xs ih =>
    cases x with
    | leaf c w => simpa [leafChars, leafCount] using ih
    | internal w l r => simpa [leafChars, leafCount] using ih

/-- The trees below the nodes that are no node's child hold each Leaf of the arena once (10_state.md R18). -/
theorem forest_chars {arena : List Node} {q : List Nat} {T : Nat → HTree}
    (hc : ∀ (i w l r : Nat), arena[i]? = some (Node.internal w l r) → l < i ∧ r < i)
    (ho : (childIndices arena).Nodup) (hq : q.Nodup)
    (hm : ∀ n, n ∈ q ↔ n < arena.length ∧ n ∉ childIndices arena)
    (hT : ∀ n, n < arena.length → IsTree arena n (T n)) :
    (q.flatMap (fun n => (T n).chars)).Perm (leafChars arena) := by
  induction arena using List.reverseRecOn generalizing q with
  | nil =>
    have : q = [] := List.eq_nil_iff_forall_not_mem.mpr (fun n hn => by simpa using (hm n).mp hn)
    subst this; exact .refl _
  | append_singleton arena x ih =>
    have hc' : ∀ (i w l r : Nat), arena[i]? = some (Node.internal w l r) → l < i ∧ r < i := by
      intro i w l r h
      obtain ⟨hi, _⟩ := List.getElem?_eq_some_iff.mp h
      exact hc i w l r (by rw [List.getElem?_append_left hi]; exact h)
    have hT' : ∀ n, n < arena.length → IsTree arena n (T n) := fun n hn =>
      (hT n (by simp; omega)).of_append hc hn
    have hchild : ∀ n, n ∈ childIndices arena → n < arena.length := by
      intro n hn
      simp only [childIndices, List.mem_flatMap] at hn
      obtain ⟨y, hy, hny⟩ := hn
      obtain ⟨i, hi, rfl⟩ := List.mem_iff_getElem.mp hy
      rcases hyi : arena[i] with ⟨c, w⟩ | ⟨w, l, r⟩
      · rw [hyi] at hny; simp at hny
      · rw [hyi] at hny
        have := hc' i w l r (by rw [List.getElem?_eq_getElem hi, hyi])
        simp only [List.mem_cons, List.not_mem_nil, or_false] at hny
        omega
    have hx : (arena ++ [x])[arena.length]? = some x := by simp
    cases x with
    | leaf c w =>
      have hci : childIndices (arena ++ [Node.leaf c w]) = childIndices arena := by simp [childIndices]
      have hN : arena.length ∈ q := (hm _).mpr ⟨by simp, by rw [hci]; intro h; exact absurd (hchild _ h) (by omega)⟩
      have hp := List.perm_cons_erase hN
      have hnd := hp.nodup_iff.mp hq
      rw [List.nodup_cons] at hnd
      have h1 := ih (q := q.erase arena.length) hc' (by rwa [hci] at ho) hnd.2 (by
        intro n
        rw [hq.mem_erase_iff, hm, hci]
        simp only [List.length_append, List.length_cons, List.length_nil]
        constructor
        · rintro ⟨h1, h2, h3⟩; exact ⟨by omega, h3⟩
        · rintro ⟨h1, h2⟩; exact ⟨by omega, by omega, h2⟩) hT'
      have hTN : T arena.length = .leaf c := (hT _ (by simp)).unique (.leaf hx)
      refine (hp.flatMap_right _).trans ?_
      simp only [List.flatMap_cons, hTN, HTree.chars_leaf, List.singleton_append]
      refine (List.Perm.cons c h1).trans ?_
      simp only [leafChars, List.filterMap_append, List.filterMap_cons, List.filterMap_nil]
      exact (List.perm_append_singleton _ _).symm
    | internal w l r =>
      have hci : childIndices (arena ++ [Node.internal w l r]) = childIndices arena ++ [l, r] := by simp [childIndices]
      obtain ⟨hl, hr⟩ := hc _ _ _ _ hx
      rw [hci, List.nodup_append] at ho
      obtain ⟨ho1, ho2, ho3⟩ := ho
      have hlr : l ≠ r := by simpa using ho2
      have hlc : l ∉ childIndices arena := fun h => ho3 l h l (by simp) rfl
      have hrc : r ∉ childIndices arena := fun h => ho3 r h r (by simp) rfl
      have hN : arena.length ∈ q := (hm _).mpr ⟨by simp, by
        rw [hci]; simp only [List.mem_append, List.mem_cons, List.not_mem_nil, or_false]
        rintro (h | h | h)
        · exact absurd (hchild _ h) (by omega)
        · omega
        · omega⟩
      have hp := List.perm_cons_erase hN
      have hnd := hp.nodup_iff.mp hq
      rw [List.nodup_cons] at hnd
      have hmem : ∀ n, n ∈ q.erase arena.length ↔ n < arena.length ∧ n ∉ childIndices arena ∧ n ≠ l ∧ n ≠ r := by
        intro n
        rw [hq.mem_erase_iff, hm, hci]
        simp only [List.length_append, List.length_cons, List.length_nil, List.mem_append, List.mem_cons,
          List.not_mem_nil, or_false, not_or]
        constructor
        · rintro ⟨h1, h2, h3, h4⟩; exact ⟨by omega, h3, h4⟩
        · rintro ⟨h1, h2, h3⟩; exact ⟨by omega, by omega, h2, h3⟩
      have h1 := ih (q := l :: r :: q.erase arena.length) hc' ho1 (by
          simp only [List.nodup_cons, List.mem_cons, hmem, not_or]
          exact ⟨⟨hlr, fun h => h.2.2.1 rfl⟩, fun h => h.2.2.2 rfl, hnd.2⟩) (by
        intro n
        simp only [List.mem_cons, hmem]
        constructor
        · rintro (rfl | rfl | ⟨h1, h2, _⟩)
          · exact ⟨hl, hlc⟩
          · exact ⟨hr, hrc⟩
          · exact ⟨h1, h2⟩
        · rintro ⟨h1, h2⟩
          by_cases h3 : n = l
          · exact .inl h3
          · by_cases h4 : n = r
            · exact .inr (.inl h4)
            · exact .inr (.inr ⟨h1, h2, h3, h4⟩)) hT'
      have hTN : T arena.length = .node (T l) (T r) :=
        (hT _ (by simp)).unique (.node hx (hT l (by simp; omega)) (hT r (by simp; omega)))
      refine (hp.flatMap_right _).trans ?_
      simp only [List.flatMap_cons, hTN, HTree.chars_node]
      refine List.Perm.trans (by simpa [List.append_assoc] using h1) ?_
      simp [leafChars]

/-! ## Paths in the arena -/

/-- The leaves of a tree are the Leaves its paths lead to. -/
theorem follow_leaf_iff {arena : List Node} {n : Nat} {t : HTree} (h : IsTree arena n t) (p : List Bool) (c : Byte) :
    (∃ w, follow arena n p = some (.leaf c w)) ↔ (c, p) ∈ t.paths := by
  induction h generalizing p with
  | @leaf n ch w h =>
    cases p with
    | nil => simp [follow, h, HTree.paths, eq_comm]
    | cons bit p => simp [follow, h, HTree.paths]
  | @node n w l r tl tr h _ _ ihl ihr =>
    cases p with
    | nil => simp [follow, h, HTree.paths]
    | cons bit p =>
      cases bit with
      | false => simpa [follow, h, HTree.paths] using ihl p
      | true => simpa [follow, h, HTree.paths] using ihr p

/-- A tree deeper than `k` has an Internal node at depth `k` (43_codegen.md R109). -/
theorem follow_internal_iff {arena : List Node} {n : Nat} {t : HTree} (h : IsTree arena n t) (k : Nat) :
    (∃ p w l r, p.length = k ∧ follow arena n p = some (.internal w l r)) ↔ k < t.depth := by
  induction h generalizing k with
  | @leaf n ch w h =>
    simp only [HTree.depth, Nat.not_lt_zero, iff_false]
    rintro ⟨p, w, l, r, -, hp⟩
    cases p with
    | nil => simp [follow, h] at hp
    | cons bit p => simp [follow, h] at hp
  | @node n w l r tl tr h _ _ ihl ihr =>
    simp only [HTree.depth]
    constructor
    · rintro ⟨p, w', l', r', rfl, hp⟩
      cases p with
      | nil => simp
      | cons bit p =>
        cases bit with
        | false =>
          have := (ihl p.length).mp ⟨p, w', l', r', rfl, by simpa [follow, h] using hp⟩
          simp only [List.length_cons]; omega
        | true =>
          have := (ihr p.length).mp ⟨p, w', l', r', rfl, by simpa [follow, h] using hp⟩
          simp only [List.length_cons]; omega
    · intro hk
      cases k with
      | zero => exact ⟨[], w, l, r, rfl, h⟩
      | succ k =>
        rcases Nat.lt_or_ge k tl.depth with hl | hl
        · obtain ⟨p, w', l', r', hp, hf⟩ := (ihl k).mpr hl
          exact ⟨false :: p, w', l', r', by simp [hp], by simpa [follow, h] using hf⟩
        · obtain ⟨p, w', l', r', hp, hf⟩ := (ihr k).mpr (by omega)
          exact ⟨true :: p, w', l', r', by simp [hp], by simpa [follow, h] using hf⟩

/-! ## The traversal -/

/-- What `record` does to the block for one leaf (43_codegen.md R106). -/
def Block.putCode (b : Block) (x : Byte × Code) : Block := { b.setCode x.1 x.2 with dord := b.dord ++ [x.1] }

/-- The leaves of a tree below the path `pre` with their codes. -/
def HTree.codes (t : HTree) (pre : List Bool) : List (Byte × Code) :=
  t.paths.map (fun x => (x.1, pathCode (pre ++ x.2)))

@[simp] theorem HTree.codes_node (l r : HTree) (pre : List Bool) :
    (HTree.node l r).codes pre = l.codes (pre ++ [false]) ++ r.codes (pre ++ [true]) := by
  simp [HTree.codes, HTree.paths, Function.comp_def]

theorem foldl_putCode_node (xs : List (Byte × Code)) (b : Block) : (xs.foldl Block.putCode b).node = b.node := by
  induction xs generalizing b with
  | nil => rfl
  | cons x xs ih => exact ih (b.putCode x)

theorem foldl_putCode_dord (xs : List (Byte × Code)) (b : Block) :
    (xs.foldl Block.putCode b).dord = b.dord ++ xs.map Prod.fst := by
  induction xs generalizing b with
  | nil => simp
  | cons x xs ih => rw [List.foldl_cons, ih]; simp [Block.putCode]

theorem foldl_putCode_frame (xs : List (Byte × Code)) (b : Block) : SameButTable b (xs.foldl Block.putCode b) := by
  induction xs generalizing b with
  | nil => exact SameButTable.refl _
  | cons x xs ih => exact SameButTable.trans (b := b.putCode x) rfl (ih _)

theorem putCode_code (b : Block) (x : Byte × Code) (c : Byte) :
    (b.putCode x).code c = if c = x.1 then x.2 else b.code c := Block.code_setCode b c x.1 x.2

theorem foldl_putCode_code_of_not_mem {xs : List (Byte × Code)} {b : Block} {c : Byte} (h : c ∉ xs.map Prod.fst) :
    (xs.foldl Block.putCode b).code c = b.code c := by
  induction xs generalizing b with
  | nil => rfl
  | cons x xs ih =>
    simp only [List.map_cons, List.mem_cons, not_or] at h
    rw [List.foldl_cons, ih h.2, putCode_code, if_neg h.1]

theorem foldl_putCode_code_of_mem {xs : List (Byte × Code)} {b : Block} {c : Byte} {v : Code}
    (hn : (xs.map Prod.fst).Nodup) (h : (c, v) ∈ xs) : (xs.foldl Block.putCode b).code c = v := by
  induction xs generalizing b with
  | nil => simp at h
  | cons x xs ih =>
    simp only [List.map_cons, List.nodup_cons] at hn
    rw [List.foldl_cons]
    rcases List.mem_cons.mp h with rfl | h
    · rw [foldl_putCode_code_of_not_mem hn.1, putCode_code, if_pos rfl]
    · exact ih hn.2 h

/-- `walk` on a tree that fits: the codes of its leaves are recorded from left to right (43_codegen.md R107). -/
theorem walk_tree {t : HTree} {room n : Nat} {pre : List Bool} {b : Block} (h : IsTree b.node n t)
    (hr : pre ≠ [] ∨ ∃ l r, t = .node l r) (hd : t.depth ≤ room)
    (hc : b.dord.length + t.chars.length ≤ Config.tableCap) :
    walk room n (pathBits pre) pre.length b = .ok ((t.codes pre).foldl Block.putCode b) := by
  induction t generalizing room n pre b with
  | leaf ch =>
    cases h with
    | leaf h =>
      rw [walk_leaf h]
      have hp : pre ≠ [] := by
        rcases hr with h | ⟨_, _, h⟩
        · exact h
        · cases h
      rw [if_neg (by simpa using hp)]
      refine recordCode_ok.mpr ⟨?_, by simpa using hp, ?_⟩
      · simp only [HTree.chars_leaf, List.length_cons, List.length_nil] at hc; omega
      · simp [HTree.codes, HTree.paths, Block.putCode, pathCode]
  | node l r ihl ihr =>
    cases h with
    | node h hl hr' =>
      simp only [HTree.depth] at hd
      obtain ⟨room, rfl⟩ : ∃ m, room = m + 1 := ⟨room - 1, by omega⟩
      simp only [HTree.chars_node, List.length_append] at hc
      have h1 := ihl (pre := pre ++ [false]) (room := room) hl (.inl (by simp)) (by omega) (by omega)
      have h2 := ihr (pre := pre ++ [true]) (room := room) (b := (l.codes (pre ++ [false])).foldl Block.putCode b)
        (by rw [foldl_putCode_node]; exact hr') (.inl (by simp)) (by omega) (by
          rw [foldl_putCode_dord]
          simp only [HTree.codes, List.map_map, Function.comp_def, List.length_append, List.length_map]
          simp only [HTree.chars, List.length_map] at hc ⊢
          omega)
      rw [walk_internal h]
      simp only [pathBits_left, pathBits_right, List.length_append, List.length_cons, List.length_nil, zero_add] at h1 h2
      rw [h1]
      simp only
      rw [h2, HTree.codes_node, List.foldl_append]

/-- `walk` on a tree that is too deep (43_codegen.md R109). -/
theorem walk_deep {t : HTree} {room n : Nat} {pre : List Bool} {b : Block} (h : IsTree b.node n t)
    (hd : room < t.depth) (hc : b.dord.length + t.chars.length ≤ Config.tableCap) :
    walk room n (pathBits pre) pre.length b = .error (.raise .codeTooLong) := by
  induction t generalizing room n pre b with
  | leaf ch => simp [HTree.depth] at hd
  | node l r ihl ihr =>
    cases h with
    | node h hl hr' =>
      simp only [HTree.depth] at hd
      cases room with
      | zero => exact walk_tooLong h
      | succ room =>
        simp only [HTree.chars_node, List.length_append] at hc
        rw [walk_internal h]
        by_cases hdl : room < l.depth
        · have h1 := ihl (pre := pre ++ [false]) hl hdl (by omega)
          simp only [pathBits_left, List.length_append, List.length_cons, List.length_nil, zero_add] at h1
          rw [h1]
        · have h1 := walk_tree (pre := pre ++ [false]) (room := room) hl (.inl (by simp)) (by omega) (by omega)
          have h2 := ihr (pre := pre ++ [true]) (room := room) (b := (l.codes (pre ++ [false])).foldl Block.putCode b)
            (by rw [foldl_putCode_node]; exact hr') (by omega) (by
              rw [foldl_putCode_dord]
              simp only [HTree.codes, List.map_map, Function.comp_def, List.length_append, List.length_map]
              simp only [HTree.chars, List.length_map] at hc ⊢
              omega)
          simp only [pathBits_left, pathBits_right, List.length_append, List.length_cons, List.length_nil, zero_add] at h1 h2
          rw [h1]
          exact h2

/-- The leaves from left to right with the paths their codes spell: a tree of one Leaf gets the code `0` of length 1
(43_codegen.md R108). -/
def HTree.codePaths : HTree → List (Byte × List Bool)
  | .leaf ch => [(ch, [false])]
  | .node l r => (HTree.node l r).paths

theorem HTree.codePaths_chars (t : HTree) : t.codePaths.map Prod.fst = t.chars := by
  cases t <;> rfl

theorem HTree.codePaths_length (t : HTree) (h : t.depth ≤ 64) : ∀ x ∈ t.codePaths, 1 ≤ x.2.length ∧ x.2.length ≤ 64 := by
  cases t with
  | leaf ch => simp [HTree.codePaths]
  | node l r =>
    intro x hx
    refine ⟨?_, le_trans ((HTree.node l r).length_path_le x hx) h⟩
    simp only [HTree.codePaths, HTree.paths, List.mem_append, List.mem_map] at hx
    rcases hx with ⟨y, _, rfl⟩ | ⟨y, _, rfl⟩ <;> simp

theorem HTree.codePaths_prefix_free (t : HTree) :
    t.codePaths.Pairwise (fun x y => ¬ x.2 <+: y.2 ∧ ¬ y.2 <+: x.2) := by
  cases t with
  | leaf ch => simp [HTree.codePaths]
  | node l r => exact (HTree.node l r).paths_prefix_free

theorem HTree.codePaths_sorted (t : HTree) : (t.codePaths.map Prod.snd).Pairwise (· < ·) := by
  cases t with
  | leaf ch => simp [HTree.codePaths]
  | node l r => exact (HTree.node l r).paths_sorted

/-- The Kraft sum of the codes, in units of 2^(-64) (10_state.md R22 (b)). -/
theorem HTree.codePaths_kraft (t : HTree) (h : t.depth ≤ 64) :
    (t.codePaths.map (fun x => 2 ^ (64 - x.2.length))).sum = if t.chars.length = 1 then 2 ^ 63 else 2 ^ 64 := by
  cases t with
  | leaf ch => simp [HTree.codePaths]
  | node l r =>
    have h1 := l.length_chars_pos
    have h2 := r.length_chars_pos
    rw [if_neg (by simp; omega)]
    exact (HTree.node l r).kraft 64 h

/-- The rule of `GEN` on a queue of one entry (43_codegen.md R105). -/
theorem recordTree_tree {t : HTree} {e : PqEntry} {b : Block} (hq : b.pq = [e]) (h : IsTree b.node e.node t)
    (hd : t.depth ≤ 64) (hc : b.dord.length + t.chars.length ≤ Config.tableCap) :
    recordTree b = .ok ((t.codePaths.map (fun x => (x.1, pathCode x.2))).foldl Block.putCode b) := by
  simp only [recordTree, hq]
  cases t with
  | leaf ch =>
    cases h with
    | leaf h =>
      rw [walk_leaf h, if_pos rfl]
      refine recordCode_ok.mpr ⟨?_, by decide, rfl⟩
      simp only [HTree.chars_leaf, List.length_cons, List.length_nil] at hc; omega
  | node l r =>
    have := walk_tree (pre := []) (room := Config.maxCodeLen) h (.inr ⟨l, r, rfl⟩) hd hc
    simpa [HTree.codes, HTree.codePaths] using this

theorem recordTree_deep {t : HTree} {e : PqEntry} {b : Block} (hq : b.pq = [e]) (h : IsTree b.node e.node t)
    (hd : 64 < t.depth) (hc : b.dord.length + t.chars.length ≤ Config.tableCap) :
    recordTree b = .error (.raise .codeTooLong) := by
  simp only [recordTree, hq]
  exact walk_deep (pre := []) (room := Config.maxCodeLen) h hd hc

end Sys2Proof.Machine
end

