-- ==== Sys2Proof/Laws/Decode.lean ====
section
/-! SUPPORT. What the fields of a word say: taking a word apart and putting it together are inverse (30_encoding.md R60,
R61). -/

namespace Sys2Proof

@[simp] theorem C16.toWord_op (c : C16) : (C16.ofWord c.toWord).op = c.op := by
  obtain ⟨op, rs, d⟩ := c
  apply BitVec.eq_of_getLsbD_eq
  intro k hk
  simp only [C16.ofWord, C16.toWord, BitVec.getLsbD_extractLsb', BitVec.getLsbD_append]
  have h1 : ¬ 12 + k < 8 := by omega
  have h2 : ¬ 12 + k - 8 < 4 := by omega
  have h3 : 12 + k - 8 - 4 = k := by omega
  simp [h1, h2, h3, hk]

@[simp] theorem C16.toWord_rs (c : C16) : (C16.ofWord c.toWord).rs = c.rs := by
  obtain ⟨op, rs, d⟩ := c
  apply BitVec.eq_of_getLsbD_eq
  intro k hk
  simp only [C16.ofWord, C16.toWord, BitVec.getLsbD_extractLsb', BitVec.getLsbD_append]
  have h1 : ¬ 8 + k < 8 := by omega
  have h3 : 8 + k - 8 = k := by omega
  simp [h3, hk]

@[simp] theorem C16.toWord_d (c : C16) : (C16.ofWord c.toWord).d = c.d := by
  obtain ⟨op, rs, d⟩ := c
  apply BitVec.eq_of_getLsbD_eq
  intro k hk
  simp only [C16.ofWord, C16.toWord, BitVec.getLsbD_extractLsb', BitVec.getLsbD_append]
  simp [hk]

/-- A word is determined by its fields. -/
theorem C16.toWord_ofWord (w : Word16) : (C16.ofWord w).toWord = w := by
  apply BitVec.eq_of_getLsbD_eq
  intro k hk
  simp only [C16.ofWord, C16.toWord, BitVec.getLsbD_extractLsb', BitVec.getLsbD_append]
  by_cases h1 : k < 8
  · simp [h1]
  · by_cases h2 : k - 8 < 4
    · have h3 : 8 + (k - 8) = k := by omega
      simp [h1, h2, h3]
    · have h3 : 12 + (k - 8 - 4) = k := by omega
      have h4 : k - 8 - 4 < 4 := by omega
      simp [h1, h2, h3, h4]

theorem C16.ofWord_toWord (c : C16) : C16.ofWord c.toWord = c := by
  have h1 := C16.toWord_op c
  have h2 := C16.toWord_rs c
  have h3 := C16.toWord_d c
  generalize C16.ofWord c.toWord = c' at h1 h2 h3
  cases c; cases c'; simp_all

/-- The fields of a command's word (30_encoding.md R60). -/
@[simp] theorem ofWord_encode (i : Instr) : C16.ofWord (encode i) = ⟨i.opcode, 0, i.operand⟩ :=
  C16.ofWord_toWord _

end Sys2Proof
end

