-- ==== Sys2Proof/Laws/Decoder.lean ====
section
/-! SUPPORT. What the decoder's operations do (45_decode.md). -/

namespace Sys2Proof.Machine

/-! ## Header -/

/-- Everything `header_byte` can do when it completes (45_decode.md R132). -/
theorem headerByte_ok {d : Byte} {b b' : Block} (h : headerByte d b = .ok b') :
    (b.spos.val < 15 ∧ b' = { b.stageByte d with spos := b.spos + 1 }) ∨
    (b.spos.val = 15 ∧
      let origlen := unLe (stageSlice (b.stageByte d).stage 0 8)
      let dictsz := unLe (stageSlice (b.stageByte d).stage 8 8)
      dictsz % 16 = 0 ∧
        b' = { b.stageByte d with
          spos := 0, origlen := origlen, dictsz := dictsz,
          phase := if dictsz ≠ 0 then .decDict else payloadPhase origlen }) := by
  unfold headerByte at h
  simp only at h
  split at h
  · exact .inl ⟨‹_›, by cases h; rfl⟩
  · rename_i hs
    split at h
    · cases h
    · rename_i hm
      exact .inr ⟨by omega, by simpa [Config.recSize] using hm, by cases h; rfl⟩

theorem headerByte_error {d : Byte} {b : Block} {a : Abort} (h : headerByte d b = .error a) :
    a = .raise .formatError ∧ b.spos.val = 15 ∧ unLe (stageSlice (b.stageByte d).stage 8 8) % 16 ≠ 0 := by
  unfold headerByte at h
  simp only at h
  split at h
  · cases h
  · rename_i hs
    split at h
    · rename_i hm
      exact ⟨by cases h; rfl, by omega, by simpa [Config.recSize] using hm⟩
    · cases h

/-! ## Dictionary -/

theorem hasKey_iff {b : Block} {bits : Word64} {len : Nat} :
    b.hasKey bits len = true ↔ ∃ c, (b.code c).len = len ∧ (b.code c).bits = bits := by
  simp [Block.hasKey, codeList_eq]

/-- Everything `load_record` can do when it completes (45_decode.md R134). -/
theorem loadRecord_ok {r : DictRecord} {b b' : Block} (h : loadRecord r b = .ok b') :
    1 ≤ r.len ∧ r.len ≤ 64 ∧ (b.code r.ch).len = 0 ∧
    (¬ ∃ c, (b.code c).len = r.len.toNat ∧ (b.code c).bits = r.bits) ∧
    b' = { b.setCode r.ch ⟨r.bits, r.len.toNat⟩ with
      dord := b.dord ++ [r.ch], maxlen := max b.maxlen r.len.toNat } := by
  unfold loadRecord at h
  split at h
  · cases h
  · split at h
    · cases h
    · rename_i h1 h2
      simp only [Config.maxCodeLen, Nat.cast_ofNat, not_or, not_lt] at h2
      split at h
      · cases h
      · split at h
        · cases h
        · rename_i h3 h4
          rw [hasKey_iff] at h4
          exact ⟨by omega, h2.2, not_not.mp h3, h4, by cases h; rfl⟩

theorem loadRecord_error {r : DictRecord} {b : Block} {a : Abort} (h : loadRecord r b = .error a) :
    (a = .raise .degenerateCodeError ∧ r.len = 0) ∨
    (a = .raise .formatError ∧ r.len ≠ 0 ∧
      (r.len < 0 ∨ 64 < r.len ∨ (b.code r.ch).len ≠ 0 ∨
        ∃ c, (b.code c).len = r.len.toNat ∧ (b.code c).bits = r.bits)) := by
  unfold loadRecord at h
  split at h
  · exact .inl ⟨by cases h; rfl, ‹_›⟩
  · rename_i h1
    right
    split at h
    · rename_i h2
      exact ⟨by cases h; rfl, h1, h2.imp id (fun h => .inl (by simpa [Config.maxCodeLen] using h))⟩
    · split at h
      · exact ⟨by cases h; rfl, h1, .inr (.inr (.inl ‹_›))⟩
      · split at h
        · rename_i h4
          rw [hasKey_iff] at h4
          exact ⟨by cases h; rfl, h1, .inr (.inr (.inr h4))⟩
        · cases h

/-- Everything `dict_byte` can do when it completes (45_decode.md R133). -/
theorem dictByte_ok {d : Byte} {b b' : Block} (h : dictByte d b = .ok b') :
    (b.spos.val < 15 ∧ b' = { b.stageByte d with spos := b.spos + 1 }) ∨
    (b.spos.val = 15 ∧ ∃ b2, loadRecord (parseRecord (b.stageByte d).stage) { b.stageByte d with spos := 0 } = .ok b2 ∧
      b' = { b2 with phase := if 16 * b2.dord.length = b2.dictsz then payloadPhase b2.origlen else b2.phase }) := by
  unfold dictByte at h
  simp only at h
  split at h
  · exact .inl ⟨‹_›, by cases h; rfl⟩
  · rename_i hs
    split at h
    · cases h
    · exact .inr ⟨by omega, _, ‹_›, by cases h; rfl⟩

theorem dictByte_error {d : Byte} {b : Block} {a : Abort} (h : dictByte d b = .error a) :
    b.spos.val = 15 ∧ loadRecord (parseRecord (b.stageByte d).stage) { b.stageByte d with spos := 0 } = .error a := by
  unfold dictByte at h
  simp only at h
  split at h
  · cases h
  · rename_i hs
    split at h
    · exact ⟨by omega, by cases h; assumption⟩
    · cases h

/-! ## Bit stage -/

theorem lookup_some {b : Block} {v : BitVec 65} {n : Nat} {ch : Byte} (h : lookup b v n = some ch) :
    n ≤ 64 ∧ (b.code ch).len = n ∧ (b.code ch).bits.setWidth 65 = v := by
  unfold lookup at h
  split at h
  · cases h
  · rename_i hn
    obtain ⟨x, hx, rfl⟩ := Option.map_eq_some_iff.mp h
    have h1 := List.find?_some hx
    simp only [decide_eq_true_eq] at h1
    have h2 := List.mem_of_find?_eq_some hx
    rw [codeList_eq, List.mem_map] at h2
    obtain ⟨c, _, rfl⟩ := h2
    exact ⟨by simpa [Config.maxCodeLen] using hn, h1⟩

theorem lookup_none {b : Block} {v : BitVec 65} {n : Nat} (hn : n ≤ 64) :
    lookup b v n = none ↔ ∀ c, ¬ ((b.code c).len = n ∧ (b.code c).bits.setWidth 65 = v) := by
  unfold lookup
  rw [if_neg (by simpa [Config.maxCodeLen] using hn)]
  simp [codeList_eq]

/-- The lookup reads the code table alone. -/
theorem lookup_congr {a b : Block} (h : a.ct = b.ct) (v : BitVec 65) (n : Nat) : lookup a v n = lookup b v n := by
  simp [lookup, Block.codeList, h]

/-- `b'` differs from `b` in the automaton's registers, `OUTN` and `PHASE` alone. -/
def SameButAutomaton (b b' : Block) : Prop :=
  b' = { b with accbits := b'.accbits, acclen := b'.acclen, outn := b'.outn, phase := b'.phase }

theorem SameButAutomaton.refl (b : Block) : SameButAutomaton b b := rfl

theorem SameButAutomaton.trans {a b c : Block} (h1 : SameButAutomaton a b) (h2 : SameButAutomaton b c) :
    SameButAutomaton a c := by
  unfold SameButAutomaton at *
  rw [h1] at h2
  exact h2

theorem bitsLoop_frame {bits : List Bool} {b b' : Block} {out out' : List Byte}
    (h : bitsLoop bits b out = .ok (b', out')) : SameButAutomaton b b' := by
  induction bits generalizing b out with
  | nil => cases h; exact SameButAutomaton.refl _
  | cons bit rest ih =>
    unfold bitsLoop at h
    simp only at h
    split at h
    · split at h
      · cases h; rfl
      · have h1 := ih h
        unfold SameButAutomaton at h1 ⊢
        rw [h1]
    · split at h
      · cases h
      · have h1 := ih h
        unfold SameButAutomaton at h1 ⊢
        rw [h1]

theorem bitsLoop_error {bits : List Bool} {b : Block} {out : List Byte} {a : Abort}
    (h : bitsLoop bits b out = .error a) : a = .raise .corruptStream := by
  induction bits generalizing b out with
  | nil => cases h
  | cons bit rest ih =>
    unfold bitsLoop at h
    simp only at h
    split at h
    · split at h
      · cases h
      · exact ih h
    · split at h
      · cases h; rfl
      · exact ih h

/-- The loop puts its bytes behind those it was given, one for each count of `OUTN`; it ends in `DEC_DONE` only when the
count has reached `ORIGLEN` (45_decode.md R135, R145). -/
theorem bitsLoop_counts {bits : List Bool} {b b' : Block} {out out' : List Byte}
    (h : bitsLoop bits b out = .ok (b', out')) :
    ∃ new, out' = out ++ new ∧ b'.outn = b.outn + new.length ∧ new.length ≤ bits.length ∧
      (b'.phase = b.phase ∨
        (b'.phase = .decDone ∧ b'.outn = b'.origlen ∧ b'.accbits = 0 ∧ b'.acclen = 0)) := by
  induction bits generalizing b out with
  | nil => cases h; exact ⟨[], by simp⟩
  | cons bit rest ih =>
    unfold bitsLoop at h
    simp only at h
    split at h
    · rename_i ch _
      split at h
      · rename_i hd
        cases h
        exact ⟨[ch], by simp, rfl, by simp, .inr ⟨rfl, hd, rfl, rfl⟩⟩
      · obtain ⟨new, h1, h2, h3, h4⟩ := ih h
        exact ⟨ch :: new, by simp [h1], by simp [h2]; omega, by simp; omega, h4⟩
    · split at h
      · cases h
      · obtain ⟨new, h1, h2, h3, h4⟩ := ih h
        exact ⟨new, h1, h2, by simp; omega, h4⟩

/-! ## The accumulator -/

theorem accumulate_toNat (acc : Word64) (bit : Bool) : (accumulate acc bit).toNat = 2 * acc.toNat + bit.toNat := by
  unfold accumulate
  rw [BitVec.toNat_append, Nat.shiftLeft_eq, BitVec.toNat_ofBool, pow_one, Nat.mul_comm]
  have := Bool.toNat_lt bit
  rw [← Nat.two_pow_add_eq_or_of_lt (i := 1) (by simpa using this)]

/-- The accumulator with one bit more, as long as it fits its register (45_decode.md R135). -/
theorem accumulate_setWidth (acc : Word64) (bit : Bool) (n : Nat) (hn : n < 64) (h : acc.toNat < 2 ^ n) :
    (accumulate acc bit).setWidth 64 = acc <<< 1 ||| (if bit then 1 else 0) ∧
      ((accumulate acc bit).setWidth 64).toNat = 2 * acc.toNat + bit.toNat ∧ 2 * acc.toNat + bit.toNat < 2 ^ (n + 1) := by
  have hb := Bool.toNat_lt bit
  have hlt : 2 * acc.toNat + bit.toNat < 2 ^ (n + 1) := by rw [pow_succ]; omega
  have h64 : 2 ^ (n + 1) ≤ 2 ^ 64 := Nat.pow_le_pow_right (by decide) (by omega)
  have h1 : ((accumulate acc bit).setWidth 64).toNat = 2 * acc.toNat + bit.toNat := by
    rw [BitVec.toNat_setWidth, accumulate_toNat, Nat.mod_eq_of_lt (by omega)]
  refine ⟨?_, h1, hlt⟩
  apply BitVec.eq_of_toNat_eq
  rw [h1, BitVec.toNat_or, BitVec.toNat_shiftLeft, Nat.shiftLeft_eq, pow_one, Nat.mod_eq_of_lt (by omega),
    Nat.mul_comm acc.toNat 2, show (if bit then (1 : Word64) else 0).toNat = bit.toNat by cases bit <;> rfl]
  have := Nat.two_pow_add_eq_or_of_lt (i := 1) (b := bit.toNat) (by simpa using hb) acc.toNat
  simpa using this

/-- The pending bits with one bit more. -/
theorem pending_snoc (acc : Word64) (bit : Bool) (n : Nat) (hn : n < 64) (h : acc.toNat < 2 ^ n) :
    codeBits ⟨(accumulate acc bit).setWidth 64, n + 1⟩ = codeBits ⟨acc, n⟩ ++ [bit] := by
  rw [(accumulate_setWidth acc bit n hn h).1, codeBits_snoc acc n bit hn]

/-- A code matches the accumulated value exactly when it is the accumulated code, as long as it fits its register
(45_decode.md R136). -/
theorem matches_iff (bits acc : Word64) (bit : Bool) (n : Nat) (hn : n < 64) (h : acc.toNat < 2 ^ n) :
    bits.setWidth 65 = accumulate acc bit ↔ bits = (accumulate acc bit).setWidth 64 := by
  have h2 := (accumulate_setWidth acc bit n hn h).2.1
  rw [← BitVec.toNat_inj, ← BitVec.toNat_inj, h2, accumulate_toNat, BitVec.toNat_setWidth,
    Nat.mod_eq_of_lt (by have := bits.isLt; omega)]

/-! ## The bit stage as a whole -/

/-- What the bit stage may assume of the block between two bits (10_state.md R22, R27 to R29). -/
structure BitStage (b : Block) : Prop where
  listed : ∀ c, (b.code c).len ≠ 0 ↔ c ∈ b.dord
  maxlen_le : b.maxlen ≤ 64
  maxlen_bound : ∀ c, (b.code c).len ≤ b.maxlen
  acclen_le : b.acclen ≤ b.maxlen
  accbits_lt : b.accbits.toNat < 2 ^ b.acclen
  unmatched : b.acclen ≠ 0 → ∀ c, b.code c ≠ ⟨b.accbits, b.acclen⟩
  no_prefix : ∀ c ∈ b.dord, (b.code c).bits.toNat < 2 ^ (b.code c).len → ¬ (codeBits (b.code c)).IsPrefix (pendingBits b)
  outn_lt : b.outn < b.origlen

theorem pendingBits_nil {b : Block} (h : b.acclen = 0) : pendingBits b = [] := by simp [pendingBits, codeBits, h]

/-- A match that is not the last one leaves the automaton in its initial state (45_decode.md R137). -/
theorem BitStage.emit {b : Block} (h : BitStage b) (ho : b.outn + 1 ≠ b.origlen) :
    BitStage { b with accbits := 0, acclen := 0, outn := b.outn + 1 } where
  listed := h.listed
  maxlen_le := h.maxlen_le
  maxlen_bound := h.maxlen_bound
  acclen_le := Nat.zero_le _
  accbits_lt := by simp
  unmatched := fun hn => absurd rfl hn
  no_prefix := by
    intro c hc _ hpre
    have hl := hpre.length_le
    rw [pendingBits_nil rfl, codeBits_length, List.length_nil, Nat.le_zero] at hl
    exact (h.listed c).mpr hc hl
  outn_lt := by have := h.outn_lt; simp only; omega

/-- A bit that makes no match is accumulated (45_decode.md R135). -/
theorem BitStage.next {b : Block} (h : BitStage b) {bit : Bool}
    (hl : lookup b (accumulate b.accbits bit) (b.acclen + 1) = none) (hm : b.acclen + 1 ≤ b.maxlen) :
    BitStage { b with accbits := (accumulate b.accbits bit).setWidth 64, acclen := b.acclen + 1 } := by
  have hml := h.maxlen_le
  have h64 : b.acclen < 64 := by omega
  obtain ⟨_, e2, e3⟩ := accumulate_setWidth b.accbits bit b.acclen h64 h.accbits_lt
  have hno : ∀ c, b.code c ≠ ⟨(accumulate b.accbits bit).setWidth 64, b.acclen + 1⟩ := by
    intro c hc
    apply (lookup_none (by omega)).mp hl c
    rw [hc]
    exact ⟨rfl, (matches_iff _ _ bit _ h64 h.accbits_lt).mpr rfl⟩
  refine ⟨h.listed, hml, h.maxlen_bound, hm, by rw [e2]; exact e3, fun _ => hno, ?_, h.outn_lt⟩
  intro c hc hb hpre
  change (codeBits (b.code c)).IsPrefix
    (codeBits ⟨(accumulate b.accbits bit).setWidth 64, b.acclen + 1⟩) at hpre
  change (b.code c).bits.toNat < 2 ^ (b.code c).len at hb
  rw [pending_snoc _ _ _ h64 h.accbits_lt, List.prefix_concat_iff] at hpre
  rcases hpre with hpre | hpre
  · rw [← pending_snoc _ _ _ h64 h.accbits_lt] at hpre
    exact hno c (codeBits_inj (le_trans (h.maxlen_bound c) hml) hb (by simp only; rw [e2]; exact e3) hpre)
  · exact h.no_prefix c hc hb hpre

/-- A match spells the pending bits and the new one (45_decode.md R136). -/
theorem BitStage.matched {b : Block} (h : BitStage b) {bit : Bool} {ch : Byte}
    (hl : lookup b (accumulate b.accbits bit) (b.acclen + 1) = some ch) :
    codeBits (b.code ch) = pendingBits b ++ [bit] ∧ ch ∈ b.dord := by
  obtain ⟨h1, h2, h3⟩ := lookup_some hl
  have h64 : b.acclen < 64 := by omega
  rw [matches_iff _ _ _ _ h64 h.accbits_lt] at h3
  have hc : b.code ch = ⟨(accumulate b.accbits bit).setWidth 64, b.acclen + 1⟩ := by
    cases hcc : b.code ch
    rw [hcc] at h2 h3
    simp only at h2 h3
    rw [h2, h3]
  constructor
  · rw [hc, pending_snoc _ _ _ h64 h.accbits_lt]
    rfl
  · rw [← h.listed, h2]
    omega

/-- Everything the bit stage does with the bits it is given: `k` of them are consumed; with the pending ones they make up
the codes of the bytes put out and what is pending then; the loop ends when all bits are consumed or the last byte is out,
and the bits behind it make no difference (45_decode.md R135 to R137). -/
theorem bitsLoop_spec {bits : List Bool} {b b' : Block} {out out' : List Byte} (hw : BitStage b) (hp : b.phase = .decBits)
    (h : bitsLoop bits b out = .ok (b', out')) :
    ∃ new k, out' = out ++ new ∧ k ≤ bits.length ∧ new.length ≤ k ∧ b'.outn = b.outn + new.length ∧
      pendingBits b ++ bits.take k = new.flatMap (fun c => codeBits (b.code c)) ++ pendingBits b' ∧
      (∀ c ∈ new, c ∈ b.dord) ∧
      ((b'.phase = .decBits ∧ k = bits.length ∧ BitStage b') ∨
       (b'.phase = .decDone ∧ b'.outn = b'.origlen ∧ b'.accbits = 0 ∧ b'.acclen = 0 ∧
         ∀ bits' : List Bool, bits'.take k = bits.take k → bits'.length = bits.length →
           bitsLoop bits' b out = .ok (b', out'))) := by
  induction bits generalizing b out with
  | nil => cases h; exact ⟨[], 0, by simp [hp, hw]⟩
  | cons bit rest ih =>
    unfold bitsLoop at h
    simp only at h
    split at h
    · rename_i ch hl
      obtain ⟨hm1, hm2⟩ := hw.matched hl
      split at h
      · rename_i hd
        cases h
        refine ⟨[ch], 1, rfl, by simp, by simp, rfl, ?_, by simpa using hm2, .inr ⟨rfl, hd, rfl, rfl, ?_⟩⟩
        · simp only [List.take_succ_cons, List.take_zero, List.flatMap_cons, List.flatMap_nil, List.append_nil, hm1]
          exact (List.append_nil _).symm
        · intro bits' ht hlen
          cases bits' with
          | nil => simp at hlen
          | cons bit' rest' =>
            simp at ht
            subst ht
            unfold bitsLoop
            simp only [hl]
            rw [if_pos hd]
      · rename_i hd
        obtain ⟨new, k, e1, e2, e3, e4, e5, e6, e7⟩ := ih (hw.emit hd) hp h
        refine ⟨ch :: new, k + 1, by simp [e1], by simp; omega, by simp; omega, by rw [e4]; simp; omega, ?_, ?_, ?_⟩
        · rw [pendingBits_nil rfl, List.nil_append] at e5
          simp only [List.take_succ_cons, List.flatMap_cons, hm1, List.append_assoc]
          rw [e5]
          rfl
        · intro c hc
          rcases List.mem_cons.mp hc with rfl | hc
          · exact hm2
          · exact e6 c hc
        · rcases e7 with ⟨f1, f2, f3⟩ | ⟨f1, f2, f3, f4, f5⟩
          · exact .inl ⟨f1, by simp [f2], f3⟩
          · refine .inr ⟨f1, f2, f3, f4, ?_⟩
            intro bits' ht hlen
            cases bits' with
            | nil => simp at hlen
            | cons bit' rest' =>
              simp at ht hlen
              obtain ⟨rfl, ht⟩ := ht
              unfold bitsLoop
              simp only [hl]
              rw [if_neg hd]
              exact f5 rest' ht hlen
    · rename_i hl
      split at h
      · cases h
      · rename_i hm
        have hml := hw.maxlen_le
        obtain ⟨new, k, e1, e2, e3, e4, e5, e6, e7⟩ := ih (hw.next hl (by omega)) hp h
        refine ⟨new, k + 1, e1, by simp; omega, by omega, e4, ?_, e6, ?_⟩
        · have e6 : codeBits ⟨(accumulate b.accbits bit).setWidth 64, b.acclen + 1⟩ ++ rest.take k =
              new.flatMap (fun c => codeBits (b.code c)) ++ pendingBits b' := e5
          rw [pending_snoc _ _ _ (by omega) hw.accbits_lt, List.append_assoc] at e6
          exact e6
        · rcases e7 with ⟨f1, f2, f3⟩ | ⟨f1, f2, f3, f4, f5⟩
          · exact .inl ⟨f1, by simp [f2], f3⟩
          · refine .inr ⟨f1, f2, f3, f4, ?_⟩
            intro bits' ht hlen
            cases bits' with
            | nil => simp at hlen
            | cons bit' rest' =>
              simp at ht hlen
              obtain ⟨rfl, ht⟩ := ht
              unfold bitsLoop
              simp only [hl]
              rw [if_neg hm]
              exact f5 rest' ht hlen

/-! ## The commands' rules -/

/-- Everything the rule of `DEC` can do when it completes (45_decode.md R131). -/
theorem decRule_ok {d : Byte} {b : Block} {r : Done} (h : decRule d b = .ok r) :
    (b.phase = .decHdr ∧ ∃ b', headerByte d b = .ok b' ∧ r = b'.done) ∨
    (b.phase = .decDict ∧ ∃ b', dictByte d b = .ok b' ∧ r = b'.done) ∨
    (b.phase = .decBits ∧ ∃ b' out, bitsLoop (byteBits d) b [] = .ok (b', out) ∧
      r = { block := b', out := out, rsp := .ok }) ∨
    (b.phase = .decDone ∧ r = b.done) := by
  unfold decRule at h
  split at h
  · split at h
    · cases h
    · exact .inl ⟨‹_›, _, ‹_›, by cases h; rfl⟩
  · split at h
    · cases h
    · exact .inr (.inl ⟨‹_›, _, ‹_›, by cases h; rfl⟩)
  · split at h
    · cases h
    · exact .inr (.inr (.inl ⟨‹_›, _, _, ‹_›, by cases h; rfl⟩))
  · exact .inr (.inr (.inr ⟨‹_›, by cases h; rfl⟩))
  all_goals cases h

theorem decRule_error {d : Byte} {b : Block} {a : Abort} (h : decRule d b = .error a)
    (hp : mayExecute (.dec d) b.phase) :
    (b.phase = .decHdr ∧ headerByte d b = .error a) ∨
    (b.phase = .decDict ∧ dictByte d b = .error a) ∨
    (b.phase = .decBits ∧ bitsLoop (byteBits d) b [] = .error a) := by
  unfold decRule at h
  split at h
  · split at h
    · exact .inl ⟨‹_›, by cases h; assumption⟩
    · cases h
  · split at h
    · exact .inr (.inl ⟨‹_›, by cases h; assumption⟩)
    · cases h
  · split at h
    · exact .inr (.inr ⟨‹_›, by cases h; assumption⟩)
    · cases h
  · cases h
  all_goals simp_all [mayExecute]

theorem decendRule_ok {b : Block} {r : Done} (h : decendRule b = .ok r) : b.phase = .decDone ∧ r = b.done := by
  unfold decendRule at h
  split at h
  case h_4 => exact ⟨‹_›, by cases h; rfl⟩
  all_goals cases h

theorem decendRule_error {b : Block} {a : Abort} (h : decendRule b = .error a) (hp : mayExecute .decend b.phase) :
    ((b.phase = .decHdr ∨ b.phase = .decDict) ∧ a = .raise .formatError) ∨
    (b.phase = .decBits ∧ a = .raise .corruptStream) := by
  unfold decendRule at h
  split at h
  all_goals first
    | (cases h; done)
    | (cases h; simp_all [mayExecute])

end Sys2Proof.Machine
end

