-- ==== Sys2Proof/Laws/Tree.lean ====
section
/-! SUPPORT. What the tree builder's operations do (42_tree.md): one lemma per operation says everything it can do when it
completes, and when it aborts. -/

namespace Sys2Proof.Machine

/-! ## Arena reads -/

theorem weightAt_ok {arena : List Node} {n w : Nat} :
    weightAt arena n = .ok w ↔ (arena[n]?).map Node.weight = some w := by
  unfold weightAt nodeAt
  cases arena[n]? <;> simp

theorem weightAt_error {arena : List Node} {n : Nat} {a : Abort} (h : weightAt arena n = .error a) :
    a = .stop .absentNode ∧ arena[n]? = none := by
  unfold weightAt nodeAt at h
  cases hn : arena[n]? with
  | none => simp only [hn, Except.error.injEq] at h; exact ⟨h.symm, rfl⟩
  | some x => simp [hn] at h

theorem entryWeights_ok {arena : List Node} {es : List PqEntry} {ws : List Nat} :
    entryWeights arena es = .ok ws ↔ es.map (entryWeight? arena) = ws.map some := by
  induction es generalizing ws with
  | nil => cases ws <;> simp [entryWeights]
  | cons e es ih =>
    cases hw : weightAt arena e.node with
    | error a =>
      have h := (weightAt_error hw).2
      cases ws <;> simp [entryWeights, hw, entryWeight?, h]
    | ok w =>
      have h := weightAt_ok.mp hw
      cases hes : entryWeights arena es with
      | error a =>
        have hno : ∀ vs : List Nat, es.map (entryWeight? arena) ≠ vs.map some := by
          intro vs hvs
          rw [← ih (ws := vs)] at hvs
          rw [hvs] at hes
          cases hes
        cases ws with
        | nil => simp [entryWeights, hw, hes]
        | cons v vs => simp [entryWeights, hw, hes, hno vs]
      | ok vs =>
        have hvs := ih.mp hes
        cases ws with
        | nil => simp [entryWeights, hw, hes]
        | cons u us =>
          simp only [entryWeights, hw, hes, Except.ok.injEq, List.cons.injEq, List.map_cons]
          unfold entryWeight? at hvs ⊢
          rw [h, hvs]
          simp [List.map_inj_right (f := some) (fun _ _ h => Option.some.inj h)]

theorem entryWeights_error {arena : List Node} {es : List PqEntry} {a : Abort} (h : entryWeights arena es = .error a) :
    a = .stop .absentNode ∧ ∃ e ∈ es, arena[e.node]? = none := by
  induction es with
  | nil => cases h
  | cons e es ih =>
    unfold entryWeights at h
    split at h
    · rename_i hw
      cases h
      exact ⟨(weightAt_error hw).1, e, by simp, (weightAt_error hw).2⟩
    · split at h
      · rename_i hes
        cases h
        obtain ⟨h1, e', he', h2⟩ := ih hes
        exact ⟨h1, e', by simp [he'], h2⟩
      · cases h

/-! ## Primitives -/

theorem alloc_ok {x : Node} {b b' : Block} {i : Nat} :
    alloc x b = .ok (i, b') ↔
      b.node.length ≠ Config.nodeCap ∧ i = b.node.length ∧ b' = { b with node := b.node ++ [x] } := by
  unfold alloc
  split
  · simp_all
  · simp_all [eq_comm]

theorem alloc_error {x : Node} {b : Block} {a : Abort} (h : alloc x b = .error a) :
    b.node.length = Config.nodeCap ∧ a = .raise .allocationFailure := by
  unfold alloc at h
  split at h
  · exact ⟨‹_›, by cases h; rfl⟩
  · cases h

/-- The queue after an insertion: the new entry behind every entry of weight at most its own (42_tree.md R91). -/
def inserted (ws : List Nat) (w : Nat) (q : List PqEntry) (e : PqEntry) : List PqEntry :=
  q.take (ws.countP (· ≤ w)) ++ [e] ++ q.drop (ws.countP (· ≤ w))

theorem inserted_perm (ws : List Nat) (w : Nat) (q : List PqEntry) (e : PqEntry) :
    (inserted ws w q e).Perm (e :: q) := by
  unfold inserted
  rw [List.append_assoc, List.singleton_append]
  exact List.perm_middle.trans (List.Perm.cons e (by rw [List.take_append_drop]))

@[simp] theorem inserted_length (ws : List Nat) (w : Nat) (q : List PqEntry) (e : PqEntry) :
    (inserted ws w q e).length = q.length + 1 := by
  simpa using (inserted_perm ws w q e).length_eq

theorem pqInsert_ok {n : Nat} {b b' : Block} :
    pqInsert n b = .ok b' ↔
      ∃ w ws, (b.node[n]?).map Node.weight = some w ∧ b.pq.map (entryWeight? b.node) = ws.map some ∧
        b' = { b with pq := inserted ws w b.pq ⟨n, b.seq⟩, seq := b.seq + 1 } := by
  constructor
  · intro h
    unfold pqInsert at h
    split at h
    · cases h
    · rename_i w hw
      split at h
      · cases h
      · rename_i ws hws
        exact ⟨w, ws, weightAt_ok.mp hw, entryWeights_ok.mp hws, by cases h; rfl⟩
  · rintro ⟨w, ws, hw, hws, rfl⟩
    simp [pqInsert, weightAt_ok.mpr hw, entryWeights_ok.mpr hws, inserted]

theorem pqInsert_error {n : Nat} {b : Block} {a : Abort} (h : pqInsert n b = .error a) :
    a = .stop .absentNode ∧ (b.node[n]? = none ∨ ∃ e ∈ b.pq, b.node[e.node]? = none) := by
  unfold pqInsert at h
  split at h
  · rename_i hw
    cases h
    exact ⟨(weightAt_error hw).1, .inl (weightAt_error hw).2⟩
  · split at h
    · rename_i hws
      cases h
      exact ⟨(entryWeights_error hws).1, .inr (entryWeights_error hws).2⟩
    · cases h

theorem pqPopTwo_ok {b b' : Block} {x y : PqEntry} :
    pqPopTwo b = .ok (x, y, b') ↔ ∃ rest, b.pq = x :: y :: rest ∧ b' = { b with pq := rest } := by
  constructor
  · intro h
    unfold pqPopTwo at h
    split at h
    · rename_i u v rest hq
      cases h
      exact ⟨rest, hq, rfl⟩
    · cases h
  · rintro ⟨rest, hq, rfl⟩
    simp [pqPopTwo, hq]

theorem pqPopTwo_error {b : Block} {a : Abort} (h : pqPopTwo b = .error a) :
    a = .raise .emptyQueue ∧ b.pq.length < 2 := by
  unfold pqPopTwo at h
  split at h
  · cases h
  · rename_i hq
    refine ⟨by cases h; rfl, ?_⟩
    rcases hp : b.pq with _ | ⟨x, _ | ⟨y, rest⟩⟩
    · simp
    · simp
    · exact absurd hp (hq x y rest)

/-! ## Seeding -/

/-- Everything `seedOne` can do when it completes. -/
theorem seedOne_ok {c : Byte} {n : Nat} {b b' : Block} (h : seedOne c n b = .ok b') :
    (n = 0 ∧ b' = b) ∨
    (n ≠ 0 ∧ b.node.length ≠ Config.nodeCap ∧
      ∃ ws, b.pq.map (entryWeight? (b.node ++ [Node.leaf c n])) = ws.map some ∧
        b' = { b with
          node := b.node ++ [Node.leaf c n],
          pq := inserted ws n b.pq ⟨b.node.length, b.seq⟩,
          seq := b.seq + 1 }) := by
  unfold seedOne at h
  split at h
  · exact .inl ⟨‹_›, by cases h; rfl⟩
  · rename_i hc
    split at h
    · cases h
    · rename_i i b1 ha
      obtain ⟨hcap, rfl, rfl⟩ := alloc_ok.mp ha
      obtain ⟨w, ws, hw, hws, rfl⟩ := pqInsert_ok.mp h
      simp only [List.getElem?_concat_length, Option.map_some, Option.some.injEq] at hw
      subst hw
      exact .inr ⟨hc, hcap, ws, hws, rfl⟩

/-- `b'` differs from `b` in arena, queue and insertion counter alone. -/
def SameButTree (b b' : Block) : Prop := b' = { b with node := b'.node, pq := b'.pq, seq := b'.seq }

theorem SameButTree.refl (b : Block) : SameButTree b b := rfl

theorem SameButTree.trans {a b c : Block} (h1 : SameButTree a b) (h2 : SameButTree b c) : SameButTree a c := by
  unfold SameButTree at *
  rw [h1] at h2
  exact h2

theorem seedOne_frame {c : Byte} {n : Nat} {b b' : Block} (h : seedOne c n b = .ok b') : SameButTree b b' := by
  rcases seedOne_ok h with ⟨_, rfl⟩ | ⟨_, _, ws, _, rfl⟩ <;> rfl

theorem seedFrom_frame {cs : List (Byte × Nat)} {b b' : Block} (h : seedFrom cs b = .ok b') : SameButTree b b' := by
  induction cs generalizing b with
  | nil => cases h; exact SameButTree.refl _
  | cons c cs ih =>
    unfold seedFrom at h
    split at h
    · cases h
    · exact (seedOne_frame ‹_›).trans (ih h)

theorem seed_frame {b b' : Block} (h : seed b = .ok b') : SameButTree b b' := seedFrom_frame h

/-! ## Merging -/

/-- Everything `mergeStep` can do when it completes (42_tree.md R94). -/
theorem mergeStep_ok {b b' : Block} :
    mergeStep b = .ok b' ↔
      ∃ x y rest wx wy ws, b.pq = x :: y :: rest ∧ entryWeight? b.node x = some wx ∧ entryWeight? b.node y = some wy ∧
        b.node.length ≠ Config.nodeCap ∧
        rest.map (entryWeight? (b.node ++ [Node.internal (wx + wy) x.node y.node])) = ws.map some ∧
        b' = { b with
          node := b.node ++ [Node.internal (wx + wy) x.node y.node],
          pq := inserted ws (wx + wy) rest ⟨b.node.length, b.seq⟩,
          seq := b.seq + 1 } := by
  constructor
  · intro h
    unfold mergeStep at h
    split at h
    · cases h
    · rename_i x y b1 hpop
      obtain ⟨rest, hq, rfl⟩ := pqPopTwo_ok.mp hpop
      split at h
      · cases h
      · rename_i wx hx
        split at h
        · cases h
        · rename_i wy hy
          split at h
          · cases h
          · rename_i i b2 ha
            obtain ⟨hcap, rfl, rfl⟩ := alloc_ok.mp ha
            obtain ⟨w, ws, hw, hws, rfl⟩ := pqInsert_ok.mp h
            simp only [List.getElem?_concat_length, Option.map_some, Option.some.injEq] at hw
            subst hw
            exact ⟨x, y, rest, wx, wy, ws, hq, weightAt_ok.mp hx, weightAt_ok.mp hy, hcap, hws, rfl⟩
  · rintro ⟨x, y, rest, wx, wy, ws, hq, hx, hy, hcap, hws, rfl⟩
    have hpop : pqPopTwo b = .ok (x, y, { b with pq := rest }) := pqPopTwo_ok.mpr ⟨rest, hq, rfl⟩
    have ha : alloc (.internal (wx + wy) x.node y.node) { b with pq := rest } =
        .ok (b.node.length, { b with pq := rest, node := b.node ++ [.internal (wx + wy) x.node y.node] }) :=
      alloc_ok.mpr ⟨hcap, rfl, rfl⟩
    simp only [mergeStep, hpop, weightAt_ok.mpr hx, weightAt_ok.mpr hy, ha]
    exact pqInsert_ok.mpr ⟨wx + wy, ws, by simp [Node.weight], hws, rfl⟩

theorem mergeStep_frame {b b' : Block} (h : mergeStep b = .ok b') : SameButTree b b' := by
  obtain ⟨x, y, rest, wx, wy, ws, _, _, _, _, _, rfl⟩ := mergeStep_ok.mp h
  rfl

/-- Each merge lowers `QLEN` by one and appends one node (42_tree.md R94). -/
theorem mergeStep_lengths {b b' : Block} (h : mergeStep b = .ok b') :
    b'.pq.length + 1 = b.pq.length ∧ b'.node.length = b.node.length + 1 ∧ b'.seq = b.seq + 1 := by
  obtain ⟨x, y, rest, wx, wy, ws, hq, _, _, _, _, rfl⟩ := mergeStep_ok.mp h
  simp [hq]

theorem mergeStep_error {b : Block} {a : Abort} (h : mergeStep b = .error a) :
    (a = .raise .emptyQueue ∧ b.pq.length < 2) ∨
    (a = .raise .allocationFailure ∧ b.node.length = Config.nodeCap) ∨
    (a = .stop .absentNode ∧ ∃ e ∈ b.pq, b.node[e.node]? = none) := by
  unfold mergeStep at h
  split at h
  · rename_i hpop
    cases h
    exact .inl (pqPopTwo_error hpop)
  · rename_i x y b1 hpop
    obtain ⟨rest, hq, rfl⟩ := pqPopTwo_ok.mp hpop
    split at h
    · rename_i hx
      cases h
      exact .inr (.inr ⟨(weightAt_error hx).1, x, by simp [hq], (weightAt_error hx).2⟩)
    · split at h
      · rename_i hy
        cases h
        exact .inr (.inr ⟨(weightAt_error hy).1, y, by simp [hq], (weightAt_error hy).2⟩)
      · split at h
        · rename_i ha
          cases h
          exact .inr (.inl ⟨(alloc_error ha).2, (alloc_error ha).1⟩)
        · rename_i i b2 ha
          obtain ⟨hcap, rfl, rfl⟩ := alloc_ok.mp ha
          obtain ⟨h1, h2⟩ := pqInsert_error h
          refine .inr (.inr ⟨h1, ?_⟩)
          rcases h2 with h2 | ⟨e, he, h2⟩
          · simp at h2
          · refine ⟨e, by simp [hq]; exact .inr (.inr he), ?_⟩
            rw [List.getElem?_eq_none_iff] at h2 ⊢
            simp at h2
            omega

/-- Everything the loop of `BUILD` can do when it completes: it ends by its own test (42_tree.md R99). -/
theorem mergeWhile_ok {k : Nat} {b b' : Block} (h : mergeWhile k b = .ok b') (hk : b.pq.length ≤ k + 1) :
    SameButTree b b' ∧ b'.pq.length ≤ 1 := by
  induction k generalizing b with
  | zero => cases h; exact ⟨SameButTree.refl _, hk⟩
  | succ k ih =>
    unfold mergeWhile at h
    split at h
    · split at h
      · cases h
      · rename_i b1 hm
        have hl := (mergeStep_lengths hm).1
        obtain ⟨h1, h2⟩ := ih h (by omega)
        exact ⟨(mergeStep_frame hm).trans h1, h2⟩
    · cases h
      exact ⟨SameButTree.refl _, by omega⟩

theorem mergeWhile_error {k : Nat} {b : Block} {a : Abort} (h : mergeWhile k b = .error a) :
    a = .raise .allocationFailure ∨ a = .stop .absentNode := by
  induction k generalizing b with
  | zero => cases h
  | succ k ih =>
    unfold mergeWhile at h
    split at h
    · split at h
      · rename_i hm
        cases h
        rcases mergeStep_error hm with ⟨_, h2⟩ | ⟨h1, _⟩ | ⟨h1, _⟩
        · omega
        · exact .inl h1
        · exact .inr h1
      · exact ih h
    · cases h

theorem seedOne_error {c : Byte} {n : Nat} {b : Block} {a : Abort} (h : seedOne c n b = .error a) :
    (a = .raise .allocationFailure ∧ b.node.length = Config.nodeCap) ∨
    (a = .stop .absentNode ∧ ∃ e ∈ b.pq, b.node[e.node]? = none) := by
  unfold seedOne at h
  split at h
  · cases h
  · split at h
    · rename_i ha
      cases h
      exact .inl ⟨(alloc_error ha).2, (alloc_error ha).1⟩
    · rename_i i b1 ha
      obtain ⟨hcap, rfl, rfl⟩ := alloc_ok.mp ha
      obtain ⟨h1, h2⟩ := pqInsert_error h
      refine .inr ⟨h1, ?_⟩
      rcases h2 with h2 | ⟨e, he, h2⟩
      · simp at h2
      · refine ⟨e, he, ?_⟩
        rw [List.getElem?_eq_none_iff] at h2 ⊢
        simp at h2
        omega

theorem seedFrom_error {cs : List (Byte × Nat)} {b : Block} {a : Abort} (h : seedFrom cs b = .error a) :
    a = .raise .allocationFailure ∨ a = .stop .absentNode := by
  induction cs generalizing b with
  | nil => cases h
  | cons c cs ih =>
    unfold seedFrom at h
    split at h
    · rename_i h1
      cases h
      rcases seedOne_error h1 with ⟨h2, _⟩ | ⟨h2, _⟩
      · exact .inl h2
      · exact .inr h2
    · exact ih h

/-! ## The commands' rules -/

theorem seedRule_ok {b : Block} {r : Done} (h : seedRule b = .ok r) :
    ∃ b', seed b = .ok b' ∧ r = { block := { b' with phase := .tree }, out := [], rsp := seedResponse b' } := by
  unfold seedRule at h
  split at h
  · cases h
  · exact ⟨_, ‹_›, by cases h; rfl⟩

theorem mergeRule_ok {b : Block} {r : Done} (h : mergeRule b = .ok r) :
    ∃ b', mergeStep b = .ok b' ∧ r = b'.done := by
  unfold mergeRule at h
  split at h
  · cases h
  · exact ⟨_, ‹_›, by cases h; rfl⟩

theorem buildRule_ok {b : Block} {r : Done} (h : buildRule b = .ok r) :
    ∃ b1 b2, seed b = .ok b1 ∧ mergeWhile b1.pq.length b1 = .ok b2 ∧
      r = { block := { b2 with phase := .tree }, out := [], rsp := seedResponse b1 } := by
  unfold buildRule at h
  split at h
  · cases h
  · split at h
    · cases h
    · exact ⟨_, _, ‹_›, ‹_›, by cases h; rfl⟩

theorem seedRule_error {b : Block} {a : Abort} (h : seedRule b = .error a) :
    a = .raise .allocationFailure ∨ a = .stop .absentNode := by
  unfold seedRule at h
  split at h
  · rename_i h1
    cases h
    exact seedFrom_error h1
  · cases h

theorem mergeRule_error {b : Block} {a : Abort} (h : mergeRule b = .error a) : mergeStep b = .error a := by
  unfold mergeRule at h
  split at h
  · cases h; assumption
  · cases h

theorem buildRule_error {b : Block} {a : Abort} (h : buildRule b = .error a) :
    a = .raise .allocationFailure ∨ a = .stop .absentNode := by
  unfold buildRule at h
  split at h
  · rename_i h1
    cases h
    exact seedFrom_error h1
  · split at h
    · rename_i h1
      cases h
      exact mergeWhile_error h1
    · cases h

end Sys2Proof.Machine
end

