-- ==== Sys2Proof/Laws/Forest.lean ====
section
/-! SUPPORT. The queue's order under insertion, and the forest that seeding and merging keep (10_state.md R14 to R19,
42_tree.md R91 to R94). -/

namespace Sys2Proof.Machine

/-! ## Order under insertion -/

theorem entryWeight?_append {arena : List Node} {x : Node} {e : PqEntry} (h : e.node < arena.length) :
    entryWeight? (arena ++ [x]) e = entryWeight? arena e := by
  simp [entryWeight?, List.getElem?_append_left h]

theorem entryWeight?_isSome {arena : List Node} {e : PqEntry} (h : e.node < arena.length) :
    ∃ w, entryWeight? arena e = some w := ⟨_, by simp [entryWeight?, List.getElem?_eq_getElem h]; rfl⟩

/-- Entries on existing nodes have weights. -/
theorem weights_exist {arena : List Node} {q : List PqEntry} (h : ∀ e ∈ q, e.node < arena.length) :
    ∃ ws : List Nat, q.map (entryWeight? arena) = ws.map some := by
  induction q with
  | nil => exact ⟨[], rfl⟩
  | cons e q ih =>
    obtain ⟨ws, hws⟩ := ih (fun e' he' => h e' (by simp [he']))
    obtain ⟨w, hw⟩ := entryWeight?_isSome (h e (by simp))
    exact ⟨w :: ws, by simp [hw, hws]⟩

theorem sum_weights {arena : List Node} {q : List PqEntry} {ws : List Nat}
    (h : q.map (entryWeight? arena) = ws.map some) : (q.filterMap (entryWeight? arena)).sum = ws.sum := by
  have : q.filterMap (entryWeight? arena) = (q.map (entryWeight? arena)).filterMap id := by
    simp [List.filterMap_map]
  rw [this, h]
  simp [List.filterMap_map]

/-- The queue is ordered by weight, then by insertion, after an insertion (10_state.md R17, 42_tree.md R91). -/
theorem inserted_ordered {arena : List Node} {q : List PqEntry} {ws : List Nat} {w : Nat} {e : PqEntry}
    (hws : q.map (entryWeight? arena) = ws.map some) (ho : q.Pairwise (entryBefore arena))
    (he : entryWeight? arena e = some w) (hs : ∀ x ∈ q, x.seq < e.seq) :
    (inserted ws w q e).Pairwise (entryBefore arena) := by
  induction q generalizing ws with
  | nil => simp [inserted]
  | cons x q ih =>
    cases ws with
    | nil => simp at hws
    | cons w0 ws =>
      simp only [List.map_cons, List.cons.injEq] at hws
      obtain ⟨hx, hws⟩ := hws
      rw [List.pairwise_cons] at ho
      by_cases hw : w0 ≤ w
      · have h1 : inserted (w0 :: ws) w (x :: q) e = x :: inserted ws w q e := by
          simp [inserted, hw]
        rw [h1, List.pairwise_cons]
        refine ⟨?_, ih hws ho.2 (fun y hy => hs y (by simp [hy]))⟩
        intro y hy
        rcases List.mem_cons.mp ((inserted_perm ws w q e).mem_iff.mp hy) with rfl | hy
        · exact ⟨w0, w, hx, he, by have := hs x (by simp); omega⟩
        · exact ho.1 y hy
      · have hall : ∀ y ∈ x :: q, ∃ wy, entryWeight? arena y = some wy ∧ w < wy := by
          intro y hy
          rcases List.mem_cons.mp hy with rfl | hy
          · exact ⟨w0, hx, by omega⟩
          · obtain ⟨wx, wy, h1, h2, h3⟩ := ho.1 y hy
            rw [hx] at h1; cases h1
            exact ⟨wy, h2, by omega⟩
        have hc : (w0 :: ws).countP (· ≤ w) = 0 := by
          rw [List.countP_eq_zero]
          intro v hv
          have hv' : some v ∈ (x :: q).map (entryWeight? arena) := by
            rw [List.map_cons, hx, hws]; simpa using hv
          obtain ⟨y, hy, hyv⟩ := List.mem_map.mp hv'
          obtain ⟨wy, h1, h2⟩ := hall y hy
          rw [hyv] at h1; cases h1
          simpa using h2
        have h1 : inserted (w0 :: ws) w (x :: q) e = e :: x :: q := by
          unfold inserted
          rw [hc]
          rfl
        rw [h1, List.pairwise_cons]
        refine ⟨?_, List.pairwise_cons.mpr ho⟩
        intro y hy
        obtain ⟨wy, h2, h3⟩ := hall y hy
        exact ⟨w, wy, he, h2, .inl h3⟩

theorem pairwise_entryBefore_append {arena : List Node} {x : Node} {q : List PqEntry}
    (h : q.Pairwise (entryBefore arena)) (hq : ∀ e ∈ q, e.node < arena.length) :
    q.Pairwise (entryBefore (arena ++ [x])) := by
  refine h.imp_of_mem ?_
  rintro a b ha hb ⟨wa, wb, h1, h2, h3⟩
  exact ⟨wa, wb, by rw [entryWeight?_append (hq a ha)]; exact h1, by rw [entryWeight?_append (hq b hb)]; exact h2, h3⟩

/-! ## The forest -/

/-- What arena and queue satisfy while nodes are being added, whatever the phase: the fields of `TreeInv` that seeding and
merging keep (10_state.md R14 to R18). -/
structure Forest (b : Block) : Prop where
  seq_eq : b.seq = b.node.length
  child_lt : ∀ (i w l r : Nat), b.node[i]? = some (Node.internal w l r) → l < i ∧ r < i
  child_once : (childIndices b.node).Nodup
  queued : ∀ n, n ∈ b.pq.map PqEntry.node ↔ n < b.node.length ∧ n ∉ childIndices b.node
  queued_once : (b.pq.map PqEntry.node).Nodup
  balance : b.pq.length + (b.node.length - leafCount b.node) = leafCount b.node
  leaves_first : ∀ (i j : Nat) (c : Byte) (w : Nat), i < j → b.node[j]? = some (Node.leaf c w) →
    ∃ (c' : Byte) (w' : Nat), b.node[i]? = some (Node.leaf c' w') ∧ c'.toNat < c.toNat
  leaf_weight : ∀ (i : Nat) (c : Byte) (w : Nat), b.node[i]? = some (Node.leaf c w) → w = b.count c ∧ w ≠ 0
  internal_weight : ∀ (i w l r : Nat), b.node[i]? = some (Node.internal w l r) →
    ∃ x y : Node, b.node[l]? = some x ∧ b.node[r]? = some y ∧ w = x.weight + y.weight
  order : b.pq.Pairwise (entryBefore b.node)
  seq_lt : ∀ e ∈ b.pq, e.seq < b.seq
  seq_once : (b.pq.map PqEntry.seq).Nodup

theorem Forest.of_empty {b : Block} (hn : b.node = []) (hq : b.pq = []) (hs : b.seq = 0) : Forest b where
  seq_eq := by simp [hn, hs]
  child_lt := by simp [hn]
  child_once := by simp [hn, childIndices]
  queued := by simp [hn, hq]
  queued_once := by simp [hq]
  balance := by simp [hn, hq, leafCount]
  leaves_first := by simp [hn]
  leaf_weight := by simp [hn]
  internal_weight := by simp [hn]
  order := by simp [hq]
  seq_lt := by simp [hq]
  seq_once := by simp [hq]

theorem Forest.entry_lt {b : Block} (h : Forest b) : ∀ e ∈ b.pq, e.node < b.node.length :=
  fun e he => ((h.queued e.node).mp (List.mem_map_of_mem he)).1

theorem leafCount_le (arena : List Node) : leafCount arena ≤ arena.length := List.countP_le_length

/-- The Leaves' characters increase along the arena (10_state.md R18). -/
theorem Forest.leafChars_sorted {b : Block} (h : Forest b) : (leafChars b.node).Pairwise (fun c d => c.toNat < d.toNat) := by
  rw [leafChars, List.pairwise_filterMap, List.pairwise_iff_getElem]
  intro i j hi hj hij c hc d hd
  rcases hx : b.node[i] with ⟨c', w⟩ | ⟨w, l, r⟩ <;> rw [hx] at hc <;> simp at hc
  rcases hy : b.node[j] with ⟨d', v⟩ | ⟨v, l, r⟩ <;> rw [hy] at hd <;> simp at hd
  subst hc hd
  obtain ⟨c2, w2, h1, h2⟩ := h.leaves_first i j d' v hij (by rw [List.getElem?_eq_getElem hj, hy])
  rw [List.getElem?_eq_getElem hi, hx] at h1
  cases h1
  exact h2

theorem Forest.leafChars_nodup {b : Block} (h : Forest b) : (leafChars b.node).Nodup :=
  h.leafChars_sorted.imp (fun hlt he => by subst he; omega)

/-- A list of distinct bytes has at most 256. -/
theorem bytes_le_256 {cs : List Byte} (h : cs.Nodup) : cs.length ≤ 256 := by
  have h1 := (h.map (f := charIndex) (fun a b hab => charIndex_inj.mp hab)).length_le_card
  rwa [List.length_map, Fintype.card_fin] at h1

theorem Forest.leaves_le {b : Block} (h : Forest b) : leafCount b.node ≤ 256 := by
  rw [← leafChars_length]
  exact bytes_le_256 h.leafChars_nodup

/-- The arena holds twice its Leaves less the queued nodes (10_state.md R18). -/
theorem Forest.node_length {b : Block} (h : Forest b) : b.node.length + b.pq.length = 2 * leafCount b.node := by
  have := h.balance
  have := leafCount_le b.node
  omega

/-- A nonempty arena has a queued node, its last (10_state.md R18). -/
theorem Forest.queue_pos {b : Block} (h : Forest b) (hn : b.node ≠ []) : 1 ≤ b.pq.length := by
  have hl : 0 < b.node.length := List.length_pos_iff.mpr hn
  have hmem : b.node.length - 1 ∈ b.pq.map PqEntry.node := by
    rw [h.queued]
    refine ⟨by omega, ?_⟩
    intro hc
    simp only [childIndices, List.mem_flatMap] at hc
    obtain ⟨y, hy, hny⟩ := hc
    obtain ⟨i, hi, rfl⟩ := List.mem_iff_getElem.mp hy
    rcases hyi : b.node[i] with ⟨c, w⟩ | ⟨w, l, r⟩
    · rw [hyi] at hny; simp at hny
    · rw [hyi] at hny
      have := h.child_lt i w l r (by rw [List.getElem?_eq_getElem hi, hyi])
      simp only [List.mem_cons, List.not_mem_nil, or_false] at hny
      omega
  have := List.length_pos_of_mem hmem
  rwa [List.length_map] at this

theorem Forest.node_cap {b : Block} (h : Forest b) : b.node.length ≤ Config.nodeCap := by
  have h1 := h.node_length
  have h2 := h.leaves_le
  by_cases hn : b.node = []
  · simp [hn]
  · have := h.queue_pos hn
    simp only [Config.nodeCap]; omega

theorem Forest.queue_cap {b : Block} (h : Forest b) : b.pq.length ≤ Config.queueCap := by
  have h1 := h.balance
  have h2 := h.leaves_le
  simp only [Config.queueCap]; omega

/-! ## Seeding keeps the forest -/

theorem childIndices_append (arena : List Node) (x : Node) :
    childIndices (arena ++ [x]) = childIndices arena ++ (match x with | .internal _ l r => [l, r] | .leaf _ _ => []) := by
  simp only [childIndices, List.flatMap_append, List.flatMap_cons, List.flatMap_nil, List.append_nil]
  all_goals rfl

theorem Forest.child_bound {b : Block} (h : Forest b) : ∀ n ∈ childIndices b.node, n < b.node.length := by
  intro n hn
  simp only [childIndices, List.mem_flatMap] at hn
  obtain ⟨y, hy, hny⟩ := hn
  obtain ⟨i, hi, rfl⟩ := List.mem_iff_getElem.mp hy
  rcases hyi : b.node[i] with ⟨c, w⟩ | ⟨w, l, r⟩
  · rw [hyi] at hny; simp at hny
  · rw [hyi] at hny
    have := h.child_lt i w l r (by rw [List.getElem?_eq_getElem hi, hyi])
    simp only [List.mem_cons, List.not_mem_nil, or_false] at hny
    omega

theorem getElem?_append_cases {arena : List Node} {x y : Node} {i : Nat} (h : (arena ++ [x])[i]? = some y) :
    (i < arena.length ∧ arena[i]? = some y) ∨ (i = arena.length ∧ y = x) := by
  rcases Nat.lt_trichotomy i arena.length with hi | hi | hi
  · rw [List.getElem?_append_left hi] at h; exact .inl ⟨hi, h⟩
  · subst hi; simp at h; exact .inr ⟨rfl, h.symm⟩
  · rw [List.getElem?_eq_none (by simp; omega)] at h; cases h

/-- Seeding a character above those seeded before keeps the forest and cannot fault (42_tree.md R93). -/
theorem Forest.seedOne {b : Block} (h : Forest b) {c : Byte} (hc : ∀ d ∈ leafChars b.node, d.toNat < c.toNat)
    (hi : ∀ (i w l r : Nat), b.node[i]? ≠ some (Node.internal w l r)) :
    ∃ b', seedOne c (b.count c) b = .ok b' ∧ Forest b' ∧
      leafChars b'.node = leafChars b.node ++ (if b.count c = 0 then [] else [c]) ∧
      (∀ (i w l r : Nat), b'.node[i]? ≠ some (Node.internal w l r)) ∧
      b'.node = b.node ++ (if b.count c = 0 then [] else [Node.leaf c (b.count c)]) ∧
      (b'.pq.filterMap (entryWeight? b'.node)).sum = (b.pq.filterMap (entryWeight? b.node)).sum + b.count c := by
  by_cases h0 : b.count c = 0
  · refine ⟨b, by simp [Sys2Proof.Machine.seedOne, h0], h, by simp [h0], hi, by simp [h0], by simp [h0]⟩
  · have hq := h.entry_lt
    have hcap : b.node.length ≠ Config.nodeCap := by
      intro hcap
      have h1 := h.node_length
      have h2 : leafCount b.node = b.node.length := by
        rw [leafCount, List.countP_eq_length]
        intro x hx
        obtain ⟨i, hi', rfl⟩ := List.mem_iff_getElem.mp hx
        rcases hy : b.node[i] with ⟨d, w⟩ | ⟨w, l, r⟩
        · rfl
        · exact absurd (by rw [List.getElem?_eq_getElem hi', hy]) (hi i w l r)
      have := h.leaves_le
      simp only [Config.nodeCap] at hcap
      omega
    have hq' : ∀ e ∈ b.pq, e.node < (b.node ++ [Node.leaf c (b.count c)]).length := by
      intro e he; have := hq e he; simp; omega
    obtain ⟨ws, hws⟩ := weights_exist hq'
    have hws0 : b.pq.map (entryWeight? b.node) = ws.map some := by
      rw [← hws]
      exact List.map_congr_left (fun e he => (entryWeight?_append (hq e he)).symm)
    let e : PqEntry := ⟨b.node.length, b.seq⟩
    have hew : entryWeight? (b.node ++ [Node.leaf c (b.count c)]) e = some (b.count c) := by
      simp [entryWeight?, e, Node.weight]
    have hperm := inserted_perm ws (b.count c) b.pq e
    refine ⟨{ b with
        node := b.node ++ [Node.leaf c (b.count c)],
        pq := inserted ws (b.count c) b.pq e,
        seq := b.seq + 1 }, ?_, ?_, ?_, ?_, ?_, ?_⟩
    · unfold Sys2Proof.Machine.seedOne
      rw [if_neg h0, alloc_ok.mpr ⟨hcap, rfl, rfl⟩]
      exact pqInsert_ok.mpr ⟨b.count c, ws, by simp [Node.weight], hws, rfl⟩
    · have hci : childIndices (b.node ++ [Node.leaf c (b.count c)]) = childIndices b.node := by
        simp [childIndices_append]
      constructor
      · simp [h.seq_eq]
      · intro i w l r hx
        rcases getElem?_append_cases hx with ⟨_, hx⟩ | ⟨_, hx⟩
        · exact h.child_lt i w l r hx
        · cases hx
      · rw [hci]; exact h.child_once
      · intro n
        simp only [hci]
        rw [(hperm.map PqEntry.node).mem_iff, List.map_cons, List.mem_cons, h.queued]
        simp only [List.length_append, List.length_cons, List.length_nil, e]
        constructor
        · rintro (rfl | ⟨h1, h2⟩)
          · exact ⟨by omega, fun hc => absurd (h.child_bound _ hc) (by omega)⟩
          · exact ⟨by omega, h2⟩
        · rintro ⟨h1, h2⟩
          by_cases h3 : n = b.node.length
          · exact .inl h3
          · exact .inr ⟨by omega, h2⟩
      · rw [(hperm.map PqEntry.node).nodup_iff, List.map_cons, List.nodup_cons]
        exact ⟨fun hm => absurd ((h.queued _).mp hm).1 (by simp [e]), h.queued_once⟩
      · have h1 := h.balance
        have h2 := leafCount_le b.node
        simp only [inserted_length, List.length_append, List.length_cons, List.length_nil]
        have h3 : leafCount (b.node ++ [Node.leaf c (b.count c)]) = leafCount b.node + 1 := by simp [leafCount]
        rw [h3]; omega
      · intro i j c' w hij hx
        rcases getElem?_append_cases hx with ⟨hj, hx⟩ | ⟨hj, hx⟩
        · obtain ⟨c2, w2, h1, h2⟩ := h.leaves_first i j c' w hij hx
          exact ⟨c2, w2, by rw [List.getElem?_append_left (by omega)]; exact h1, h2⟩
        · cases hx
          have hil : i < b.node.length := by omega
          rcases hy : b.node[i] with ⟨d, v⟩ | ⟨v, l, r⟩
          · have hy' : b.node[i]? = some (Node.leaf d v) := by rw [List.getElem?_eq_getElem hil, hy]
            refine ⟨d, v, by rw [List.getElem?_append_left hil]; exact hy', hc d ?_⟩
            rw [leafChars, List.mem_filterMap]
            exact ⟨_, List.mem_of_getElem? hy', rfl⟩
          · exact absurd (by rw [List.getElem?_eq_getElem hil, hy]) (hi i v l r)
      · intro i c' w hx
        rcases getElem?_append_cases hx with ⟨_, hx⟩ | ⟨_, hx⟩
        · exact h.leaf_weight i c' w hx
        · cases hx; exact ⟨rfl, h0⟩
      · intro i w l r hx
        rcases getElem?_append_cases hx with ⟨_, hx⟩ | ⟨_, hx⟩
        · exact absurd hx (hi i w l r)
        · cases hx
      · exact inserted_ordered hws (pairwise_entryBefore_append h.order hq) hew h.seq_lt
      · intro e' he'
        rcases List.mem_cons.mp (hperm.mem_iff.mp he') with rfl | he'
        · exact Nat.lt_succ_self _
        · exact Nat.lt_succ_of_lt (h.seq_lt e' he')
      · rw [(hperm.map PqEntry.seq).nodup_iff, List.map_cons, List.nodup_cons]
        refine ⟨fun hm => ?_, h.seq_once⟩
        obtain ⟨e', he', h1⟩ := List.mem_map.mp hm
        exact absurd (h.seq_lt e' he') (by rw [h1]; simp [e])
    · simp [leafChars, h0]
    · intro i w l r hx
      rcases getElem?_append_cases hx with ⟨_, hx⟩ | ⟨_, hx⟩
      · exact absurd hx (hi i w l r)
      · cases hx
    · simp [h0]
    · have h1 := (hperm.filterMap (entryWeight? (b.node ++ [Node.leaf c (b.count c)]))).sum_eq
      simp only at h1 ⊢
      rw [h1, List.filterMap_cons, hew, sum_weights hws0, List.sum_cons, sum_weights hws]
      omega

/-! ## Merging keeps the forest -/

/-- With at least two queued nodes a merge cannot fault; it keeps the forest and the queued weights' sum (42_tree.md R94,
R100). -/
theorem Forest.mergeStep {b : Block} (h : Forest b) (h2 : 2 ≤ b.pq.length) :
    ∃ b', mergeStep b = .ok b' ∧ Forest b' ∧ leafChars b'.node = leafChars b.node ∧
      b'.pq.length + 1 = b.pq.length ∧
      (b'.pq.filterMap (entryWeight? b'.node)).sum = (b.pq.filterMap (entryWeight? b.node)).sum ∧
      (∃ w l r, b'.node = b.node ++ [Node.internal w l r] ∧ w ≤ (b.pq.filterMap (entryWeight? b.node)).sum) := by
  obtain ⟨x, y, rest, hpq⟩ : ∃ x y rest, b.pq = x :: y :: rest := by
    rcases hp : b.pq with _ | ⟨x, _ | ⟨y, rest⟩⟩
    · simp [hp] at h2
    · simp [hp] at h2
    · exact ⟨x, y, rest, rfl⟩
  have hq := h.entry_lt
  obtain ⟨wx, hx⟩ := entryWeight?_isSome (hq x (by simp [hpq]))
  obtain ⟨wy, hy⟩ := entryWeight?_isSome (hq y (by simp [hpq]))
  have hcap : b.node.length ≠ Config.nodeCap := by
    have h1 := h.node_length
    have h3 := h.leaves_le
    simp only [Config.nodeCap]; omega
  let nd := Node.internal (wx + wy) x.node y.node
  let e : PqEntry := ⟨b.node.length, b.seq⟩
  have hqr : ∀ e ∈ rest, e.node < b.node.length := fun e he => hq e (by simp [hpq, he])
  obtain ⟨ws, hws⟩ := weights_exist (arena := b.node ++ [nd]) (q := rest) (by
    intro e he; have := hqr e he; simp; omega)
  have hws0 : rest.map (entryWeight? b.node) = ws.map some := by
    rw [← hws]
    exact List.map_congr_left (fun e he => (entryWeight?_append (hqr e he)).symm)
  have hew : entryWeight? (b.node ++ [nd]) e = some (wx + wy) := by simp [entryWeight?, e, nd, Node.weight]
  have hperm := inserted_perm ws (wx + wy) rest e
  have hsum : (b.pq.filterMap (entryWeight? b.node)).sum = wx + wy + ws.sum := by
    rw [hpq, List.filterMap_cons, hx, List.filterMap_cons, hy]
    simp only [List.sum_cons, sum_weights hws0]
    omega
  have hqn := h.queued_once
  have hqm := h.queued
  have hord := h.order
  have hsl := h.seq_lt
  have hso := h.seq_once
  rw [hpq] at hqn hqm hord hsl hso
  simp only [List.map_cons, List.nodup_cons, List.mem_cons, not_or] at hqn hso
  simp only [List.map_cons, List.mem_cons] at hqm
  rw [List.pairwise_cons, List.pairwise_cons] at hord
  have hxm := (hqm x.node).mp (.inl rfl)
  have hym := (hqm y.node).mp (.inr (.inl rfl))
  have hci : childIndices (b.node ++ [nd]) = childIndices b.node ++ [x.node, y.node] := by simp [childIndices_append, nd]
  refine ⟨{ b with
      node := b.node ++ [nd],
      pq := inserted ws (wx + wy) rest e,
      seq := b.seq + 1 }, ?_, ?_, ?_, ?_, ?_, ?_⟩
  · exact mergeStep_ok.mpr ⟨x, y, rest, wx, wy, ws, hpq, hx, hy, hcap, hws, rfl⟩
  · constructor
    · simp [h.seq_eq]
    · intro i w l r hx'
      rcases getElem?_append_cases hx' with ⟨_, hx'⟩ | ⟨hi, hx'⟩
      · exact h.child_lt i w l r hx'
      · cases (show Node.internal w l r = Node.internal (wx + wy) x.node y.node from hx')
        rw [hi]
        exact ⟨hxm.1, hym.1⟩
    · simp only
      rw [hci, List.nodup_append]
      refine ⟨h.child_once, by simpa using hqn.1.1, ?_⟩
      intro a ha c hc
      simp only [List.mem_cons, List.not_mem_nil, or_false] at hc
      rintro rfl
      rcases hc with rfl | rfl
      · exact hxm.2 ha
      · exact hym.2 ha
    · intro n
      simp only [hci]
      rw [(hperm.map PqEntry.node).mem_iff, List.map_cons, List.mem_cons]
      simp only [List.length_append, List.length_cons, List.length_nil, e, List.mem_append, List.mem_cons,
        List.not_mem_nil, or_false, not_or]
      constructor
      · rintro (rfl | hm)
        · exact ⟨by omega, fun hc => absurd (h.child_bound _ hc) (by omega), by omega, by omega⟩
        · have h3 := (hqm n).mp (.inr (.inr hm))
          exact ⟨by omega, h3.2, fun he => hqn.1.2 (he ▸ hm), fun he => hqn.2.1 (he ▸ hm)⟩
      · rintro ⟨h1, h3, h4, h5⟩
        by_cases h6 : n = b.node.length
        · exact .inl h6
        · rcases (hqm n).mpr ⟨by omega, h3⟩ with h7 | h7 | h7
          · exact absurd h7 h4
          · exact absurd h7 h5
          · exact .inr h7
    · rw [(hperm.map PqEntry.node).nodup_iff, List.map_cons, List.nodup_cons]
      refine ⟨fun hm => ?_, hqn.2.2⟩
      have := ((hqm b.node.length).mp (.inr (.inr hm))).1
      omega
    · have h1 := h.balance
      have h3 := leafCount_le b.node
      rw [hpq] at h1
      simp only [inserted_length, List.length_append, List.length_cons, List.length_nil] at h1 ⊢
      have h4 : leafCount (b.node ++ [nd]) = leafCount b.node := by simp [leafCount, nd]
      rw [h4]; omega
    · intro i j c' w hij hx'
      rcases getElem?_append_cases hx' with ⟨hj, hx'⟩ | ⟨hj, hx'⟩
      · obtain ⟨c2, w2, h1, h2⟩ := h.leaves_first i j c' w hij hx'
        exact ⟨c2, w2, by rw [List.getElem?_append_left (by omega)]; exact h1, h2⟩
      · exact absurd (show Node.leaf c' w = Node.internal (wx + wy) x.node y.node from hx') (by simp)
    · intro i c' w hx'
      rcases getElem?_append_cases hx' with ⟨_, hx'⟩ | ⟨_, hx'⟩
      · exact h.leaf_weight i c' w hx'
      · exact absurd (show Node.leaf c' w = Node.internal (wx + wy) x.node y.node from hx') (by simp)
    · intro i w l r hx'
      rcases getElem?_append_cases hx' with ⟨hi, hx'⟩ | ⟨_, hx'⟩
      · obtain ⟨u, v, h1, h3, h4⟩ := h.internal_weight i w l r hx'
        obtain ⟨h5, h6⟩ := h.child_lt i w l r hx'
        exact ⟨u, v, by rw [List.getElem?_append_left (by omega)]; exact h1,
          by rw [List.getElem?_append_left (by omega)]; exact h3, h4⟩
      · cases (show Node.internal w l r = Node.internal (wx + wy) x.node y.node from hx')
        unfold entryWeight? at hx hy
        obtain ⟨u, h1, rfl⟩ := Option.map_eq_some_iff.mp hx
        obtain ⟨v, h3, rfl⟩ := Option.map_eq_some_iff.mp hy
        exact ⟨u, v, by rw [List.getElem?_append_left hxm.1]; exact h1,
          by rw [List.getElem?_append_left hym.1]; exact h3, rfl⟩
    · exact inserted_ordered hws (pairwise_entryBefore_append hord.2.2 hqr) hew
        (fun z hz => hsl z (by simp [hz]))
    · intro e' he'
      rcases List.mem_cons.mp (hperm.mem_iff.mp he') with rfl | he'
      · exact Nat.lt_succ_self _
      · exact Nat.lt_succ_of_lt (hsl e' (by simp [he']))
    · rw [(hperm.map PqEntry.seq).nodup_iff, List.map_cons, List.nodup_cons]
      refine ⟨fun hm => ?_, hso.2.2⟩
      obtain ⟨e', he', h1⟩ := List.mem_map.mp hm
      exact absurd (hsl e' (by simp [he'])) (by rw [h1]; simp [e])
  · simp [leafChars, nd]
  · simp [hpq]
  · have h1 := (hperm.filterMap (entryWeight? (b.node ++ [nd]))).sum_eq
    simp only at h1 ⊢
    rw [h1, List.filterMap_cons, hew, hsum, List.sum_cons, sum_weights hws]
  · exact ⟨_, _, _, rfl, by omega⟩

/-! ## Whole passes -/

/-- Seeding the characters `cs`, in ascending order and above those seeded before, keeps the forest and cannot fault
(42_tree.md R93). -/
theorem Forest.seedFrom {cs : List Byte} {b : Block} (h : Forest b) (hs : cs.Pairwise (fun c d => c.toNat < d.toNat))
    (hc : ∀ d ∈ leafChars b.node, ∀ c ∈ cs, d.toNat < c.toNat)
    (hi : ∀ (i w l r : Nat), b.node[i]? ≠ some (Node.internal w l r)) :
    ∃ b', seedFrom (cs.map (fun c => (c, b.count c))) b = .ok b' ∧ Forest b' ∧
      b'.node = b.node ++ (cs.filter (fun c => decide (b.count c ≠ 0))).map (fun c => Node.leaf c (b.count c)) ∧
      (b'.pq.filterMap (entryWeight? b'.node)).sum =
        (b.pq.filterMap (entryWeight? b.node)).sum + (cs.map b.count).sum := by
  induction cs generalizing b with
  | nil => exact ⟨b, rfl, h, by simp, by simp⟩
  | cons c cs ih =>
    rw [List.pairwise_cons] at hs
    obtain ⟨b1, h1, h2, h3, h4, h5, h6⟩ := h.seedOne (c := c) (fun d hd => hc d hd c (by simp)) hi
    have hcount : b1.count = b.count := by
      funext d
      apply count_congr
      rw [show b1 = _ from seedOne_frame h1]
    obtain ⟨b', h7, h8, h9, h10⟩ := ih h2 hs.2 (by
      intro d hd e he
      rw [h3] at hd
      rcases List.mem_append.mp hd with hd | hd
      · exact hc d hd e (by simp [he])
      · split at hd
        · simp at hd
        · simp only [List.mem_cons, List.not_mem_nil, or_false] at hd
          subst hd
          exact hs.1 e he) h4
    refine ⟨b', by rw [List.map_cons, Sys2Proof.Machine.seedFrom, h1]; rw [hcount] at h7; exact h7, h8, ?_, ?_⟩
    · rw [h9, h5, hcount]
      by_cases h0 : b.count c = 0 <;> simp [h0]
    · rw [h10, h6, hcount]
      simp
      omega

/-- Seeding an empty arena (42_tree.md R93). -/
theorem seed_forest {b : Block} (hn : b.node = []) (hq : b.pq = []) (hs : b.seq = 0) :
    ∃ b', seed b = .ok b' ∧ SameButTree b b' ∧ Forest b' ∧
      b'.node = (presentBytes b).map (fun c => Node.leaf c (b.count c)) ∧
      b'.pq.length = (presentBytes b).length ∧
      (b'.pq.filterMap (entryWeight? b'.node)).sum = b.freq.entries.sum := by
  obtain ⟨b', h1, h2, h3, h4⟩ := (Forest.of_empty hn hq hs).seedFrom (cs := allBytes) allBytes_ascending
    (by simp [hn, leafChars]) (by simp [hn])
  rw [hn, List.nil_append] at h3
  rw [← countList_eq] at h1
  refine ⟨b', h1, seed_frame h1, h2, h3, ?_, ?_⟩
  · have h5 := h2.node_length
    have h6 : leafCount b'.node = b'.node.length := by
      rw [h3, leafCount, List.countP_eq_length]
      intro x hx
      obtain ⟨c, _, rfl⟩ := List.mem_map.mp hx
      rfl
    have h7 := congrArg List.length h3
    simp only [List.length_map] at h7
    unfold presentBytes
    omega
  · rw [h4, hq, freq_entries]
    simp

/-- The loop of `BUILD` runs to its end: one entry is left where there was any (42_tree.md R99, R100). -/
theorem Forest.mergeWhile {k : Nat} {b : Block} (h : Forest b) (hk : b.pq.length ≤ k + 1) :
    ∃ b', mergeWhile k b = .ok b' ∧ SameButTree b b' ∧ Forest b' ∧ leafChars b'.node = leafChars b.node ∧
      b'.pq.length = min b.pq.length 1 ∧
      (b'.pq.filterMap (entryWeight? b'.node)).sum = (b.pq.filterMap (entryWeight? b.node)).sum ∧
      (∀ x ∈ b'.node, x ∈ b.node ∨ x.weight ≤ (b.pq.filterMap (entryWeight? b.node)).sum) := by
  induction k generalizing b with
  | zero => exact ⟨b, rfl, .refl _, h, rfl, by omega, rfl, fun x hx => .inl hx⟩
  | succ k ih =>
    unfold Sys2Proof.Machine.mergeWhile
    by_cases h1 : 1 < b.pq.length
    · obtain ⟨b1, h2, h3, h4, h5, h6, w, l, r, h7, h8⟩ := h.mergeStep h1
      obtain ⟨b', h9, h10, h11, h12, h13, h14, h15⟩ := ih h3 (by omega)
      rw [if_pos h1, h2]
      refine ⟨b', h9, (mergeStep_frame h2).trans h10, h11, h12.trans h4, by omega, h14.trans h6, ?_⟩
      intro x hx
      rcases h15 x hx with hx | hx
      · rw [h7] at hx
        rcases List.mem_append.mp hx with hx | hx
        · exact .inl hx
        · simp only [List.mem_cons, List.not_mem_nil, or_false] at hx
          subst hx
          exact .inr h8
      · rw [h6] at hx
        exact .inr hx
    · rw [if_neg h1]
      exact ⟨b, rfl, .refl _, h, rfl, by omega, rfl, fun x hx => .inl hx⟩

/-- Once the queue holds one entry its tree holds each Leaf of the arena once (10_state.md R18, R19). -/
theorem Forest.root {b : Block} (h : Forest b) {e : PqEntry} (hq : b.pq = [e]) :
    ∃ t, IsTree b.node e.node t ∧ t.chars.Perm (leafChars b.node) := by
  have hex : ∀ n, ∃ t, n < b.node.length → IsTree b.node n t := by
    intro n
    by_cases hn : n < b.node.length
    · obtain ⟨t, ht⟩ := isTree_exists h.child_lt n hn
      exact ⟨t, fun _ => ht⟩
    · exact ⟨.leaf 0, fun h => absurd h hn⟩
  choose T hT using hex
  have h1 := forest_chars h.child_lt h.child_once h.queued_once h.queued hT
  refine ⟨T e.node, hT _ (h.entry_lt e (by simp [hq])), ?_⟩
  simpa [hq] using h1

end Sys2Proof.Machine
end

