-- ==== Sys2Proof/Laws/Rules.lean ====
section
/-! SUPPORT. What the thirteen commands' own rules can do, said once over all of them: what a rule leaves when it completes,
and what it can abort with. Proofs over all commands cite these with `exec_cases` and unfold no rule. -/

namespace Sys2Proof.Machine

/-- What the rule of a command leaves when it completes on `b` (41_count.md to 45_decode.md). -/
def Completes (i : Instr) (b : Block) (r : Done) : Prop :=
  match i with
  | .nop => r = b.done
  | .clr => r = Block.reset.done
  | .freq d => b.total ≠ Config.countMax ∧
      r = { b.setCount d (b.count d + 1) with total := b.total + 1, phase := .count }.done
  | .seed => ∃ b', seed b = .ok b' ∧ SameButTree b b' ∧
      r = { block := { b' with phase := .tree }, out := [], rsp := seedResponse b' }
  | .merge => ∃ b', mergeStep b = .ok b' ∧ SameButTree b b' ∧ r = b'.done
  | .build => ∃ b1 b2, seed b = .ok b1 ∧ SameButTree b b1 ∧ mergeWhile b1.pq.length b1 = .ok b2 ∧ SameButTree b b2 ∧
      b2.pq.length ≤ 1 ∧ r = { block := { b2 with phase := .tree }, out := [], rsp := seedResponse b1 }
  | .gen => b.pq.length ≤ 1 ∧ ∃ b', recordTree b = .ok b' ∧ SameButTable b b' ∧
      r = { b'.freeTree with phase := .coded }.done
  | .head => r = { block := { b with phase := .enc }, out := b.headBytes, rsp := .ok }
  | .enc d => b.encn ≠ b.total ∧ (b.code d).len ≠ 0 ∧
      let p := (codeBits (b.code d)).foldl packBit { buf := b.pkbuf, cnt := b.pkcnt, out := [] }
      r = { block := { b with pkbuf := p.buf, pkcnt := p.cnt, encn := b.encn + 1 }, out := p.out, rsp := .ok }
  | .encend => b.encn = b.total ∧
      ((0 < b.pkcnt.val ∧
          r = { block := { b with pkbuf := 0, pkcnt := 0, phase := .encDone }, out := [b.pkbuf], rsp := .ok }) ∨
       (b.pkcnt.val = 0 ∧ r = { b with phase := .encDone }.done))
  | .decst => r = { b with phase := .decHdr }.done
  | .dec d => (b.phase = .decHdr ∧ ∃ b', headerByte d b = .ok b' ∧ r = b'.done) ∨
      (b.phase = .decDict ∧ ∃ b', dictByte d b = .ok b' ∧ r = b'.done) ∨
      (b.phase = .decBits ∧ ∃ b' out, bitsLoop (byteBits d) b [] = .ok (b', out) ∧
        r = { block := b', out := out, rsp := .ok }) ∨
      (b.phase = .decDone ∧ r = b.done)
  | .decend => b.phase = .decDone ∧ r = b.done

theorem completes_of_ok {i : Instr} {b : Block} {r : Done} (h : ruleOf i b = .ok r) : Completes i b r := by
  cases i <;> simp only [ruleOf] at h <;> unfold Completes <;> simp only
  case nop => cases h; rfl
  case clr => cases h; rfl
  case freq => exact freqRule_ok h
  case seed => obtain ⟨b', h1, rfl⟩ := seedRule_ok h; exact ⟨b', h1, seed_frame h1, rfl⟩
  case merge => obtain ⟨b', h1, rfl⟩ := mergeRule_ok h; exact ⟨b', h1, mergeStep_frame h1, rfl⟩
  case build =>
    obtain ⟨b1, b2, h1, h2, rfl⟩ := buildRule_ok h
    obtain ⟨h3, h4⟩ := mergeWhile_ok h2 (by omega)
    exact ⟨b1, b2, h1, seed_frame h1, h2, (seed_frame h1).trans h3, h4, rfl⟩
  case gen => obtain ⟨hl, b', h1, rfl⟩ := genRule_ok h; exact ⟨hl, b', h1, recordTree_frame h1, rfl⟩
  case head => cases h; rfl
  case enc => exact encRule_ok h
  case encend => exact encendRule_ok h
  case decst => cases h; rfl
  case dec => exact decRule_ok h
  case decend => exact decendRule_ok h

/-- What the rule of a command can abort with (60_exceptions.md R150). -/
def Aborts (i : Instr) (b : Block) (a : Abort) : Prop :=
  match i with
  | .nop => False
  | .clr => False
  | .freq _ => a = .raise .countOverflow ∧ b.total = Config.countMax
  | .seed => a = .raise .allocationFailure ∨ a = .stop .absentNode
  | .merge => mergeStep b = .error a
  | .build => a = .raise .allocationFailure ∨ a = .stop .absentNode
  | .gen => (a = .raise .protocolError ∧ 1 < b.pq.length) ∨ (b.pq.length ≤ 1 ∧ recordTree b = .error a)
  | .head => False
  | .enc d => (a = .raise .protocolError ∧ b.encn = b.total) ∨
      (a = .raise .degenerateCodeError ∧ b.encn ≠ b.total ∧ (b.code d).len = 0)
  | .encend => a = .raise .protocolError ∧ b.encn ≠ b.total
  | .decst => False
  | .dec d => (b.phase = .decHdr ∧ headerByte d b = .error a) ∨
      (b.phase = .decDict ∧ dictByte d b = .error a) ∨
      (b.phase = .decBits ∧ bitsLoop (byteBits d) b [] = .error a)
  | .decend => ((b.phase = .decHdr ∨ b.phase = .decDict) ∧ a = .raise .formatError) ∨
      (b.phase = .decBits ∧ a = .raise .corruptStream)

theorem aborts_of_error {i : Instr} {b : Block} {a : Abort} (hm : mayExecute i b.phase) (h : ruleOf i b = .error a) :
    Aborts i b a := by
  cases i <;> simp only [ruleOf] at h <;> unfold Aborts <;> simp only
  case nop => cases h
  case clr => cases h
  case freq => obtain ⟨h1, h2⟩ := freqRule_error h; exact ⟨h2, h1⟩
  case seed => exact seedRule_error h
  case merge => exact mergeRule_error h
  case build => exact buildRule_error h
  case gen => exact genRule_error h
  case head => cases h
  case enc => exact encRule_error h
  case encend => exact encendRule_error h
  case decst => cases h
  case dec => exact decRule_error h hm
  case decend => exact decendRule_error h hm

theorem payloadPhase_cases (n : Nat) :
    (n ≠ 0 ∧ payloadPhase n = .decBits) ∨ (n = 0 ∧ payloadPhase n = .decDone) := by
  unfold payloadPhase
  split
  · exact .inl ⟨‹_›, rfl⟩
  · exact .inr ⟨not_not.mp ‹_›, rfl⟩

/-- The kinds `DEC` raises (45_decode.md R131 to R138). -/
theorem dec_aborts {d : Byte} {b : Block} {a : Abort} (h : Aborts (.dec d) b a) :
    a = .raise .formatError ∨ a = .raise .degenerateCodeError ∨ a = .raise .corruptStream := by
  rcases h with ⟨_, h⟩ | ⟨_, h⟩ | ⟨_, h⟩
  · exact .inl (headerByte_error h).1
  · rcases loadRecord_error (dictByte_error h).2 with ⟨h, _⟩ | ⟨h, _⟩
    · exact .inr (.inl h)
    · exact .inl h
  · exact .inr (.inr (bitsLoop_error h))

theorem seedResponse_cases (b : Block) : seedResponse b = .ok ∨ seedResponse b = .emptyInput := by
  unfold seedResponse
  split
  · exact .inr rfl
  · exact .inl rfl

end Sys2Proof.Machine
end

