-- ==== Sys2Proof/Laws/Invariants.lean ====
section
/-! SUPPORT. What each command's rule does to the invariants of 10_state.md (`Inv`, Sys2Proof/Safety.lean): one lemma per
rule, over the operations' own lemmas. -/

namespace Sys2Proof.Machine

/-- Fault entry on the block, in the words of `State.afterFault` (60_exceptions.md R155). -/
def faultBlock (b : Block) (w : Word16) (c : Byte) : Block :=
    { b with phase := Phase.fault, err := c, errcmd := w, errphase := b.phase }

/-- Fault entry keeps the invariants (60_exceptions.md R154, R155). -/
theorem inv_fault {b : Block} (h : Inv b) (hf : b.phase ≠ .fault) (w : Word16) (c : Byte) (h1 : 2 ≤ c.toNat)
    (h2 : c.toNat ≤ 0x0B) :
    Inv (faultBlock b w c) := by
  obtain ⟨hc, ht, htb, he, hd, hr, her⟩ := h
  refine ⟨⟨hc.1, hc.2⟩, ?_, ?_, ?_, ?_, ?_, ?_⟩
  · constructor <;> first
      | exact ht.node_cap
      | exact ht.queue_cap
      | exact ht.seq_cap
      | exact ht.seq_eq
      | exact ht.child_lt
      | exact ht.child_once
      | exact ht.queued
      | exact ht.queued_once
      | exact ht.balance
      | exact ht.leaves_first
      | exact ht.leaf_weight
      | exact ht.internal_weight
      | exact ht.weight_le
      | exact ht.order
      | exact ht.seq_lt
      | exact ht.seq_once
      | simp [faultBlock]
  · constructor <;> first
      | exact htb.listed
      | exact htb.listed_once
      | exact htb.absent_bits
      | exact htb.len_le
      | simp [faultBlock]
  · constructor <;> first | exact he.packer | exact he.encn_le | simp [faultBlock]
  · constructor <;> first
      | exact hd.origlen_fits
      | exact hd.dictsz_fits
      | exact hd.maxlen_le
      | exact hd.maxlen_met
      | exact hd.acclen_le
      | exact hd.accbits_lt
      | exact hd.outn_le
      | simp [faultBlock]
  · constructor <;> simp [faultBlock]
  · constructor
    · simp only [faultBlock, iff_true]; rintro rfl; simp at h1
    · intro _; exact ⟨h1, h2⟩
    · simp [faultBlock]
    · exact hf

theorem fold_le_sum {l : List Byte} {f : Byte → Nat} {c : Byte} (h : c ∈ l) : f c ≤ (l.map f).sum := by
  exact List.le_sum_of_mem (List.mem_map_of_mem h)

/-- A count is at most `TOTAL` (10_state.md R12). -/
theorem CountInv.count_le {b : Block} (h : CountInv b) (c : Byte) : b.count c ≤ b.total := by
  rw [h.total_eq, freq_entries]; exact fold_le_sum (mem_allBytes c)

/-- In `TREE` a forest whose weights add up to `TOTAL` meets the invariants of arena and queue. -/
theorem TreeInv.of_forest {b : Block} (hf : Forest b) (hp : b.phase = .tree)
   (hw : ∀ x ∈ b.node, x.weight ≤ b.total) (hs : (b.pq.filterMap (entryWeight? b.node)).sum = b.total)
   (hl : ∀ c, b.count c ≠ 0 → c ∈ leafChars b.node) : TreeInv b := by
  constructor
  · simp [hp]
  · simp [hp]
  · exact hf.node_cap
  · exact hf.queue_cap
  · rw [hf.seq_eq]; exact hf.node_cap
  · exact fun _ => hf.seq_eq
  · exact hf.child_lt
  · exact hf.child_once
  · exact hf.queued
  · exact hf.queued_once
  · exact hf.balance
  · exact hf.leaves_first
  · exact hf.leaf_weight
  · exact hf.internal_weight
  · intro i x hx; exact hw x (List.mem_of_getElem? hx)
  · exact fun _ => hs
  · intro _ c hc
    have := hl c hc
    simp only [leafChars, List.mem_filterMap] at this
    obtain ⟨x, hx, hy⟩ := this
    obtain ⟨i, hi, rfl⟩ := List.mem_iff_getElem.mp hx
    rcases hz : b.node[i] with ⟨d, w⟩ | ⟨w, l, r⟩ <;> rw [hz] at hy <;> simp at hy
    subst hy
    exact ⟨i, w, by rw [List.getElem?_eq_getElem hi, hz]⟩
  · exact hf.order
  · exact hf.seq_lt
  · exact hf.seq_once

/-- A nonempty arena that meets the invariants is a forest. -/
theorem TreeInv.forest {b : Block} (h : TreeInv b) (hn : b.node ≠ []) : Forest b :=
  ⟨h.seq_eq hn, h.child_lt, h.child_once, h.queued, h.queued_once, h.balance, h.leaves_first, h.leaf_weight, h.internal_weight, h.order, h.seq_lt, h.seq_once⟩

/-- Every present character has a Leaf in `TREE` (42_tree.md R93). -/
theorem TreeInv.present_chars {b : Block} (h : TreeInv b) (hp : b.phase = .tree) : ∀ c, b.count c ≠ 0
    → c ∈ leafChars b.node := by
  intro c hc
  obtain ⟨i, w, hi⟩ := h.leaf_present hp c hc
  rw [leafChars, List.mem_filterMap]
  exact ⟨_, List.mem_of_getElem? hi, rfl⟩

/-- A command that leaves `TREE` and writes arena, queue and `SEQ` alone keeps the other invariants. -/
theorem inv_toTree {b : Block} (h : Inv b) (hp : b.phase = .idle ∨ b.phase = .count ∨ b.phase = .tree) {n q s}
    (ht : TreeInv { b with node := n, pq := q, seq := s, phase := .tree }) :
    Inv { b with node := n, pq := q, seq := s, phase := .tree } := by
  obtain ⟨hc, _, htb, he, hd, hr, her⟩ := h
  have hf : b.phase ≠ .fault := by rcases hp with h | h | h <;> simp [h]
  have hin : b.phase ∈ [Phase.idle, .count, .tree] := by simpa using hp
  have sub : ∀ l : List Phase, [Phase.idle, .count, .tree] ⊆ l → b.phase ∈ l := fun l hl => hl hin
  refine ⟨⟨hc.1, hc.2⟩, ht, ?_, ?_, ?_, ?_, ?_⟩
  · constructor <;> first
      | exact htb.listed
      | exact htb.listed_once
      | exact htb.absent_bits
      | exact htb.len_le
      | exact fun _ => htb.empty_before (sub _ (by simp))
      | simp
  · constructor <;> first
      | exact he.packer
      | exact he.encn_le
      | exact fun _ _ => he.packer_idle (by rcases hp with h
      | h
      | h <;> simp [h]) hf
      | exact fun _ => he.encn_zero (sub _ (by simp))
      | simp
  · constructor <;> first
      | exact hd.origlen_fits
      | exact hd.dictsz_fits
      | exact hd.maxlen_le
      | exact hd.maxlen_met
      | exact hd.acclen_le
      | exact hd.accbits_lt
      | exact hd.outn_le
      | exact fun _ => hd.header_zero (sub _ (by simp))
      | exact fun _ => hd.maxlen_encode (sub _ (by simp))
      | exact fun _ => hd.outn_zero (sub _ (by simp))
      | exact fun _ _ => hd.acc_zero (by rcases hp with h
      | h
      | h <;> simp [h]) hf
      | simp
  · constructor <;> first | exact fun _ => hr.encode_run (sub _ (by simp)) | simp
  · constructor
    · simpa [hf] using her.err_iff
    · simp
    · exact fun _ => her.err_clear hf
    · exact her.err_phase

/-- `SEED` keeps the invariants (42_tree.md R95). -/
theorem inv_seed {b b' : Block} (h : Inv b) (hp : b.phase = .idle ∨ b.phase = .count) (hs : seed b = .ok b') :
   Inv { b' with phase := .tree } := by
  have hin : b.phase ∈ [Phase.idle, .count] := by simpa using hp
  obtain ⟨hn, hq⟩ := h.tree.idle_empty (by rcases hp with h | h <;> simp [h]) (by rcases hp with h | h <;> simp [h])
  have h0 := h.tree.seq_zero ((show [Phase.idle, .count] ⊆ _ by simp) hin)
  obtain ⟨b1, h1, h2, h3, h4, h5, h6⟩ := seed_forest hn hq h0
  rw [h1] at hs; cases hs
  have hcount : b'.count = b.count := by funext d; apply count_congr; rw [show b' = _ from h2]
  have htot : b'.total = b.total := by rw [show b' = _ from h2]
  have := inv_toTree h (by tauto) (n := b'.node) (q := b'.pq) (s := b'.seq) ?_
  · rw [show b' = _ from h2]; exact this
  · have e : ({ b with node := b'.node, pq := b'.pq, seq := b'.seq, phase := .tree } : Block) =
      { b' with phase := .tree } := by
      rw [show b' = _ from h2]
    rw [e]
    apply TreeInv.of_forest
    · exact ⟨h3.1, h3.2, h3.3, h3.4, h3.5, h3.6, h3.7, h3.8, h3.9, h3.10, h3.11, h3.12⟩
    · rfl
    · intro x hx
      simp only at hx ⊢
      rw [h4] at hx
      obtain ⟨c, _, rfl⟩ := List.mem_map.mp hx
      rw [htot]; exact CountInv.count_le h.count c
    · show (b'.pq.filterMap (entryWeight? b'.node)).sum = b'.total
      rw [h6, htot, h.count.total_eq]
    · intro c hc
      change b'.count c ≠ 0 at hc
      simp only
      rw [h4]
      rw [hcount] at hc
      simp [leafChars, presentBytes, hc]

/-- With no symbol recorded every entry is absent. -/
theorem TableInv.code_absent {b : Block} (h : TableInv b) (hd : b.dord = []) (c : Byte) : b.code c = ⟨0, 0⟩ := by
  have h1 : (b.code c).len = 0 := by
    by_contra hc
    have := (h.listed c).mp hc
    simp [hd] at this
  have h2 := h.absent_bits c h1
  cases hcc : b.code c with
  | mk bits len => simp [hcc] at h1 h2; simp [h1, h2]

/-- The block after `GEN` on the tree `t` (43_codegen.md R105). -/
def genBlock (b : Block) (t : HTree) : Block :=
  { ((t.codePaths.map (fun x => (x.1, pathCode x.2))).foldl Block.putCode b).freeTree with phase := .coded }

/-- What the code table holds after `GEN` on the tree `t` (43_codegen.md R105 to R110). -/
structure GenFacts (b : Block) (t : HTree) : Prop where
  nodup : t.chars.Nodup
  mem : ∀ c, c ∈ t.chars ↔ b.count c ≠ 0
  dord : (genBlock b t).dord = t.chars
  code_of : ∀ x ∈ t.codePaths, (genBlock b t).code x.1 = pathCode x.2
  code_not : ∀ c, c ∉ t.chars → (genBlock b t).code c = ⟨0, 0⟩

/-- `GEN` on a block that meets the invariants. -/
theorem genFacts_of_inv {b : Block} (h : Inv b) (hp : b.phase = .tree) {e} (hq : b.pq = [e]) {t}
    (ht : IsTree b.node e.node t) :
    GenFacts b t ∧ t.chars.length ≤ 256 := by
  have hn : b.node ≠ [] := by
    intro hn
    have := (h.tree.queued e.node).mp (by simp [hq])
    simp [hn] at this
  have hf := TreeInv.forest h.tree hn
  obtain ⟨t', ht', hperm⟩ := hf.root hq
  rw [ht'.unique ht] at hperm
  have hd : b.dord = [] := h.table.empty_before (by simp [hp])
  have hnd : t.chars.Nodup := hperm.nodup_iff.mpr hf.leafChars_nodup
  have hmap : ((t.codePaths.map (fun x => (x.1, pathCode x.2))).map Prod.fst) = t.chars := by
    rw [List.map_map, ← t.codePaths_chars]; rfl
  refine ⟨⟨hnd, ?_, ?_, ?_, ?_⟩, bytes_le_256 hnd⟩
  · intro c
    rw [hperm.mem_iff]
    constructor
    · intro hc
      simp only [leafChars, List.mem_filterMap] at hc
      obtain ⟨x, hx, hy⟩ := hc
      obtain ⟨i, hi, rfl⟩ := List.mem_iff_getElem.mp hx
      rcases hz : b.node[i] with ⟨d, w⟩ | ⟨w, l, r⟩ <;> rw [hz] at hy <;> simp at hy
      subst hy
      have := h.tree.leaf_weight i d w (by rw [List.getElem?_eq_getElem hi, hz])
      omega
    · exact TreeInv.present_chars h.tree hp c
  · show (List.foldl Block.putCode b _).dord = _
    rw [foldl_putCode_dord, hd, hmap]; rfl
  · intro x hx
    show (List.foldl Block.putCode b _).code x.1 = _
    exact foldl_putCode_code_of_mem (by rw [hmap]; exact hnd) (List.mem_map.mpr ⟨x, hx, rfl⟩)
  · intro c hc
    show (List.foldl Block.putCode b _).code c = _
    rw [foldl_putCode_code_of_not_mem (by rw [hmap]; exact hc)]
    exact TableInv.code_absent h.table hd c

theorem HTree.mem_chars {t : HTree} {c} : c ∈ t.chars ↔ ∃ p, (c, p) ∈ t.codePaths := by
  rw [← t.codePaths_chars]; simp

theorem pairwise_ne {α} {R : α → α → Prop} {l : List α} (h : l.Pairwise (fun a b => R a b ∧ R b a)) {a b}
    (ha : a ∈ l) (hb : b ∈ l) (hab : a ≠ b) : R a b := by
  have : Std.Symm (fun a b => R a b ∧ R b a) := ⟨fun _ _ h => ⟨h.2, h.1⟩⟩
  exact (h.forall ha hb hab).1

theorem GenFacts.path {b t} (g : GenFacts b t) {c} (hc : c ∈ t.chars) : ∃ p, (c, p) ∈ t.codePaths ∧
    (genBlock b t).code c = pathCode p := by
  obtain ⟨p, hp⟩ := HTree.mem_chars.mp hc
  exact ⟨p, hp, g.code_of _ hp⟩

theorem GenFacts.prefix_free {b t} (g : GenFacts b t) (hd : t.depth ≤ 64) : PrefixFree (genBlock b t) := by
  intro c hc c' hc' hne
  rw [g.dord] at hc hc'
  obtain ⟨p, hp, h1⟩ := GenFacts.path g hc
  obtain ⟨q, hq, h2⟩ := GenFacts.path g hc'
  rw [h1, h2, codeBits_pathCode _ (t.codePaths_length hd _ hp).2, codeBits_pathCode _ (t.codePaths_length hd _ hq).2]
  exact pairwise_ne (R := fun x y : Byte × List Bool => ¬ x.2 <+: y.2) t.codePaths_prefix_free hp hq (by simp [hne])

theorem GenFacts.kraft {b t} (g : GenFacts b t) (hd : t.depth ≤ 64) : kraftSum
    (genBlock b t) = if t.chars.length = 1 then 2 ^ 63 else 2 ^ 64 := by
  rw [← t.codePaths_kraft hd, kraftSum, g.dord, ← t.codePaths_chars, List.map_map]
  congr 1
  apply List.map_congr_left
  intro x hx
  simp only [Function.comp_apply, g.code_of x hx, pathCode]

/-- An empty queue means an empty arena. -/
theorem TreeInv.node_nil {b : Block} (h : TreeInv b) (hq : b.pq = []) : b.node = [] := by
  by_contra hn
  have := (TreeInv.forest h hn).queue_pos hn
  simp [hq] at this

/-- A command that leaves `CODED` and writes the table, and frees the tree, keeps the other invariants. -/
theorem inv_genBlock {b : Block} (h : Inv b) (hp : b.phase = .tree) {ct dord} (ht : TableInv
    { b with ct := ct, dord := dord, node := [], pq := [], phase := .coded }) :
    Inv { b with ct := ct, dord := dord, node := [], pq := [], phase := .coded } := by
  obtain ⟨hc, htr, htb, he, hd, hr, her⟩ := h
  have hf : b.phase ≠ .fault := by simp [hp]
  have sub : ∀ l : List Phase, [Phase.tree] ⊆ l → b.phase ∈ l := fun l hl => hl (by simp [hp])
  have hm : b.maxlen = 0 := hd.maxlen_encode (sub _ (by simp))
  refine ⟨⟨hc.1, hc.2⟩, ?_, ht, ?_, ?_, ?_, ?_⟩
  · constructor <;> first | exact htr.seq_cap | simp [childIndices, leafCount]
  · constructor <;> first
      | exact he.packer
      | exact he.encn_le
      | exact fun _ _ => he.packer_idle (by simp [hp]) hf
      | exact fun _ => he.encn_zero (sub _ (by simp))
      | simp
  · constructor <;> first
      | exact hd.origlen_fits
      | exact hd.dictsz_fits
      | exact hd.maxlen_le
      | exact .inl hm
      | exact hd.acclen_le
      | exact hd.accbits_lt
      | exact hd.outn_le
      | exact fun _ => hd.header_zero (sub _ (by simp))
      | exact fun _ => hd.maxlen_encode (sub _ (by simp))
      | exact fun _ => hd.outn_zero (sub _ (by simp))
      | exact fun _ _ => hd.acc_zero (by simp [hp]) hf
      | simp
  · constructor <;> first | exact fun _ => hr.encode_run (sub _ (by simp)) | simp
  · constructor
    · simpa [hf] using her.err_iff
    · simp
    · exact fun _ => her.err_clear hf
    · exact her.err_phase

theorem genBlock_form (b : Block) (t : HTree) : genBlock b t =
    { b with ct := (genBlock b t).ct, dord := (genBlock b t).dord, node := [], pq := [], phase := .coded } := by
  have := foldl_putCode_frame (t.codePaths.map (fun x => (x.1, pathCode x.2))) b
  unfold SameButTable at this
  unfold genBlock Block.freeTree
  rw [this]

/-- `GEN` on a queue of one entry keeps the invariants (43_codegen.md R105). -/
theorem inv_genTree {b : Block} (h : Inv b) (hp : b.phase = .tree) {e} (hq : b.pq = [e]) {t}
    (ht : IsTree b.node e.node t) (hd : t.depth ≤ 64) :
    Inv (genBlock b t) := by
  obtain ⟨g, _⟩ := genFacts_of_inv h hp hq ht
  have hlist : ∀ c, ((genBlock b t).code c).len ≠ 0 ↔ c ∈ (genBlock b t).dord := by
    intro c
    rw [g.dord]
    by_cases hc : c ∈ t.chars
    · obtain ⟨p, hp, h1⟩ := GenFacts.path g hc
      have := (t.codePaths_length hd _ hp).1
      simp only [hc, iff_true, h1, pathCode]
      simp only at this
      omega
    · simp [hc, g.code_not c hc]
  have hlen : ∀ c, ((genBlock b t).code c).len ≤ 64 ∧ ((genBlock b t).code c).bits.toNat < 2 ^
    ((genBlock b t).code c).len := by
    intro c
    by_cases hc : c ∈ t.chars
    · obtain ⟨p, hp, h1⟩ := GenFacts.path g hc
      rw [h1]
      exact ⟨(t.codePaths_length hd _ hp).2, pathBits_lt p⟩
    · simp [g.code_not c hc]
  have hcount : (genBlock b t).count = b.count := by funext d; apply count_congr; rw [genBlock_form]
  have hT : TableInv (genBlock b t) := by
    constructor
    · exact hlist
    · rw [g.dord]; exact g.nodup
    · intro c hc
      by_cases hc' : c ∈ t.chars
      · rw [← g.dord] at hc'
        exact absurd hc ((hlist c).mpr hc')
      · simp [g.code_not c hc']
    · exact fun c => (hlen c).1
    · simp [genBlock]
    · intro _ c; rw [g.dord, g.mem, hcount]
    · exact fun _ c => (hlen c).2
    · exact fun _ => GenFacts.prefix_free g hd
    · intro _
      rw [GenFacts.kraft g hd, g.dord]
      have := t.length_chars_pos
      rw [if_neg (by omega : ¬ t.chars.length = 0)]
    · simp [genBlock]
  rw [genBlock_form] at hT ⊢
  exact inv_genBlock h hp hT

/-- `GEN` on an empty queue keeps the invariants (43_codegen.md R105). -/
theorem inv_genEmpty {b : Block} (h : Inv b) (hp : b.phase = .tree) (hq : b.pq = []) : Inv
    { b with phase := .coded, node := [], pq := [] } := by
  have hn := TreeInv.node_nil h.tree hq
  have hd : b.dord = [] := h.table.empty_before (by simp [hp])
  have hc0 : ∀ c, b.count c = 0 := by
    intro c
    by_contra hc
    have := TreeInv.present_chars h.tree hp c hc
    simp [hn, leafChars] at this
  refine inv_genBlock (ct := b.ct) (dord := b.dord) h hp ?_
  have htb := h.table
  constructor
  · exact htb.listed
  · exact htb.listed_once
  · exact htb.absent_bits
  · exact htb.len_le
  · simp
  · intro _ c
    show c ∈ b.dord ↔ b.count c ≠ 0
    simp [hd, hc0]
  · intro _ c
    show (b.code c).bits.toNat < 2 ^ (b.code c).len
    simp [TableInv.code_absent htb hd]
  · intro _ c hc
    change c ∈ b.dord at hc
    simp [hd] at hc
  · intro _
    simp [kraftSum, hd]
  · simp

/-- One entry more by one, the sum more by one. -/
theorem sum_set_succ (v : Table Nat 256) (i : Fin 256) :
    (v.set i (v.get i + 1)).entries.sum = v.entries.sum + 1 := by
  have : ∀ (l : List Nat) (k : Nat) (hk : k < l.length), (l.set k (l[k] + 1)).sum = l.sum + 1 := by
    intro l
    induction l with
    | nil => intro k hk; simp at hk
    | cons a l ih =>
      intro k hk
      cases k with
      | zero => simp; omega
      | succ k => simp at hk ⊢; rw [ih k hk]; omega
  exact this v.entries i (by rw [v.size]; exact i.isLt)

/-- `FREQ` keeps `TOTAL` the sum of the counts (10_state.md R12). -/
theorem CountInv.freq {b : Block} (h : CountInv b) (ht : b.total ≠ Config.countMax) (d : Byte) :
    CountInv { b.setCount d (b.count d + 1) with total := b.total + 1, phase := .count } := by
  refine ⟨?_, ?_⟩
  · show b.total + 1 = (b.freq.set (charIndex d) (b.count d + 1)).entries.sum
    rw [h.total_eq, ← sum_set_succ b.freq (charIndex d)]
    rfl
  · have := h.total_fits
    show b.total + 1 ≤ Config.countMax
    omega

/-- `FREQ` keeps the invariants (41_count.md R85). -/
theorem inv_freq {b : Block} (h : Inv b) (hp : b.phase = .idle ∨ b.phase = .count) (htm : b.total ≠ Config.countMax)
    (d : Byte) :
    Inv { b.setCount d (b.count d + 1) with total := b.total + 1, phase := .count } := by
  obtain ⟨hc, htr, htb, he, hd, hr, her⟩ := h
  have hf : b.phase ≠ .fault := by rcases hp with h | h <;> simp [h]
  have hin : b.phase ∈ [Phase.idle, .count] := by simpa using hp
  have sub : ∀ l : List Phase, [Phase.idle, .count] ⊆ l → b.phase ∈ l := fun l hl => hl hin
  obtain ⟨hn, hq⟩ := htr.idle_empty (by rcases hp with h | h <;> simp [h]) hf
  have h0 := htr.seq_zero (sub _ (by simp))
  refine ⟨CountInv.freq hc htm d, ?_, ?_, ?_, ?_, ?_, ?_⟩
  · constructor <;> simp [hn, hq, h0, childIndices, leafCount]
  · constructor <;> first
      | exact htb.listed
      | exact htb.listed_once
      | exact htb.absent_bits
      | exact htb.len_le
      | exact fun _ => htb.empty_before (sub _ (by simp))
      | simp
  · constructor <;> first
      | exact he.packer
      | exact Nat.le_succ_of_le he.encn_le
      | exact fun _ _ => he.packer_idle (by rcases hp with h
      | h <;> simp [h]) hf
      | exact fun _ => he.encn_zero (sub _ (by simp))
      | simp
  · constructor <;> first
      | exact hd.origlen_fits
      | exact hd.dictsz_fits
      | exact hd.maxlen_le
      | exact hd.maxlen_met
      | exact hd.acclen_le
      | exact hd.accbits_lt
      | exact hd.outn_le
      | exact fun _ => hd.header_zero (sub _ (by simp))
      | exact fun _ => hd.maxlen_encode (sub _ (by simp))
      | exact fun _ => hd.outn_zero (sub _ (by simp))
      | exact fun _ _ => hd.acc_zero (by rcases hp with h
      | h <;> simp [h]) hf
      | simp
  · constructor <;> first | exact fun _ => hr.encode_run (sub _ (by simp)) | simp
  · constructor
    · simpa [hf] using her.err_iff
    · simp
    · exact fun _ => her.err_clear hf
    · exact her.err_phase

/-- `MERGE` keeps the invariants (42_tree.md R96). -/
theorem inv_merge {b b' : Block} (h : Inv b) (hp : b.phase = .tree) (hm : mergeStep b = .ok b') : Inv b' := by
  have hl := (mergeStep_lengths hm).1
  obtain ⟨x, y, rest, wx, wy, ws, hpq, _⟩ := mergeStep_ok.mp hm
  have hn : b.node ≠ [] := by
    intro hn
    have := (h.tree.queued x.node).mp (by simp [hpq])
    simp [hn] at this
  obtain ⟨b1, h1, h2, h3, h4, h5, w, l, r, h6, h7⟩ := (TreeInv.forest h.tree hn).mergeStep (by simp [hpq])
  rw [h1] at hm; cases hm
  have hfr := mergeStep_frame h1
  have hph : b'.phase = .tree := by rw [show b' = _ from hfr]; exact hp
  have htot : b'.total = b.total := by rw [show b' = _ from hfr]
  have hcount : b'.count = b.count := by funext d; apply count_congr; rw [show b' = _ from hfr]
  have e : b' = { b with node := b'.node, pq := b'.pq, seq := b'.seq, phase := .tree } := by
    rw [← hp]; exact hfr
  have hw := h.tree.queue_weight hp
  have hT : TreeInv b' := by
    apply TreeInv.of_forest h2 hph
    · intro x hx
      rw [h6] at hx
      rw [htot]
      rcases List.mem_append.mp hx with hx | hx
      · obtain ⟨i, hi⟩ := List.mem_iff_getElem?.mp hx
        exact h.tree.weight_le i x hi
      · simp at hx; subst hx; simp only [Node.weight]; omega
    · rw [h5, htot, hw]
    · rw [h3, hcount]; exact TreeInv.present_chars h.tree hp
  rw [e] at hT ⊢
  exact inv_toTree h (.inr (.inr hp)) hT

/-- `BUILD` keeps the invariants (42_tree.md R99). -/
theorem inv_build {b b1 b2 : Block} (h : Inv b) (hp : b.phase = .idle ∨ b.phase = .count) (hs : seed b = .ok b1)
    (hm : mergeWhile b1.pq.length b1 = .ok b2) : Inv { b2 with phase := .tree } := by
  have hin : b.phase ∈ [Phase.idle, .count] := by simpa using hp
  obtain ⟨hn, hq⟩ := h.tree.idle_empty (by rcases hp with h | h <;> simp [h]) (by rcases hp with h | h <;> simp [h])
  have h0 := h.tree.seq_zero ((show [Phase.idle, .count] ⊆ _ by simp) hin)
  obtain ⟨b1', h1, h2, h3, h4, h5, h6⟩ := seed_forest hn hq h0
  rw [h1] at hs; cases hs
  obtain ⟨b2', h7, h8, h9, h10, h11, h12, h13⟩ := h3.mergeWhile (k := b1.pq.length) (by omega)
  rw [h7] at hm; cases hm
  have hfr := h2.trans h8
  have hph : b2.phase = b.phase := by rw [show b2 = _ from hfr]
  have htot : b2.total = b.total := by rw [show b2 = _ from hfr]
  have hcount : b2.count = b.count := by funext d; apply count_congr; rw [show b2 = _ from hfr]
  have e : ({ b2 with phase := .tree } : Block) =
    { b with node := b2.node, pq := b2.pq, seq := b2.seq, phase := .tree } := by
    rw [show b2 = _ from hfr]
  have hT : TreeInv { b2 with phase := .tree } := by
    apply TreeInv.of_forest (b := { b2 with phase := .tree })
      ⟨h9.1, h9.2, h9.3, h9.4, h9.5, h9.6, h9.7, h9.8, h9.9, h9.10, h9.11, h9.12⟩ rfl
    · intro x hx
      show x.weight ≤ b2.total
      rw [htot]
      rcases h13 x hx with hx | hx
      · rw [h4] at hx
        obtain ⟨c, _, rfl⟩ := List.mem_map.mp hx
        exact CountInv.count_le h.count c
      · rw [h6, ← h.count.total_eq] at hx; exact hx
    · show (b2.pq.filterMap (entryWeight? b2.node)).sum = b2.total
      rw [h12, h6, htot, h.count.total_eq]
    · intro c hc
      change b2.count c ≠ 0 at hc
      show c ∈ leafChars b2.node
      rw [h10, h4]
      rw [hcount] at hc
      simp [leafChars, presentBytes, hc]
  rw [e] at hT ⊢
  exact inv_toTree h (by tauto) hT

/-- `HEAD` keeps the invariants (44_encode.md R115). -/
theorem inv_head {b : Block} (h : Inv b) (hp : b.phase = .coded) : Inv { b with phase := .enc } := by
  obtain ⟨hc, htr, htb, he, hd, hr, her⟩ := h
  have hf : b.phase ≠ .fault := by simp [hp]
  have sub : ∀ l : List Phase, [Phase.coded] ⊆ l → b.phase ∈ l := fun l hl => hl (by simp [hp])
  obtain ⟨hn, hq⟩ := htr.idle_empty (by simp [hp]) hf
  have h0 := htr.seq_cap
  refine ⟨⟨hc.1, hc.2⟩, ?_, ?_, ?_, ?_, ?_, ?_⟩
  · constructor <;> first | exact h0 | simp [hn, hq, childIndices, leafCount]
  · constructor <;> first
      | exact htb.listed
      | exact htb.listed_once
      | exact htb.absent_bits
      | exact htb.len_le
      | exact fun _ => htb.coded_present (sub _ (by simp))
      | exact fun _ => htb.coded_bits (sub _ (by simp))
      | exact fun _ => htb.coded_prefix_free (sub _ (by simp))
      | exact fun _ => htb.coded_kraft (sub _ (by simp))
      | simp
  · constructor <;> first | exact he.packer | exact he.encn_le | simp
  · constructor <;> first
      | exact hd.origlen_fits
      | exact hd.dictsz_fits
      | exact hd.maxlen_le
      | exact hd.maxlen_met
      | exact hd.acclen_le
      | exact hd.accbits_lt
      | exact hd.outn_le
      | exact fun _ => hd.header_zero (sub _ (by simp))
      | exact fun _ => hd.maxlen_encode (sub _ (by simp))
      | exact fun _ => hd.outn_zero (sub _ (by simp))
      | exact fun _ _ => hd.acc_zero (by simp [hp]) hf
      | simp
  · constructor <;> first | exact fun _ => hr.encode_run (sub _ (by simp)) | simp
  · constructor
    · simpa [hf] using her.err_iff
    · simp
    · exact fun _ => her.err_clear hf
    · exact her.err_phase

/-- A command of pass 2 changes the encoder registers and `PHASE` alone. -/
theorem inv_encoder {b : Block} (h : Inv b) (hp : b.phase = .enc) {pb pc n p} (hpp : p = .enc ∨ p = .encDone)
    (he' : EncoderInv { b with pkbuf := pb, pkcnt := pc, encn := n, phase := p }) : Inv
      { b with pkbuf := pb, pkcnt := pc, encn := n, phase := p } := by
  obtain ⟨hc, htr, htb, he, hd, hr, her⟩ := h
  have hf : b.phase ≠ .fault := by simp [hp]
  have sub : ∀ l : List Phase, [Phase.enc] ⊆ l → b.phase ∈ l := fun l hl => hl (by simp [hp])
  obtain ⟨hn, hq⟩ := htr.idle_empty (by simp [hp]) hf
  have h0 := htr.seq_cap
  refine ⟨⟨hc.1, hc.2⟩, ?_, ?_, he', ?_, ?_, ?_⟩
  · rcases hpp with rfl | rfl <;> constructor <;> first | exact h0 | simp [hn, hq, childIndices, leafCount]
  · rcases hpp with rfl | rfl <;> constructor <;> first
      | exact htb.listed
      | exact htb.listed_once
      | exact htb.absent_bits
      | exact htb.len_le
      | exact fun _ => htb.coded_present (sub _ (by simp))
      | exact fun _ => htb.coded_bits (sub _ (by simp))
      | exact fun _ => htb.coded_prefix_free (sub _ (by simp))
      | exact fun _ => htb.coded_kraft (sub _ (by simp))
      | simp
  · rcases hpp with rfl | rfl <;> constructor <;> first
      | exact hd.origlen_fits
      | exact hd.dictsz_fits
      | exact hd.maxlen_le
      | exact hd.maxlen_met
      | exact hd.acclen_le
      | exact hd.accbits_lt
      | exact hd.outn_le
      | exact fun _ => hd.header_zero (sub _ (by simp))
      | exact fun _ => hd.maxlen_encode (sub _ (by simp))
      | exact fun _ => hd.outn_zero (sub _ (by simp))
      | exact fun _ _ => hd.acc_zero (by simp [hp]) hf
      | simp
  · rcases hpp with rfl | rfl <;> constructor <;> first | exact fun _ => hr.encode_run (sub _ (by simp)) | simp
  · rcases hpp with rfl | rfl <;> constructor <;> first
      | (simpa [hf] using her.err_iff)
      | exact fun _ => her.err_clear hf
      | exact her.err_phase

/-- `ENC` keeps the invariants (44_encode.md R118). -/
theorem inv_enc {b : Block} {d r} (h : Inv b) (hp : b.phase = .enc) (hr : encRule d b = .ok r) : Inv r.block := by
  obtain ⟨h1, h2, rfl⟩ := encRule_ok hr
  have e : ∀ pb pc, ({ b with pkbuf := pb, pkcnt := pc, encn := b.encn + 1 } : Block) =
    { b with pkbuf := pb, pkcnt := pc, encn := b.encn + 1, phase := .enc } := by
    intro pb pc; rw [← hp]
  simp only
  rw [e]
  apply inv_encoder h hp (.inl rfl)
  have he := h.encoder
  have := (packBits_spec (p := { buf := b.pkbuf, cnt := b.pkcnt, out := [] }) (bits := codeBits
    (b.code d)) he.packer).1
  constructor
  · exact this
  · have := he.encn_le; show b.encn + 1 ≤ b.total; omega
  all_goals simp

/-- `ENCEND` keeps the invariants (44_encode.md R120). -/
theorem inv_encend {b : Block} {r} (h : Inv b) (hp : b.phase = .enc) (hr : encendRule b = .ok r) : Inv r.block := by
  obtain ⟨h1, ⟨h2, rfl⟩ | ⟨h2, rfl⟩⟩ := encendRule_ok hr
  · apply inv_encoder (n := b.encn) h hp (.inr rfl)
    constructor <;> simp [PackerInv, h1]
  · apply inv_encoder (pb := b.pkbuf) (pc := b.pkcnt) (n := b.encn) h hp (.inr rfl)
    have he := h.encoder
    constructor
    · exact he.packer
    · exact he.encn_le
    · intro _ _; exact Fin.ext h2
    · simp
    · exact fun _ => h1

/-- `DECST` keeps the invariants (45_decode.md R130). -/
theorem inv_decst {b : Block} (h : Inv b) (hp : b.phase = .idle) : Inv { b with phase := .decHdr } := by
  obtain ⟨hc, htr, htb, he, hd, hr, her⟩ := h
  have hf : b.phase ≠ .fault := by simp [hp]
  have sub : ∀ l : List Phase, [Phase.idle] ⊆ l → b.phase ∈ l := fun l hl => hl (by simp [hp])
  obtain ⟨hn, hq⟩ := htr.idle_empty (by simp [hp]) hf
  have h0 := htr.seq_zero (sub _ (by simp))
  have hz := TableInv.code_absent htb (htb.empty_before (sub _ (by simp)))
  refine ⟨⟨hc.1, hc.2⟩, ?_, ?_, ?_, ?_, ?_, ?_⟩
  · constructor <;> simp [hn, hq, h0, childIndices, leafCount]
  · constructor <;> first
      | exact htb.listed
      | exact htb.listed_once
      | exact htb.absent_bits
      | exact htb.len_le
      | exact fun _ => htb.empty_before (sub _ (by simp))
      | simp
  · constructor <;> first
      | exact he.packer
      | exact he.encn_le
      | exact fun _ _ => he.packer_idle (by simp [hp]) hf
      | exact fun _ => he.encn_zero (sub _ (by simp))
      | simp
  · constructor <;> first
      | exact hd.origlen_fits
      | exact hd.dictsz_fits
      | exact hd.maxlen_le
      | exact hd.maxlen_met
      | exact hd.acclen_le
      | exact hd.accbits_lt
      | exact hd.outn_le
      | exact fun _ => hd.header_zero (sub _ (by simp))
      | exact fun _ => hd.maxlen_encode (sub _ (by simp))
      | exact fun _ => hd.outn_zero (sub _ (by simp))
      | exact fun _ _ => hd.acc_zero (by simp [hp]) hf
      | (intro _ c; show (b.code c).len ≤ _; rw [hz]; simp)
      | simp
  · constructor <;> first | exact fun _ => hr.decode_run (sub _ (by simp)) | simp
  · constructor
    · simpa [hf] using her.err_iff
    · simp
    · exact fun _ => her.err_clear hf
    · exact her.err_phase

theorem unLe_slice_le (st : Vector Byte 16) (lo n : Nat) (hn : n = 8) : unLe
    (stageSlice st lo n) ≤ Config.countMax := by
  have := unLe_lt (stageSlice st lo n)
  have hl : (stageSlice st lo n).length ≤ 8 := by simp [stageSlice, hn]
  have : (256:Nat) ^ (stageSlice st lo n).length ≤ 256 ^ 8 := Nat.pow_le_pow_right (by decide) hl
  simp only [Config.countMax]
  have e : (256:Nat)^8 = 2^64 := by norm_num
  omega

/-- A command of a decode run writes the decode registers and the table alone and keeps the other invariants. -/
theorem inv_decodeRun {b b' : Block} (h : Inv b) (hp : b.phase ∈ [Phase.decHdr, .decDict, .decBits])
    (hp' : b'.phase ∈ [Phase.decHdr, .decDict, .decBits, .decDone])
    (hfr : b' = { b with stage := b'.stage, spos := b'.spos, origlen := b'.origlen, dictsz := b'.dictsz, ct := b'.ct, dord := b'.dord, maxlen := b'.maxlen, accbits := b'.accbits, acclen := b'.acclen, outn := b'.outn, phase := b'.phase })
    (hd' : DecoderInv b') (hT : TableInv b') (hst : b'.phase ∈ [Phase.decBits, .decDone] → b'.spos = 0) : Inv b' := by
  obtain ⟨hc, htr, htb, he, hd, hr, her⟩ := h
  have hf : b.phase ≠ .fault := by rintro h; simp [h] at hp
  have hf' : b'.phase ≠ .fault := by rintro h; simp [h] at hp'
  have hpt : b.phase ≠ .tree := by rintro h; simp [h] at hp
  have hpt' : b'.phase ≠ .tree := by rintro h; simp [h] at hp'
  have hpe : b.phase ≠ .enc := by rintro h; simp [h] at hp
  have sub : ∀ l : List Phase, [Phase.decHdr, .decDict, .decBits] ⊆ l → b.phase ∈ l := fun l hl => hl hp
  obtain ⟨hn, hq⟩ := htr.idle_empty hpt hf
  have h0 := htr.seq_zero (sub _ (by simp))
  have en : b'.node = [] := by rw [hfr]; exact hn
  have eq : b'.pq = [] := by rw [hfr]; exact hq
  have es : b'.seq = 0 := by rw [hfr]; exact h0
  have et : b'.total = b.total := by rw [hfr]
  have ef : b'.freq = b.freq := by rw [hfr]
  have e1 : b'.pkbuf = b.pkbuf := by rw [hfr]
  have e2 : b'.pkcnt = b.pkcnt := by rw [hfr]
  have e3 : b'.encn = b.encn := by rw [hfr]
  have e4 : b'.err = b.err := by rw [hfr]
  have e5 : b'.errcmd = b.errcmd := by rw [hfr]
  have e6 : b'.errphase = b.errphase := by rw [hfr]
  refine ⟨⟨by rw [et, ef]; exact hc.1, by rw [et]; exact hc.2⟩, ?_, hT, ?_, hd', ?_, ?_⟩
  · constructor <;> simp [en, eq, es, childIndices, leafCount, hpt']
  · have hz := he.encn_zero (sub _ (by simp))
    constructor
    · unfold PackerInv; rw [e1, e2]; exact he.packer
    · rw [e3, et]; exact he.encn_le
    · intro _ _; rw [e2]; exact he.packer_idle hpe hf
    · intro _; rw [e3, hz]
    · intro h; simp [h] at hp'
  · constructor
    · intro h
      have : ∀ p : Phase, p ∈ [Phase.decHdr, .decDict, .decBits, .decDone] → p ∈
        [Phase.idle, .count, .tree, .coded, .enc, .encDone] → False := by decide
      exact (this _ hp' h).elim
    · intro _; rw [ef, et]; exact hr.decode_run (sub _ (by simp))
    · exact hst
  · constructor
    · rw [e4]; simpa [hf, hf'] using her.err_iff
    · intro h; exact absurd h hf'
    · intro _; rw [e5, e6]; exact her.err_clear hf
    · rw [e6]; exact her.err_phase

/-- A header byte keeps the invariants (45_decode.md R132). -/
theorem inv_header {b b' : Block} {d} (h : Inv b) (hp : b.phase = .decHdr) (hr : headerByte d b = .ok b') : Inv b'
    := by
  have hd := h.decoder
  have htb := h.table
  have sub : ∀ l : List Phase, [Phase.decHdr] ⊆ l → b.phase ∈ l := fun l hl => hl (by simp [hp])
  have hdz := htb.empty_before (sub _ (by simp))
  have hz := TableInv.code_absent htb hdz
  have hal := hd.acc_zero (by simp [hp]) (by simp [hp])
  have hml : b.maxlen = 0 := by
    rcases hd.maxlen_met with h | ⟨c, hc, _⟩
    · exact h
    · simp [hdz] at hc
  have hmb := hd.maxlen_bound (sub _ (by simp))
  have hoz := hd.outn_zero (sub _ (by simp))
  rcases headerByte_ok hr with ⟨_, rfl⟩ | ⟨_, h2, rfl⟩
  · apply inv_decodeRun h (by simp [hp]) (by simp [hp]) rfl
    · constructor <;> first
        | exact hd.origlen_fits
        | exact hd.dictsz_fits
        | exact hd.maxlen_le
        | exact hd.maxlen_met
        | exact hd.acclen_le
        | exact hd.accbits_lt
        | exact hd.outn_le
        | exact fun _ => hd.header_zero (sub _ (by simp))
        | exact fun _ => hoz
        | exact fun _ _ => hal
        | exact fun _ => hmb
        | simp [hp]
    · constructor <;> first
        | exact htb.listed
        | exact htb.listed_once
        | exact htb.absent_bits
        | exact htb.len_le
        | exact fun _ => hdz
        | simp [hp]
    · simp [hp]
  · have hph : (if unLe (stageSlice (b.stageByte d).stage 8 8) ≠ 0 then Phase.decDict
              else payloadPhase (unLe (stageSlice (b.stageByte d).stage 0 8))) ∈
                [Phase.decDict, .decBits, .decDone] := by
      split
      · simp
      · rcases payloadPhase_cases (unLe (stageSlice (b.stageByte d).stage 0 8)) with ⟨_, h⟩ | ⟨_, h⟩ <;> rw [h]
          <;> simp
    have hpl := payloadPhase_cases (unLe (stageSlice (b.stageByte d).stage 0 8))
    have ho := unLe_slice_le (b.stageByte d).stage 0 8 rfl
    have hdsz := unLe_slice_le (b.stageByte d).stage 8 8 rfl
    revert hph hpl ho hdsz h2
    generalize unLe (stageSlice (b.stageByte d).stage 0 8) = ol
    generalize unLe (stageSlice (b.stageByte d).stage 8 8) = dz
    intro h2 hph hpl ho hdsz
    generalize hpe : (if dz ≠ 0 then Phase.decDict else payloadPhase ol) = p at hph
    have hp3 : p = .decDict ∧ dz ≠ 0 ∨ p = .decBits ∧ dz = 0 ∧ ol ≠ 0 ∨ p = .decDone ∧ dz = 0 ∧ ol = 0 := by
      rw [← hpe]
      split
      · simp [*]
      · have : dz = 0 := by omega
        rcases hpl with ⟨h, h'⟩ | ⟨h, h'⟩
        · exact .inr (.inl ⟨h', this, h⟩)
        · exact .inr (.inr ⟨h', this, h⟩)
    simp only
    apply inv_decodeRun h (by simp [hp]) (by simp; rcases hp3 with ⟨h, _⟩ | ⟨h, _⟩ | ⟨h, _⟩ <;> simp [h]) rfl
    · constructor
      · exact ho
      · exact hdsz
      · rcases hp3 with ⟨h, _⟩ | ⟨h, _⟩ | ⟨h, _⟩ <;> simp [h]
      · rcases hp3 with ⟨h, h'⟩ | ⟨h, _⟩ | ⟨h, _⟩ <;> simp [h, hdz]; omega
      · rcases hp3 with ⟨h, _⟩ | ⟨h, h', _⟩ | ⟨h, h', _⟩ <;> simp [h, hdz]
        · exact h'.symm
        · exact h'.symm
      · exact hd.maxlen_le
      · exact fun _ => hmb
      · exact hd.maxlen_met
      · rcases hp3 with ⟨h, _⟩ | ⟨h, _⟩ | ⟨h, _⟩ <;> simp [h]
      · exact hd.acclen_le
      · exact hd.accbits_lt
      · intro _ h; exact absurd hal h
      · intro _ c hc; change c ∈ b.dord at hc; simp [hdz] at hc
      · exact fun _ _ => hal
      · show b.outn ≤ ol; omega
      · rcases hp3 with ⟨h, _⟩ | ⟨h, h', _⟩ | ⟨h, h', _⟩ <;> simp [h, hoz]; omega
      · rcases hp3 with ⟨h, _⟩ | ⟨h, h', _⟩ | ⟨h, h', h3⟩ <;> simp [h, hoz]; exact h3.symm
      · exact fun _ => hoz
    · constructor <;> first
        | exact htb.listed
        | exact htb.listed_once
        | exact htb.absent_bits
        | exact htb.len_le
        | exact fun _ => hdz
        | (rcases hp3 with ⟨h, _⟩
        | ⟨h, _⟩
        | ⟨h, _⟩ <;> simp [h, hdz])
    · simp

/-- A dictionary byte keeps the invariants (45_decode.md R133, R134). -/
theorem inv_dict {b b' : Block} {d} (h : Inv b) (hp : b.phase = .decDict) (hr : dictByte d b = .ok b') : Inv b' := by
  have hd := h.decoder
  have htb := h.table
  have sub : ∀ l : List Phase, [Phase.decDict] ⊆ l → b.phase ∈ l := fun l hl => hl (by simp [hp])
  have hal := hd.acc_zero (by simp [hp]) (by simp [hp])
  have hmb := hd.maxlen_bound (sub _ (by simp))
  have hoz := hd.outn_zero (sub _ (by simp))
  have hdo := hd.dict_open hp
  have hlk := htb.loaded_keys (sub _ (by simp))
  rcases dictByte_ok hr with ⟨_, rfl⟩ | ⟨_, b2, h2, rfl⟩
  · apply inv_decodeRun h (by simp [hp]) (by simp [hp]) rfl
    · constructor <;> first
        | exact hd.origlen_fits
        | exact hd.dictsz_fits
        | exact hd.maxlen_le
        | exact hd.maxlen_met
        | exact hd.acclen_le
        | exact hd.accbits_lt
        | exact hd.outn_le
        | exact fun _ => hoz
        | exact fun _ _ => hal
        | exact fun _ => hmb
        | exact fun _ => hdo
        | simp [hp]
    · constructor <;> first
        | exact htb.listed
        | exact htb.listed_once
        | exact htb.absent_bits
        | exact htb.len_le
        | exact fun _ => hlk
        | simp [hp]
    · simp [hp]
  · obtain ⟨h3, h4, h5, h6, rfl⟩ := loadRecord_ok h2
    revert h3 h4 h5 h6
    generalize parseRecord (b.stageByte d).stage = rec
    obtain ⟨rb, rl, rc⟩ := rec
    intro h3 h4 h5 h6
    simp only at *
    change (b.code rc).len = 0 at h5
    change ¬ ∃ c, (b.code c).len = rl.toNat ∧ (b.code c).bits = rb at h6
    obtain ⟨n, rfl⟩ : ∃ n : Nat, rl = n := ⟨rl.toNat, by omega⟩
    simp only [Int.toNat_natCast] at *
    have hcode : ∀ c, (Block.code
      ({ ({ b.stageByte d with spos := 0 } : Block).setCode rc ⟨rb, n⟩ with dord := b.dord ++ [rc], maxlen := max b.maxlen n, phase := .idle }) c) = if c = rc then ⟨rb, n⟩ else b.code c := by
      intro c; exact Block.code_setCode _ c rc _
    generalize hbb :
      ({ ({ b.stageByte d with spos := 0 } : Block).setCode rc ⟨rb, n⟩ with dord := b.dord ++ [rc], maxlen := max b.maxlen n, phase := .idle } : Block) = bb at hcode
    generalize hpe : (if 16 * (b.dord ++ [rc]).length = b.dictsz then payloadPhase b.origlen else b.phase) = p
    have hpl := payloadPhase_cases b.origlen
    have hp3 : p = .decDict ∧ 16 * (b.dord.length + 1) < b.dictsz ∨ p = .decBits ∧ 16 *
      (b.dord.length + 1) = b.dictsz ∧ b.origlen ≠ 0 ∨ p = .decDone ∧ 16 * (b.dord.length + 1) = b.dictsz
      ∧ b.origlen = 0 := by
      rw [← hpe]
      simp only [List.length_append, List.length_cons, List.length_nil, zero_add]
      split
      · rcases hpl with ⟨h, h'⟩ | ⟨h, h'⟩
        · exact .inr (.inl ⟨h', ‹_›, h⟩)
        · exact .inr (.inr ⟨h', ‹_›, h⟩)
      · left; refine ⟨hp, ?_⟩; omega
    have hnm : rc ∉ b.dord := fun hm => (htb.listed rc).mpr hm h5
    have goalform :
      ({ ({ b.stageByte d with spos := 0 } : Block).setCode rc ⟨rb, n⟩ with dord := b.dord ++ [rc], maxlen := max b.maxlen n, phase := p } : Block) = { bb with phase := p } := by
      rw [← hbb]
    have hbct : bb.dord = b.dord ++ [rc] := by rw [← hbb]
    have hbml : bb.maxlen = max b.maxlen n := by rw [← hbb]
    have hlisted : ∀ c, (bb.code c).len ≠ 0 ↔ c ∈ bb.dord := by
      intro c
      rw [hcode, hbct]
      by_cases hc : c = rc
      · simp [hc]; omega
      · simp only [if_neg hc, List.mem_append, List.mem_singleton, hc, or_false]; exact htb.listed c
    have hlen_le : ∀ c, (bb.code c).len ≤ bb.maxlen := by
      intro c
      rw [hcode, hbml]
      split
      · simp
      · exact le_trans (hmb c) (by simp)
    have key : Inv { bb with phase := p } := by
      apply inv_decodeRun h (by simp [hp]) (b' := { bb with phase := p }) (by rcases hp3 with ⟨h, _⟩ | ⟨h, _⟩ |
        ⟨h, _⟩ <;> simp [h]) (by rw [← hbb]; rfl)
      · have e1 : bb.origlen = b.origlen := by rw [← hbb]; rfl
        have e2 : bb.dictsz = b.dictsz := by rw [← hbb]; rfl
        have e3 : bb.acclen = b.acclen := by rw [← hbb]; rfl
        have e4 : bb.accbits = b.accbits := by rw [← hbb]; rfl
        have e5 : bb.outn = b.outn := by rw [← hbb]; rfl
        have hml := hd.maxlen_le
        simp only [Config.maxCodeLen] at hml
        constructor
        · show bb.origlen ≤ _; rw [e1]; exact hd.origlen_fits
        · show bb.dictsz ≤ _; rw [e2]; exact hd.dictsz_fits
        · rcases hp3 with ⟨h, _⟩ | ⟨h, _⟩ | ⟨h, _⟩ <;> simp [h]
        · rcases hp3 with ⟨h, _⟩ | ⟨h, _⟩ | ⟨h, _⟩ <;> simp [h, e2, hbct]; omega
        · rcases hp3 with ⟨h, _⟩ | ⟨h, _⟩ | ⟨h, _⟩ <;> simp [h, e2, hbct] <;> omega
        · show bb.maxlen ≤ 64; rw [hbml]; omega
        · exact fun _ => hlen_le
        · right
          show ∃ c ∈ bb.dord, (bb.code c).len = bb.maxlen
          by_cases hmx : b.maxlen ≤ n
          · exact ⟨rc, by simp [hbct], by rw [hcode, if_pos rfl, hbml]; simp [hmx]⟩
          · rcases hd.maxlen_met with h0 | ⟨c, hc, h0⟩
            · omega
            · exact ⟨c, by simp [hbct, hc], by rw [hcode, if_neg (by rintro rfl; exact hnm hc), hbml, h0]; omega⟩
        · rcases hp3 with ⟨h, _⟩ | ⟨h, _⟩ | ⟨h, _⟩ <;> simp [h]
        · show bb.acclen ≤ bb.maxlen; rw [e3, hbml]; have := hd.acclen_le; omega
        · show bb.accbits.toNat < 2 ^ bb.acclen; rw [e3, e4]; exact hd.accbits_lt
        · intro _ h; exact absurd (e3.trans hal) h
        · intro _ c hc _ hpre
          change c ∈ bb.dord at hc
          change (codeBits (bb.code c)).IsPrefix (codeBits ⟨bb.accbits, bb.acclen⟩) at hpre
          have hl := hpre.length_le
          simp only [codeBits_length, e3, hal] at hl
          exact (hlisted c).mpr hc (by omega)
        · exact fun _ _ => e3.trans hal
        · show bb.outn ≤ bb.origlen; rw [e5, e1]; exact hd.outn_le
        · rcases hp3 with ⟨h, _⟩ | ⟨h, _, h'⟩ | ⟨h, _⟩ <;> simp [h, e5, e1, hoz]; omega
        · rcases hp3 with ⟨h, _⟩ | ⟨h, _, h'⟩ | ⟨h, _, h'⟩ <;> simp [h, e5, e1, hoz]; omega
        · intro _; exact e5.trans hoz
      · constructor
        · exact hlisted
        · show bb.dord.Nodup
          rw [hbct, List.nodup_append]
          refine ⟨htb.listed_once, by simp, ?_⟩
          intro a ha c hc; simp at hc; subst hc; rintro rfl; exact hnm ha
        · intro c hc
          change (bb.code c).len = 0 at hc
          show (bb.code c).bits = 0
          rw [hcode] at hc ⊢
          split at hc
          · simp only at hc; omega
          · rw [if_neg ‹_›]; exact htb.absent_bits c hc
        · intro c
          show (bb.code c).len ≤ 64
          rw [hcode]; split
          · simp only; omega
          · exact htb.len_le c
        · rcases hp3 with ⟨h, _⟩ | ⟨h, _⟩ | ⟨h, _⟩ <;> simp [h]
        · rcases hp3 with ⟨h, _⟩ | ⟨h, _⟩ | ⟨h, _⟩ <;> simp [h]
        · rcases hp3 with ⟨h, _⟩ | ⟨h, _⟩ | ⟨h, _⟩ <;> simp [h]
        · rcases hp3 with ⟨h, _⟩ | ⟨h, _⟩ | ⟨h, _⟩ <;> simp [h]
        · rcases hp3 with ⟨h, _⟩ | ⟨h, _⟩ | ⟨h, _⟩ <;> simp [h]
        · intro _ c hc c' hc' he
          change c ∈ bb.dord at hc
          change c' ∈ bb.dord at hc'
          change bb.code c = bb.code c' at he
          rw [hcode, hcode] at he
          rw [hbct] at hc hc'
          simp only [List.mem_append, List.mem_singleton] at hc hc'
          by_cases h7 : c = rc <;> by_cases h8 : c' = rc
          · rw [h7, h8]
          · rw [if_pos h7, if_neg h8] at he
            exact absurd ⟨c', by rw [← he], by rw [← he]⟩ h6
          · rw [if_neg h7, if_pos h8] at he
            exact absurd ⟨c, by rw [he], by rw [he]⟩ h6
          · rw [if_neg h7, if_neg h8] at he
            exact hlk c (by tauto) c' (by tauto) he
      · intro _; show bb.spos = 0; rw [← hbb]; rfl
    rw [← goalform, ← hpe] at key
    exact key

/-- The invariants give what the bit stage assumes. -/
theorem BitStage.of_inv {b : Block} (h : Inv b) (hp : b.phase = .decBits) : BitStage b :=
  ⟨h.table.listed, h.decoder.maxlen_le, h.decoder.maxlen_bound (by simp
    [hp]), h.decoder.acclen_le, h.decoder.accbits_lt, h.decoder.acc_unmatched hp, h.decoder.acc_no_prefix hp, h.decoder.outn_lt hp⟩

/-- A byte of the bitstream keeps the invariants (45_decode.md R135). -/
theorem inv_bits {b b' : Block} {d out} (h : Inv b) (hp : b.phase = .decBits) (hr : bitsLoop (byteBits d) b [] = .ok
    (b', out)) : Inv b' := by
  have hw := BitStage.of_inv h hp
  have hfr := bitsLoop_frame hr
  obtain ⟨new, k, e1, e2, e3, e4, e5, e6, e7⟩ := bitsLoop_spec hw hp hr
  have hd := h.decoder
  have htb := h.table
  have sub : ∀ l : List Phase, [Phase.decBits] ⊆ l → b.phase ∈ l := fun l hl => hl (by simp [hp])
  have hdc := hd.dict_closed (sub _ (by simp))
  have hlk := htb.loaded_keys (sub _ (by simp))
  have hmb := hd.maxlen_bound (sub _ (by simp))
  have hol := hd.outn_lt hp
  unfold SameButAutomaton at hfr
  have c1 : b'.ct = b.ct := by rw [hfr]
  have c2 : b'.dord = b.dord := by rw [hfr]
  have c3 : b'.maxlen = b.maxlen := by rw [hfr]
  have c4 : b'.origlen = b.origlen := by rw [hfr]
  have c5 : b'.dictsz = b.dictsz := by rw [hfr]
  have c6 : b'.spos = b.spos := by rw [hfr]
  have cc := code_congr c1
  have hp2 : b'.phase ∈ [Phase.decBits, .decDone] := by rcases e7 with ⟨h, _⟩ | ⟨h, _⟩ <;> simp [h]
  apply inv_decodeRun h (by simp [hp]) (by rcases e7 with ⟨h, _⟩ | ⟨h, _⟩ <;> simp [h]) (by rw [hfr])
  · constructor
    · rw [c4]; exact hd.origlen_fits
    · rw [c5]; exact hd.dictsz_fits
    · rcases e7 with ⟨h, _⟩ | ⟨h, _⟩ <;> simp [h]
    · rcases e7 with ⟨h, _⟩ | ⟨h, _⟩ <;> simp [h]
    · intro _; rw [c2, c5]; exact hdc
    · rw [c3]; exact hd.maxlen_le
    · intro _ c; rw [cc, c3]; exact hmb c
    · rw [c3, c2]; simp only [cc]; exact hd.maxlen_met
    · rcases e7 with ⟨h, _⟩ | ⟨h, _⟩ <;> simp [h]
    · rcases e7 with ⟨h, _, hw'⟩ | ⟨h, _, _, h4, _⟩
      · exact hw'.acclen_le
      · rw [h4]; omega
    · rcases e7 with ⟨h, _, hw'⟩ | ⟨h, _, h3, h4, _⟩
      · exact hw'.accbits_lt
      · rw [h3, h4]; decide
    · intro hph
      rcases e7 with ⟨h, _, hw'⟩ | ⟨h, _⟩
      · exact hw'.unmatched
      · rw [h] at hph; cases hph
    · intro hph
      rcases e7 with ⟨h, _, hw'⟩ | ⟨h, _⟩
      · exact hw'.no_prefix
      · rw [h] at hph; cases hph
    · rcases e7 with ⟨h, _, hw'⟩ | ⟨h, _, _, h4, _⟩
      · intro h'; exact absurd h h'
      · intro _ _; exact h4
    · rcases e7 with ⟨h, _, hw'⟩ | ⟨h, h2, _, h4, _⟩
      · exact Nat.le_of_lt hw'.outn_lt
      · omega
    · rcases e7 with ⟨h, _, hw'⟩ | ⟨h, h2, _, h4, _⟩
      · exact fun _ => hw'.outn_lt
      · rw [h]; simp
    · rcases e7 with ⟨h, _, hw'⟩ | ⟨h, h2, _, h4, _⟩
      · rw [h]; simp
      · exact fun _ => h2
    · rcases e7 with ⟨h, _⟩ | ⟨h, _⟩ <;> simp [h]
  · constructor
    · simp only [cc, c2]; exact htb.listed
    · rw [c2]; exact htb.listed_once
    · simp only [cc]; exact htb.absent_bits
    · simp only [cc]; exact htb.len_le
    · rcases e7 with ⟨h, _⟩ | ⟨h, _⟩ <;> simp [h]
    · rcases e7 with ⟨h, _⟩ | ⟨h, _⟩ <;> simp [h]
    · rcases e7 with ⟨h, _⟩ | ⟨h, _⟩ <;> simp [h]
    · rcases e7 with ⟨h, _⟩ | ⟨h, _⟩ <;> simp [h]
    · rcases e7 with ⟨h, _⟩ | ⟨h, _⟩ <;> simp [h]
    · intro _; simp only [cc, c2]; exact hlk
  · intro _; rw [c6]; exact h.run.staged (sub _ (by simp))

end Sys2Proof.Machine
end

