-- ==== Sys2Proof/Laws/PerInstr.lean ====
section
/-! SUPPORT. Statements about every command as syntax, one lemma per constructor: the word of a command carries the fields of
a legal command (30_encoding.md R64, R65). -/

namespace Sys2Proof.Laws.LegalFields

/-- The word of the command has an assigned opcode, a zero reserved field and no unused operand (30_encoding.md R64, R65). -/
def Statement (i : Instr) : Prop := (C16.ofWord (encode i)).wf = true

theorem nop : Statement .nop := by simp [Statement]; decide
theorem clr : Statement .clr := by simp [Statement]; decide
theorem freq (d : Byte) : Statement (.freq d) := by
  simp [Statement, C16.wf, C16.opAssigned, C16.reservedZero, C16.operandOk, C16.takesOperand, Instr.opcode]
theorem seed : Statement .seed := by simp [Statement]; decide
theorem merge : Statement .merge := by simp [Statement]; decide
theorem build : Statement .build := by simp [Statement]; decide
theorem gen : Statement .gen := by simp [Statement]; decide
theorem head : Statement .head := by simp [Statement]; decide
theorem enc (d : Byte) : Statement (.enc d) := by
  simp [Statement, C16.wf, C16.opAssigned, C16.reservedZero, C16.operandOk, C16.takesOperand, Instr.opcode]
theorem encend : Statement .encend := by simp [Statement]; decide
theorem decst : Statement .decst := by simp [Statement]; decide
theorem dec (d : Byte) : Statement (.dec d) := by
  simp [Statement, C16.wf, C16.opAssigned, C16.reservedZero, C16.operandOk, C16.takesOperand, Instr.opcode]
theorem decend : Statement .decend := by simp [Statement]; decide

end Sys2Proof.Laws.LegalFields
end

