-- ==== Sys2Proof/Tests/Slice0.lean ====
section
/-! SUPPORT. Small tests: the well-formedness checks refuse what they should, words written out from the encodings decode to
their commands, one or two vectors of 95_test_vectors.md per command, and for every statement with hypotheses a concrete
state and operands that meet them. Expected values are the spec's. -/

-- One theorem at a time: the kernel evaluations below would otherwise run side by side.
set_option Elab.async false

namespace Sys2Proof.Tests

open Sys2Proof Sys2Proof.Machine

/-! ## Well-formedness (30_encoding.md R64, R65) -/

theorem test_wf_reserved_opcode : (C16.mk 0xD 0 0).wf = false ∧ (C16.mk 0xD 0 0).opAssigned = false := by decide
theorem test_wf_reserved_field : (C16.mk 0x2 1 0x61).wf = false ∧ (C16.mk 0x2 1 0x61).reservedZero = false := by decide
theorem test_wf_unused_operand : (C16.mk 0x0 0 1).wf = false ∧ (C16.mk 0x0 0 1).operandOk = false := by decide
theorem test_wf_accepts : (C16.mk 0x2 0 0xFF).wf = true ∧ (C16.mk 0xC 0 0).wf = true := by decide

/-! ## Decoding: words written bit by bit from 30_encoding.md R60 and R63 -/

theorem test_decode_nop : decode 0b0000_0000_00000000#16 = .ok .nop := by decide
theorem test_decode_clr : decode 0b0001_0000_00000000#16 = .ok .clr := by decide
theorem test_decode_freq : decode 0b0010_0000_01100001#16 = .ok (.freq 0x61) := by decide
theorem test_decode_seed : decode 0b0011_0000_00000000#16 = .ok .seed := by decide
theorem test_decode_merge : decode 0b0100_0000_00000000#16 = .ok .merge := by decide
theorem test_decode_build : decode 0b0101_0000_00000000#16 = .ok .build := by decide
theorem test_decode_gen : decode 0b0110_0000_00000000#16 = .ok .gen := by decide
theorem test_decode_head : decode 0b0111_0000_00000000#16 = .ok .head := by decide
theorem test_decode_enc : decode 0b1000_0000_10000001#16 = .ok (.enc 0x81) := by decide
theorem test_decode_encend : decode 0b1001_0000_00000000#16 = .ok .encend := by decide
theorem test_decode_decst : decode 0b1010_0000_00000000#16 = .ok .decst := by decide
theorem test_decode_dec : decode 0b1011_0000_11111110#16 = .ok (.dec 0xFE) := by decide
theorem test_decode_decend : decode 0b1100_0000_00000000#16 = .ok .decend := by decide
theorem test_decode_reserved : decode 0b1101_0000_00000000#16 = .error .reservedOpcode := by decide
theorem test_decode_rs : decode 0b0010_0001_01100001#16 = .error .reservedField := by decide
theorem test_decode_d : decode 0b0101_0000_00000001#16 = .error .unusedOperand := by decide
theorem test_decodeTableWord : decodeTableWord 16 0x2061 = some (.freq 0x61) ∧ decodeTableWord 16 0xE0FF = none := by decide

/-! ## States -/

/-- A machine with this block, nothing presented, nothing on the ports. -/
def on (b : Block) : State := { block := b, port := [], wire := [] }

/-- A machine with this block and these events presented. -/
def given (b : Block) (es : List HostEvent) : State := { block := b, port := es, wire := [] }

/-- The reset block but for its phase. -/
def inPhase (p : Phase) : Block := { Block.reset with phase := p }

/-- The block in `FAULT` after the illegal word 0xD000 (V-CTL-3). -/
def faultedBlock : Block := { Block.reset with phase := .fault, err := 0x0B, errcmd := 0xD000 }

/-- The count table with these counts, all others 0. -/
def counts (l : List (Byte × Nat)) : Table Nat 256 :=
  l.foldl (fun v x => v.set (charIndex x.1) x.2) (Table.replicate 256 0)

/-- The code table with these codes, all others absent. -/
def codes (l : List (Byte × Code)) : Table Code 256 :=
  l.foldl (fun v x => v.set (charIndex x.1) x.2) (Table.replicate 256 ⟨0, 0⟩)

/-- After pass 1 with these counts. -/
def counted (l : List (Byte × Nat)) (n : Nat) : Block := { Block.reset with freq := counts l, total := n, phase := .count }

/-- "ab" counted, built, generated (V-ENC-4, V-GEN-3). -/
def abCounted : Block := counted [(0x61, 1), (0x62, 1)] 2
def abSeeded : Block :=
  { abCounted with node := [.leaf 0x61 1, .leaf 0x62 1], pq := [⟨0, 0⟩, ⟨1, 1⟩], seq := 2, phase := .tree }
def abTree : Block :=
  { abCounted with node := [.leaf 0x61 1, .leaf 0x62 1, .internal 2 0 1], pq := [⟨2, 2⟩], seq := 3, phase := .tree }
def abCoded : Block :=
  { abCounted with seq := 3, phase := .coded, ct := codes [(0x61, ⟨0, 1⟩), (0x62, ⟨1, 1⟩)], dord := [0x61, 0x62] }
def abEnc : Block := { abCoded with phase := .enc }

/-- "aabbc" counted and seeded (V-TREE-4). -/
def aabbcCounted : Block := counted [(0x61, 2), (0x62, 2), (0x63, 1)] 5
def aabbcSeeded : Block :=
  { aabbcCounted with
    node := [.leaf 0x61 2, .leaf 0x62 2, .leaf 0x63 1], pq := [⟨2, 2⟩, ⟨0, 0⟩, ⟨1, 1⟩], seq := 3, phase := .tree }

/-- "aaaa" counted and built (V-TREE-2). -/
def aCounted : Block := counted [(0x61, 4)] 4
def aTree : Block := { aCounted with node := [.leaf 0x61 4], pq := [⟨0, 0⟩], seq := 1, phase := .tree }

/-- A staging buffer with these bytes in front. -/
def staged (l : List Byte) : Vector Byte 16 :=
  (List.range l.length).foldl (fun v k => v.set! k (l.getD k 0)) (Vector.replicate 16 0)

/-- A decode run of `n` bytes whose records a = `(0,1)`, b = `(1,1)` are loaded. -/
def abLoaded (n : Nat) : Block :=
  { Block.reset with
    phase := .decBits, origlen := n, dictsz := 32, maxlen := 1, stage := staged [1, 0, 0, 0, 0, 0, 0, 0, 1, 0, 0, 0, 0x62],
    ct := codes [(0x61, ⟨0, 1⟩), (0x62, ⟨1, 1⟩)], dord := [0x61, 0x62] }

/-- A decode run of `n` bytes whose one record a = `(0,1)` is loaded (V-DEC-17). -/
def aLoaded (n : Nat) : Block :=
  { Block.reset with
    phase := .decBits, origlen := n, dictsz := 16, maxlen := 1, stage := staged [0, 0, 0, 0, 0, 0, 0, 0, 1, 0, 0, 0, 0x61],
    ct := codes [(0x61, ⟨0, 1⟩)], dord := [0x61] }

/-- 15 header bytes collected: `hdr(o, s)` without its last byte, for `o` and `s` below 256. -/
def hdrBlock (o s : Byte) : Block :=
  { Block.reset with phase := .decHdr, stage := staged [o, 0, 0, 0, 0, 0, 0, 0, s], spos := 15 }

/-- 15 bytes of the record `rec(v, l, c)` collected after the header `hdr(1, 32)`; `l` is the four length bytes. -/
def recBlock (v : Byte) (l : List Byte) (c : Byte) : Block :=
  { Block.reset with
    phase := .decDict, origlen := 1, dictsz := 32, stage := staged ([v, 0, 0, 0, 0, 0, 0, 0] ++ l ++ [c]), spos := 15 }

/-! ## Outcomes -/

/-- `exec` answers a next state with this block, these output bytes and this response code. -/
def answers (i : Instr) (b b' : Block) (out : List Byte) (c : Byte) : Bool :=
  match exec i (on b) with
  | .next t => decide (t = (on b).answered b' out c)
  | .fault _ => false
  | .refused _ => false

/-- The block `exec` leaves. -/
def execBlock (i : Instr) (b : Block) : Option Block :=
  match exec i (on b) with
  | .next t => some t.block
  | .fault _ => none
  | .refused _ => none

/-- The block a step leaves. -/
def stepBlock (s : State) : Option Block :=
  match step s with
  | .next t => some t.block
  | .fault _ => none
  | .refused _ => none

theorem next_of_answers {i : Instr} {b b' : Block} {out : List Byte} {c : Byte} (h : answers i b b' out c = true) :
    exec i (on b) = .next ((on b).answered b' out c) := by
  unfold answers at h
  split at h
  · rename_i t ht
    rw [ht, of_decide_eq_true h]
  · cases h
  · cases h

theorem next_of_execBlock {i : Instr} {b b' : Block} (h : execBlock i b = some b') :
    ∃ t, exec i (on b) = .next t ∧ t.block = b' := by
  unfold execBlock at h
  split at h
  · exact ⟨_, ‹_›, Option.some.inj h⟩
  · cases h
  · cases h

theorem next_of_stepBlock {s : State} {b' : Block} (h : stepBlock s = some b') : ∃ t, step s = .next t ∧ t.block = b' := by
  unfold stepBlock at h
  split at h
  · exact ⟨_, ‹_›, Option.some.inj h⟩
  · cases h
  · cases h

/-- The block fault entry leaves (60_exceptions.md R155). -/
def flt (b : Block) (w : Word16) (c : Byte) : Block :=
  { b with phase := .fault, err := c, errcmd := w, errphase := b.phase }

/-! ## One or two vectors per command (95_test_vectors.md) -/

/-- V-CTL-11: `NOP` in `FAULT` answers `OK` and changes nothing. -/
theorem test_nop_fault : answers .nop faultedBlock faultedBlock [] 0x00 = true := by decide +kernel
/-- V-CTL-14: `CLR` leaves `FAULT`. -/
theorem test_clr_fault : answers .clr faultedBlock Block.reset [] 0x00 = true := by decide +kernel
/-- V-CNT-3. -/
theorem test_freq_last : answers (.freq 0x61) (counted [(0x61, 2 ^ 64 - 2)] (2 ^ 64 - 2))
    (counted [(0x61, 2 ^ 64 - 1)] (2 ^ 64 - 1)) [] 0x00 = true := by decide +kernel
/-- V-CNT-4. -/
theorem test_freq_overflow : answers (.freq 0x62) (counted [(0x61, 2 ^ 64 - 1)] (2 ^ 64 - 1))
    (flt (counted [(0x61, 2 ^ 64 - 1)] (2 ^ 64 - 1)) 0x2062 0x09) [] 0x09 = true := by decide +kernel
/-- V-TREE-4. -/
theorem test_seed_aabbc : answers .seed aabbcCounted aabbcSeeded [] 0x00 = true := by decide +kernel
/-- V-TREE-1. -/
theorem test_seed_empty : answers .seed Block.reset (inPhase .tree) [] 0x01 = true := by decide +kernel
/-- V-TREE-4: the first merge. -/
theorem test_merge_aabbc : answers .merge aabbcSeeded { aabbcSeeded with
    node := aabbcSeeded.node ++ [.internal 3 2 0], pq := [⟨1, 1⟩, ⟨3, 3⟩], seq := 4 } [] 0x00 = true := by decide +kernel
/-- V-TREE-2: the single entry is not consumed. -/
theorem test_merge_single : answers .merge aTree (flt aTree 0x4000 0x02) [] 0x02 = true := by decide +kernel
/-- V-TREE-7: `00 FF 00`. -/
theorem test_build_two : answers .build (counted [(0x00, 2), (0xFF, 1)] 3) { counted [(0x00, 2), (0xFF, 1)] 3 with
    node := [.leaf 0x00 2, .leaf 0xFF 1, .internal 3 1 0], pq := [⟨2, 2⟩], seq := 3, phase := .tree } [] 0x00 = true := by
  decide +kernel
/-- V-TREE-2. -/
theorem test_build_single : answers .build aCounted aTree [] 0x00 = true := by decide +kernel
/-- V-GEN-3: "ab". -/
theorem test_gen_ab : answers .gen abTree abCoded [] 0x00 = true := by decide +kernel
/-- V-TREE-8. -/
theorem test_gen_pending : answers .gen abSeeded (flt abSeeded 0x6000 0x0A) [] 0x0A = true := by decide +kernel
/-- V-ENC-4: header and dictionary. -/
theorem test_head_ab : answers .head abCoded abEnc
    ([0x02, 0, 0, 0, 0, 0, 0, 0] ++ [0x20, 0, 0, 0, 0, 0, 0, 0] ++
      [0, 0, 0, 0, 0, 0, 0, 0, 0x01, 0, 0, 0, 0x61, 0, 0, 0] ++ [0x01, 0, 0, 0, 0, 0, 0, 0, 0x01, 0, 0, 0, 0x62, 0, 0, 0])
    0x00 = true := by decide +kernel
/-- V-CTL-22 and V-CTL-32: out of phase. -/
theorem test_head_phase : answers .head abTree (flt abTree 0x7000 0x0A) [] 0x0A = true := by decide +kernel
/-- V-CTL-15. -/
theorem test_enc_a : answers (.enc 0x61) abEnc { abEnc with pkcnt := 1, encn := 1 } [] 0x00 = true := by decide +kernel
/-- V-ENC-10: a byte without a code. -/
theorem test_enc_no_code : answers (.enc 0x7A) { abEnc with pkcnt := 1, encn := 1 }
    (flt { abEnc with pkcnt := 1, encn := 1 } 0x807A 0x05) [] 0x05 = true := by decide +kernel
/-- V-ENC-4: the last byte, `40`. -/
theorem test_encend_flush : answers .encend { abEnc with pkbuf := 0x40, pkcnt := 2, encn := 2 }
    { abEnc with encn := 2, phase := .encDone } [0x40] 0x00 = true := by decide +kernel
/-- V-ENC-12: too few. -/
theorem test_encend_few : answers .encend { abEnc with pkcnt := 1, encn := 1 }
    (flt { abEnc with pkcnt := 1, encn := 1 } 0x9000 0x0A) [] 0x0A = true := by decide +kernel
/-- P2: the first command of a decode run. -/
theorem test_decst : answers .decst Block.reset (inPhase .decHdr) [] 0x00 = true := by decide +kernel
/-- V-CTL-27. -/
theorem test_decst_phase : answers .decst aCounted (flt aCounted 0xA000 0x0A) [] 0x0A = true := by decide +kernel
/-- V-DEC-17: two matches, then too many bits; the whole command is undone. -/
theorem test_dec_corrupt : answers (.dec 0x20) (aLoaded 4) (flt (aLoaded 4) 0xB020 0x06) [] 0x06 = true := by decide +kernel
/-- The byte of V-ENC-4 read back: two matches, then the rest of the byte makes no difference. -/
theorem test_dec_bits : answers (.dec 0x40) (abLoaded 2) { abLoaded 2 with outn := 2, phase := .decDone }
    [0x61, 0x62] 0x00 = true := by decide +kernel
/-- V-DEC-18. -/
theorem test_decend_early : answers .decend (aLoaded 4) (flt (aLoaded 4) 0xC000 0x06) [] 0x06 = true := by decide +kernel
/-- P5. -/
theorem test_decend_done : answers .decend (inPhase .decDone) (inPhase .decDone) [] 0x00 = true := by decide +kernel

/-- V-FLT-2: an illegal word in the wrong phase is an illegal word first, and answered `Faulted` in `FAULT`. -/
theorem test_step_priority : answersFaulted aTree 0x2161 = false ∧ decode 0x2161 = .error .reservedField ∧
    answersFaulted faultedBlock 0x2161 = true := by decide +kernel

/-! ## Witnesses: blocks that meet the invariants -/

theorem code_of_reset {b : Block} (h : b.ct = Block.reset.ct) (c : Byte) : b.code c = ⟨0, 0⟩ := by
  rw [code_congr h, Block.code_reset]

/-- A condition on codes holds everywhere if it holds of every table entry. -/
theorem forall_code {b : Block} {P : Code → Prop} [DecidablePred P] (h : b.ct.entries.all (fun x => decide (P x)) = true)
    (c : Byte) : P (b.code c) := by
  rw [ct_entries, List.all_eq_true] at h
  exact of_decide_eq_true (h _ (List.mem_map.mpr ⟨c, mem_allBytes c, rfl⟩))

/-- A count pass leaves a block that meets the invariants. -/
theorem inv_counted {l : List (Byte × Nat)} {n : Nat} (h : (counts l).entries.sum = n) (hn : n ≤ Config.countMax) :
    Inv (counted l n) := by
  have hc : ∀ c, (counted l n).code c = ⟨0, 0⟩ := code_of_reset rfl
  refine ⟨⟨h.symm, hn⟩, ?_, ?_, ?_, ?_, ?_, ?_⟩
  · constructor <;> simp [counted, Block.reset, childIndices, leafCount]
  · constructor <;> first | (simp [hc]; done) | (simp only [hc]; simp [counted, Block.reset]) | simp [counted, Block.reset]
  · constructor <;> simp [counted, Block.reset, PackerInv]
  · constructor <;> first | (simp [hc]; done) | (simp only [hc]; simp [counted, Block.reset]) | simp [counted, Block.reset]
  · constructor <;> simp [counted, Block.reset]
  · constructor <;> simp [counted, Block.reset]

/-- The start of a decode run meets the invariants. -/
theorem inv_decHdr : Inv (inPhase .decHdr) := by
  have hc : ∀ c, (inPhase .decHdr).code c = ⟨0, 0⟩ := code_of_reset rfl
  refine ⟨⟨?_, ?_⟩, ?_, ?_, ?_, ?_, ?_, ?_⟩
  · show 0 = (List.replicate 256 0).sum
    rw [List.sum_replicate]; rfl
  · show 0 ≤ _; omega
  · constructor <;> simp [inPhase, Block.reset, childIndices, leafCount]
  · constructor <;> first | (simp [hc]; done) | (simp only [hc]; simp [inPhase, Block.reset]) | simp [inPhase, Block.reset]
  · constructor <;> simp [inPhase, Block.reset, PackerInv]
  · constructor <;> first | (simp [hc]; done) | (simp only [hc]; simp [inPhase, Block.reset]) | simp [inPhase, Block.reset]
  · constructor <;> simp [inPhase, Block.reset]
  · constructor <;> simp [inPhase, Block.reset]

/-- The block after these bytes of a file, while none of them faults. -/
def fed : List Byte → Block → Option Block
  | [], b => some b
  | d :: ds, b =>
    match decRule d b with
    | .ok r => fed ds r.block
    | .error _ => none

theorem inv_fed {ds : List Byte} {b b' : Block} (h : Inv b) (hf : fed ds b = some b') : Inv b' := by
  induction ds generalizing b with
  | nil => cases hf; exact h
  | cons d ds ih =>
    unfold fed at hf
    split at hf
    · rename_i r hr
      refine ih ?_ hf
      rcases decRule_ok hr with ⟨hp, b1, h1, rfl⟩ | ⟨hp, b1, h1, rfl⟩ | ⟨hp, b1, out, h1, rfl⟩ | ⟨hp, rfl⟩
      · exact inv_header h hp h1
      · exact inv_dict h hp h1
      · exact inv_bits h hp h1
      · exact h
    · cases hf

/-- The block `BUILD` leaves. -/
def built (b : Block) : Option Block :=
  match buildRule b with
  | .ok r => some r.block
  | .error _ => none

theorem inv_built {b b' : Block} (h : Inv b) (hp : b.phase = .count) (hb : built b = some b') : Inv b' := by
  unfold built at hb
  split at hb
  · rename_i r hr
    obtain ⟨b1, b2, h1, h2, rfl⟩ := buildRule_ok hr
    cases hb
    exact inv_build h (.inr hp) h1 h2
  · cases hb

/-- The block `SEED` leaves. -/
def seeded (b : Block) : Option Block :=
  match seed b with
  | .ok b' => some { b' with phase := .tree }
  | .error _ => none

theorem inv_seeded {b b' : Block} (h : Inv b) (hp : b.phase = .count) (hb : seeded b = some b') : Inv b' := by
  unfold seeded at hb
  split at hb
  · rename_i b1 hr
    cases hb
    exact inv_seed h (.inr hp) hr
  · cases hb

theorem inv_abCounted : Inv abCounted := inv_counted (by decide +kernel) (by decide +kernel)
theorem inv_abSeeded : Inv abSeeded := inv_seeded inv_abCounted rfl (by decide +kernel)
theorem inv_abTree : Inv abTree := inv_built inv_abCounted rfl (by decide +kernel)
theorem inv_abCoded : Inv abCoded := by
  have h : genBlock abTree (.node (.leaf 0x61) (.leaf 0x62)) = abCoded := by decide +kernel
  rw [← h]
  exact inv_genTree inv_abTree rfl rfl (.node rfl (.leaf rfl) (.leaf rfl)) (by decide)
theorem inv_abEnc : Inv abEnc := inv_head inv_abCoded rfl
theorem inv_aCounted : Inv aCounted := inv_counted (by decide +kernel) (by decide +kernel)
theorem inv_aTree : Inv aTree := inv_built inv_aCounted rfl (by decide +kernel)
theorem inv_emptyTree : Inv (inPhase .tree) :=
  inv_built (inv_counted (l := []) (n := 0) (by decide +kernel) (by decide +kernel)) rfl (by decide +kernel)

/-- `hdr(n, 32) ‖ rec(0, 1, a) ‖ rec(1, 1, b)`. -/
def abFile (n : Byte) : List Byte :=
  [n, 0, 0, 0, 0, 0, 0, 0, 32, 0, 0, 0, 0, 0, 0, 0] ++ [0, 0, 0, 0, 0, 0, 0, 0, 1, 0, 0, 0, 0x61, 0, 0, 0] ++
    [1, 0, 0, 0, 0, 0, 0, 0, 1, 0, 0, 0, 0x62, 0, 0, 0]

theorem inv_abLoaded_2 : Inv (abLoaded 2) := inv_fed (ds := abFile 2) inv_decHdr (by decide +kernel)
theorem inv_abLoaded_9 : Inv (abLoaded 9) := inv_fed (ds := abFile 9) inv_decHdr (by decide +kernel)

/-- The counts of V-GEN-5: 66 characters with Fibonacci counts, whose tree is a chain. -/
def fibonacci : Nat → Nat → Nat → List Nat
  | 0, _, _ => []
  | k + 1, x, y => x :: fibonacci k y (x + y)
def deepCounted : Block :=
  counted (((List.range 66).map (BitVec.ofNat 8)).zip (fibonacci 66 1 1)) (fibonacci 66 1 1).sum
/-- `BUILD` leaves one tree with an Internal node at depth 64. -/
def deepCheck (b0 : Block) : Bool :=
  match built b0 with
  | some b =>
    match b.pq with
    | [e] =>
      match follow b.node e.node (List.replicate 64 true) with
      | some (.internal _ _ _) => decide (b.phase = .tree)
      | _ => false
    | _ => false
  | none => false

theorem deep_of_check {b0 : Block} (h : Inv b0) (hp : b0.phase = .count) (hc : deepCheck b0 = true) :
    ∃ b e, Inv b ∧ b.phase = .tree ∧ b.pq = [e] ∧ tooDeep b.node e.node := by
  unfold deepCheck at hc
  split at hc
  · rename_i b hb
    split at hc
    · rename_i e he
      split at hc
      · rename_i w l r hf
        exact ⟨b, e, inv_built h hp hb, of_decide_eq_true hc, he, _, w, l, r, List.length_replicate, hf⟩
      · cases hc
    · cases hc
  · cases hc

/-! ## Witnesses: each statement's hypotheses are met -/

theorem witness_IllegalWordsAreRejected :
    (0xC < ((0xD000 : Word16).extractLsb 15 12).toNat) ∧ ((0x2F61 : Word16).extractLsb 11 8 ≠ 0) ∧
    ((0x0001 : Word16).extractLsb 15 12).toNat ∈ [0x0, 0x1, 0x3, 0x4, 0x5, 0x6, 0x7, 0x9, 0xA, 0xC] ∧
    ((0x0001 : Word16).extractLsb 7 0 ≠ 0) ∧
    ((0xB0FF : Word16).extractLsb 15 12).toNat ∈ [0x2, 0x8, 0xB] ∧ ((0xB0FF : Word16).extractLsb 11 8 = 0) ∧
    ((0xC000 : Word16).extractLsb 15 12).toNat ≤ 0xC ∧ ((0xC000 : Word16).extractLsb 7 0 = 0) := by decide

theorem witness_OpcodeRowSelectsTheCommand : ∃ row ∈ opcodeTable, ∃ (w : Word16) (i : Instr),
    decode w = .ok i ∧ w &&& row.mask = row.pattern :=
  ⟨⟨"NOP", 0x0000, 0xFFFF⟩, by simp [opcodeTable], 0x0000, .nop, by decide, by decide⟩

theorem witness_StepRunsTheDecodedCommand : ∃ (s : State) (w : Word16) (rest : List HostEvent) (i : Instr),
    s.port = .command w :: rest ∧ decode w = .ok i :=
  ⟨given Block.reset [.command 0x2061], 0x2061, [], .freq 0x61, rfl, by decide⟩

theorem witness_IllegalWordRaisesIllegalCommand : ∀ w ∈ [(0xD000 : Word16), 0x2161, 0x5001],
    ∃ (s : State) (rest : List HostEvent) (e : Illegal),
      s.port = .command w :: rest ∧ s.block.phase ≠ .fault ∧ decode w = .error e := by
  intro w hw
  refine ⟨given aTree [.command w], [], ?_⟩
  simp only [List.mem_cons, List.not_mem_nil, or_false] at hw
  rcases hw with rfl | rfl | rfl
  · exact ⟨.reservedOpcode, rfl, by decide, by decide⟩
  · exact ⟨.reservedField, rfl, by decide, by decide⟩
  · exact ⟨.unusedOperand, rfl, by decide, by decide⟩

theorem witness_FaultPhaseAnswersFaulted : ∀ w ∈ [(0x0001 : Word16), 0x1001, 0xFFFF],
    ∃ (s : State) (rest : List HostEvent),
      s.port = .command w :: rest ∧ s.block.phase = .fault ∧ w ≠ 0x0000 ∧ w ≠ 0x1000 := by
  intro w hw
  refine ⟨given faultedBlock [.command w], [], rfl, rfl, ?_⟩
  simp only [List.mem_cons, List.not_mem_nil, or_false] at hw
  rcases hw with rfl | rfl | rfl <;> decide

theorem witness_IdleAndResetSteps : (on Block.reset).port = [] ∧ (given faultedBlock [.reset]).port = .reset :: [] :=
  ⟨rfl, rfl⟩

theorem witness_PhaseTableIsEnforced :
    (Instr.merge ≠ .nop ∧ Instr.merge ≠ .clr ∧ (on Block.reset).block.phase ≠ .fault ∧ ¬ mayExecute .merge .idle) ∧
    (Instr.dec 0 ≠ .nop ∧ Instr.dec 0 ≠ .clr ∧ (on faultedBlock).block.phase = .fault) := by
  simp [mayExecute, on, faultedBlock, Block.reset]

/-- Every case of R153, and the other side of the equivalence: `ProtocolError` in each. -/
theorem witness_ProtocolErrorExactlyWhen :
    [(Instr.merge, Block.reset), (.gen, abSeeded), (.enc 0x61, { abEnc with encn := 2 }), (.encend, abEnc)].all
      (fun x => answers x.1 x.2 (flt x.2 (encode x.1) 0x0A) [] 0x0A && decide (x.2.phase ≠ .fault)) = true := by
  decide +kernel

/-- Commands that fault, with the block they fault on and the code. -/
def faulting : List (Instr × Block × Byte) :=
  [(.freq 0x62, counted [(0x61, 2 ^ 64 - 1)] (2 ^ 64 - 1), 0x09), (.seed, abTree, 0x0A), (.merge, aTree, 0x02),
    (.build, abEnc, 0x0A), (.gen, abSeeded, 0x0A), (.head, abTree, 0x0A), (.enc 0x7A, abEnc, 0x05), (.encend, abEnc, 0x0A),
    (.decst, aCounted, 0x0A), (.dec 0x20, aLoaded 4, 0x06), (.decend, hdrBlock 2 32, 0x07)]

theorem witness_FaultKindsOfEachCommand : faulting.all (fun x =>
    decide (x.2.1.phase ≠ .fault ∧ execBlock x.1 x.2.1 = some (flt x.2.1 (encode x.1) x.2.2))) = true := by
  decide +kernel

theorem witness_FaultsArePrecise : ∀ x ∈ faulting,
    ∃ t, exec x.1 (on x.2.1) = .next t ∧ (on x.2.1).block.phase ≠ .fault ∧ t.block.phase = .fault := by
  intro x hx
  have h := of_decide_eq_true (List.all_eq_true.mp witness_FaultKindsOfEachCommand x hx)
  obtain ⟨t, h1, h2⟩ := next_of_execBlock h.2
  exact ⟨t, h1, h.1, by rw [h2]; rfl⟩

/-- A legal and an illegal word that fault, at the step (also for `OneResponsePerCommand`). -/
theorem witness_FaultsArePrecise_step :
    (∃ s t : State, s.port = [.command 0x4000] ∧ step s = .next t ∧ s.block.phase ≠ .fault ∧ t.block.phase = .fault) ∧
    (∃ s t : State, s.port = [.command 0xD000] ∧ step s = .next t ∧ s.block.phase ≠ .fault ∧ t.block.phase = .fault) := by
  constructor
  · obtain ⟨t, h, h2⟩ := next_of_stepBlock (s := given aTree [.command 0x4000]) (b' := flt aTree 0x4000 0x02)
      (by decide +kernel)
    exact ⟨_, t, rfl, h, by decide +kernel, by rw [h2]; rfl⟩
  · obtain ⟨t, h, h2⟩ := next_of_stepBlock (s := given Block.reset [.command 0xD000]) (b' := faultedBlock) (by decide +kernel)
    exact ⟨_, t, rfl, h, by decide +kernel, by rw [h2]; rfl⟩

/-- In `FAULT`: `CLR`, a reset, any other word. -/
theorem witness_OnlyClrAndResetLeaveFault : ∀ e ∈ [HostEvent.command 0x1000, .reset, .command 0x2061],
    ∃ s t : State, s.port = [e] ∧ s.block.phase = .fault ∧ step s = .next t := by
  intro e he
  refine ⟨given faultedBlock [e], ?_⟩
  simp only [List.mem_cons, List.not_mem_nil, or_false] at he
  rcases he with rfl | rfl | rfl
  · obtain ⟨t, h, _⟩ := next_of_stepBlock (s := given faultedBlock [.command 0x1000]) (b' := Block.reset) (by decide +kernel)
    exact ⟨t, rfl, rfl, h⟩
  · obtain ⟨t, h, _⟩ := next_of_stepBlock (s := given faultedBlock [.reset]) (b' := Block.reset) (by decide +kernel)
    exact ⟨t, rfl, rfl, h⟩
  · obtain ⟨t, h, _⟩ := next_of_stepBlock (s := given faultedBlock [.command 0x2061]) (b' := faultedBlock) (by decide +kernel)
    exact ⟨t, rfl, rfl, h⟩

/-- Every command that completes, `DEC` in its four phases at the ends of its ranges: the block and the phase after it. -/
def completing : List (Instr × Block × Phase) :=
  [(.nop, Block.reset, .idle), (.clr, abEnc, .idle), (.freq 0xFF, Block.reset, .count), (.seed, abCounted, .tree),
    (.merge, abSeeded, .tree), (.build, abCounted, .tree), (.gen, abTree, .coded), (.head, abCoded, .enc),
    (.enc 0x62, abEnc, .enc), (.encend, { abEnc with pkbuf := 0x40, pkcnt := 2, encn := 2 }, .encDone),
    (.decst, Block.reset, .decHdr), (.dec 2, inPhase .decHdr, .decHdr),
    (.dec 0, { hdrBlock 2 32 with spos := 14 }, .decHdr), (.dec 0, hdrBlock 2 32, .decDict), (.dec 0, hdrBlock 2 0, .decBits),
    (.dec 0, hdrBlock 0 0, .decDone), (.dec 0, { recBlock 0 [64, 0, 0, 0] 0x61 with spos := 14 }, .decDict),
    (.dec 0, recBlock 0 [64, 0, 0, 0] 0x61, .decDict),
    (.dec 0, { recBlock 0 [1, 0, 0, 0] 0x61 with dictsz := 16 }, .decBits),
    (.dec 0, { recBlock 0 [1, 0, 0, 0] 0x61 with dictsz := 16, origlen := 0 }, .decDone),
    (.dec 0x40, abLoaded 9, .decBits), (.dec 0x40, abLoaded 2, .decDone), (.dec 0x40, inPhase .decDone, .decDone),
    (.decend, inPhase .decDone, .decDone)]

theorem completing_runs : completing.all (fun x =>
    decide (x.2.1.phase ≠ .fault ∧ x.2.2 ≠ .fault ∧ (execBlock x.1 x.2.1).map Block.phase = some x.2.2)) = true := by
  decide +kernel

theorem witness_CommandFrames : ∀ x ∈ completing, ∃ t, exec x.1 (on x.2.1) = .next t ∧
    (on x.2.1).block.phase ≠ .fault ∧ t.block.phase ≠ .fault ∧ t.block.phase = x.2.2 := by
  intro x hx
  have h := of_decide_eq_true (List.all_eq_true.mp completing_runs x hx)
  obtain ⟨b', h1, h2⟩ := Option.map_eq_some_iff.mp h.2.2
  obtain ⟨t, h3, h4⟩ := next_of_execBlock h1
  exact ⟨t, h3, h.1, by rw [h4, h2]; exact h.2.1, by rw [h4, h2]⟩

theorem witness_PhaseTransitions : ∀ x ∈ completing, ∃ t, exec x.1 (on x.2.1) = .next t ∧
    ((on x.2.1).block.phase = .fault ∨ t.block.phase ≠ .fault) := by
  intro x hx
  obtain ⟨t, h1, _, h2, _⟩ := witness_CommandFrames x hx
  exact ⟨t, h1, .inr h2⟩

/-- `OK`, `EmptyInput`, a fault's code, `Faulted`, and `OK` in `FAULT`. -/
theorem witness_OneResponsePerCommand :
    ∃ t1 t2 t3 t4 t5, exec (.freq 0x61) (on Block.reset) = .next t1 ∧
      exec .seed (on Block.reset) = .next t2 ∧ t2.wire = [.response 0x01] ∧
      exec .merge (on aTree) = .next t3 ∧ t3.wire = [.response 0x02] ∧
      exec .merge (on faultedBlock) = .next t4 ∧ t4.wire = [.response 0x0C] ∧
      exec .nop (on faultedBlock) = .next t5 ∧ t5.wire = [.response 0x00] ∧ t5.block.phase = .fault := by
  obtain ⟨t1, h1, _⟩ := next_of_execBlock (i := .freq 0x61) (b := Block.reset) (b' := counted [(0x61, 1)] 1) (by decide +kernel)
  exact ⟨t1, _, _, _, _, h1, next_of_answers test_seed_empty, rfl, next_of_answers test_merge_single, rfl,
    next_of_answers (show answers .merge faultedBlock faultedBlock [] 0x0C = true by decide +kernel), rfl,
    next_of_answers test_nop_fault, rfl, rfl⟩

theorem witness_OnlyFreqAndClrChangeCounts : ∀ x ∈ completing, ∃ t, exec x.1 (on x.2.1) = .next t := by
  intro x hx
  obtain ⟨t, h, _⟩ := witness_CommandFrames x hx
  exact ⟨t, h⟩

/-- `TOTAL` at 0, one below its end, at its end; a phase that is not legal. -/
theorem witness_FreqCountsOneByte :
    (Block.reset.phase = .idle ∧ Block.reset.total ≠ 2 ^ 64 - 1) ∧
    ((counted [(0x61, 2 ^ 64 - 2)] (2 ^ 64 - 2)).phase = .count ∧ (counted [(0x61, 2 ^ 64 - 2)] (2 ^ 64 - 2)).total ≠ 2 ^ 64 - 1) ∧
    ((counted [(0x61, 2 ^ 64 - 1)] (2 ^ 64 - 1)).phase = .count ∧ (counted [(0x61, 2 ^ 64 - 1)] (2 ^ 64 - 1)).total = 2 ^ 64 - 1) ∧
    aTree.phase ∉ [Phase.idle, .count, .fault] := by decide +kernel

theorem witness_CountingPass : ∃ (s : State) (ds : List Byte) (rest : List HostEvent),
    s.port = ds.map (fun d => HostEvent.command (encode (.freq d))) ++ rest ∧ ds ≠ [] ∧
    (s.block.phase = .idle ∨ s.block.phase = .count) ∧ s.block.total + ds.length ≤ 2 ^ 64 - 1 :=
  ⟨given (counted [(0x61, 2 ^ 64 - 3)] (2 ^ 64 - 3)) [.command 0x2061, .command 0x20FF, .reset], [0x61, 0xFF], [.reset], rfl,
    by decide, .inr rfl, by decide +kernel⟩

theorem witness_SeedQueuesTheLeaves : ∀ b ∈ [Block.reset, aabbcCounted],
    (b.phase = .idle ∨ b.phase = .count) ∧ b.node = [] ∧ b.pq = [] ∧ b.seq = 0 := by
  intro b hb
  simp only [List.mem_cons, List.not_mem_nil, or_false] at hb
  rcases hb with rfl | rfl
  · exact ⟨.inl rfl, rfl, rfl, rfl⟩
  · exact ⟨.inr rfl, rfl, rfl, rfl⟩

theorem witness_EmptyInputIsNoFault :
    (Block.reset.phase = .idle ∨ Block.reset.phase = .count) ∧ (∀ c, Block.reset.count c = 0) ∧ Block.reset.pq = [] :=
  ⟨.inl rfl, Block.count_reset, rfl⟩

theorem witness_OneSymbolIsOneLeaf : CountInv aCounted ∧ aCounted.phase = .count ∧ aCounted.node = [] ∧ aCounted.pq = [] ∧
    aCounted.seq = 0 ∧ ∀ c', aCounted.count c' ≠ 0 ↔ c' = 0x61 := by
  refine ⟨inv_aCounted.count, rfl, rfl, rfl, rfl, fun c => ?_⟩
  have h : aCounted = { (Block.reset.setCount 0x61 4) with total := 4, phase := .count } := rfl
  have h2 : aCounted.count c = if c = 0x61 then 4 else 0 := by
    rw [count_congr (show aCounted.freq = (Block.reset.setCount 0x61 4).freq from rfl), Block.count_setCount, Block.count_reset]
  rw [h2]
  split <;> simp_all

theorem witness_MergeJoinsTheTwoLowest :
    (∃ (s : State) (x y : PqEntry) (rest : List PqEntry) (wx wy : Nat) (ws : List Nat), s.block.phase = .tree ∧
      s.block.pq = x :: y :: rest ∧ s.block.node.length ≠ 511 ∧ entryWeight? s.block.node x = some wx ∧
      entryWeight? s.block.node y = some wy ∧ rest.map (entryWeight? s.block.node) = ws.map some) ∧
    (aTree.phase = .tree ∧ aTree.pq.length < 2) ∧ ((inPhase .tree).phase = .tree ∧ (inPhase .tree).pq.length < 2) :=
  ⟨⟨on aabbcSeeded, ⟨2, 2⟩, ⟨0, 0⟩, [⟨1, 1⟩], 1, 2, [2], rfl, rfl, by decide +kernel, rfl, rfl, rfl⟩, by decide +kernel,
    by decide +kernel⟩

theorem witness_BuildEqualsSeedThenMerges :
    aabbcCounted.phase = .count ∧ aabbcCounted.node = [] ∧ aabbcCounted.pq = [] ∧ aabbcCounted.seq = 0 :=
  ⟨rfl, rfl, rfl, rfl⟩

theorem witness_BuildMergesAllSymbols : Inv abCounted ∧ (abCounted.phase = .idle ∨ abCounted.phase = .count) :=
  ⟨inv_abCounted, .inr rfl⟩

theorem witness_RootWeightIsTotal : ∃ (s t : State) (e : PqEntry), Inv s.block ∧ step s = .next t ∧ t.block.phase = .tree ∧
    t.block.pq = [e] := by
  obtain ⟨t, h, h2⟩ := next_of_stepBlock (s := given abSeeded [.command 0x4000]) (b' := abTree) (by decide +kernel)
  exact ⟨_, t, ⟨2, 2⟩, inv_abSeeded, h, by rw [h2]; rfl, by rw [h2]; rfl⟩

theorem follow_mem {arena : List Node} {n : Nat} {p : List Bool} {x : Node} (h : follow arena n p = some x) : x ∈ arena := by
  induction p generalizing n with
  | nil => exact List.mem_of_getElem? h
  | cons b p ih =>
    unfold follow at h
    split at h
    · exact ih h
    · cases h
    · cases h

theorem not_tooDeep_of_few {arena : List Node} {n : Nat} (h : ∀ x ∈ arena, ∀ w l r, x ≠ Node.internal w l r) :
    ¬ tooDeep arena n := by
  rintro ⟨p, w, l, r, _, hf⟩
  exact h _ (follow_mem hf) w l r rfl

/-- No tree, one Leaf, two Leaves, a tree with an Internal node at depth 64. -/
theorem witness_GenAssignsRootPaths :
    (Inv (inPhase .tree) ∧ (inPhase .tree).phase = .tree ∧ (inPhase .tree).pq = []) ∧
    (Inv aTree ∧ aTree.phase = .tree ∧ aTree.pq = [⟨0, 0⟩] ∧ ¬ tooDeep aTree.node 0) ∧
    (Inv abTree ∧ abTree.phase = .tree ∧ abTree.pq = [⟨2, 2⟩] ∧ ¬ tooDeep abTree.node 2) ∧
    (∃ b e, Inv b ∧ b.phase = .tree ∧ b.pq = [e] ∧ tooDeep b.node e.node) := by
  refine ⟨⟨inv_emptyTree, rfl, rfl⟩, ⟨inv_aTree, rfl, rfl, ?_⟩, ⟨inv_abTree, rfl, rfl, ?_⟩, ?_⟩
  · apply not_tooDeep_of_few
    intro x hx w l r he
    simp [aTree, he] at hx
  · rintro ⟨p, w, l, r, hl, hf⟩
    rcases p with _ | ⟨x, _ | ⟨y, p⟩⟩
    · simp at hl
    · simp at hl
    · cases x <;> simp [abTree, follow] at hf
  · exact deep_of_check (inv_counted (by decide +kernel) (by decide +kernel)) rfl (by decide +kernel : deepCheck deepCounted = true)

theorem witness_GeneratedCodesArePrefixFree :
    ∃ s t : State, Inv s.block ∧ exec .gen s = .next t ∧ t.block.phase = .coded ∧ t.block.dord.length = 2 :=
  ⟨_, _, inv_abTree, next_of_answers test_gen_ab, rfl, rfl⟩

theorem witness_GenFreesTheTree : ∃ s t : State, exec .gen s = .next t ∧ t.block.phase = .coded :=
  ⟨_, _, next_of_answers test_gen_ab, rfl⟩

theorem witness_ClrPutsTheResetState :
    (∃ s t : State, exec .merge s = .next t ∧ Instr.merge ≠ .clr ∧ s.block.phase = .fault) ∧
    (∃ s t : State, exec .merge s = .next t ∧ Instr.merge ≠ .clr ∧ s.block.phase ≠ .idle) :=
  ⟨⟨on faultedBlock, _, next_of_answers (show answers .merge faultedBlock faultedBlock [] 0x0C = true by decide +kernel),
      by decide, rfl⟩,
    ⟨on aTree, _, next_of_answers test_merge_single, by decide, by decide +kernel⟩⟩

theorem witness_HeadEmitsHeaderAndDictionary : Inv abCoded ∧ abCoded.dord ≠ [] ∧
    abCoded.phase = .coded ∧ abCoded.dord.length ≤ 256 ∧ abTree.phase ∉ [Phase.coded, .fault] :=
  ⟨inv_abCoded, by decide +kernel, by decide +kernel⟩

theorem witness_EncPacksTheCode : (Inv abEnc ∧ abEnc.phase = .enc ∧ abEnc.count 0x7A = 0) ∧
    (abEnc.phase = .enc ∧ abEnc.encn ≠ abEnc.total ∧ (abEnc.code 0x61).len ≠ 0 ∧ PackerInv abEnc) ∧
    (abEnc.phase = .enc ∧ { abEnc with encn := 2 }.encn = abEnc.total) ∧
    (abEnc.phase = .enc ∧ abEnc.encn ≠ abEnc.total ∧ (abEnc.code 0x7A).len = 0) ∧
    abTree.phase ∉ [Phase.enc, .fault] :=
  ⟨⟨inv_abEnc, rfl, by decide +kernel⟩, by unfold PackerInv; decide +kernel⟩

/-- A pending partial byte, none, a pass that is not over, another phase. -/
theorem witness_EncendFlushesTheLastByte :
    ∃ b : Block, b.phase = .enc ∧ b.encn = b.total ∧ b.pkcnt.val = 7 ∧ PackerInv b ∧
    ∃ b' : Block, b'.phase = .enc ∧ b'.encn = b'.total ∧ b'.pkcnt.val = 0 ∧ PackerInv b' ∧
    (abEnc.phase = .enc ∧ abEnc.encn ≠ abEnc.total) ∧ abTree.phase ∉ [Phase.enc, .fault] :=
  ⟨{ abEnc with encn := 2, pkcnt := 7, pkbuf := 0xFE }, rfl, rfl, rfl, by unfold PackerInv; decide +kernel,
    { abEnc with encn := 2 }, rfl, rfl, rfl, by unfold PackerInv; decide +kernel, by decide +kernel, by decide +kernel⟩

theorem witness_PackerInvariantKept : ∃ s t : State, PackerInv s.block ∧ step s = .next t ∧ t.block.pkcnt = 3 := by
  obtain ⟨t, h, h2⟩ := next_of_stepBlock
    (s := given { abEnc with total := 9, pkbuf := 0x40, pkcnt := 2, encn := 2 } [.command 0x8062])
    (b' := { abEnc with total := 9, pkbuf := 0x60, pkcnt := 3, encn := 3 }) (by decide +kernel)
  exact ⟨_, t, by unfold PackerInv; decide +kernel, h, by rw [h2]⟩

theorem witness_EncodePassIsTheBitstream : ∃ (s : State) (ds : List Byte),
    s.port = (ds.map Instr.enc ++ [Instr.encend]).map (fun i => HostEvent.command (encode i)) ∧ s.block.phase = .enc ∧
    s.block.pkbuf = 0 ∧ s.block.pkcnt = 0 ∧ s.block.encn = 0 ∧ s.block.total = ds.length ∧ ds ≠ [] ∧
    ∀ d ∈ ds, (s.block.code d).len ≠ 0 :=
  ⟨given abEnc [.command 0x8061, .command 0x8062, .command 0x9000], [0x61, 0x62], rfl, rfl, rfl, rfl, rfl, rfl, by decide,
    by decide +kernel⟩

/-- `IDLE` with the invariants, and another phase. -/
theorem witness_DecstStartsADecodeRun :
    (∃ s : State, Inv s.block ∧ s.block.phase = .idle) ∧ aCounted.phase ∉ [Phase.idle, .fault] := by
  refine ⟨⟨on (inPhase .idle), ?_, rfl⟩, by decide +kernel⟩
  show Inv (inPhase .idle)
  have hc : ∀ c, (inPhase .idle).code c = ⟨0, 0⟩ := code_of_reset rfl
  refine ⟨⟨inv_decHdr.count.1, inv_decHdr.count.2⟩, ?_, ?_, ?_, ?_, ?_, ?_⟩
  · constructor <;> simp [inPhase, Block.reset, childIndices, leafCount]
  · constructor <;> first | (simp [hc]; done) | (simp only [hc]; simp [inPhase, Block.reset]) | simp [inPhase, Block.reset]
  · constructor <;> simp [inPhase, Block.reset, PackerInv]
  · constructor <;> first | (simp [hc]; done) | (simp only [hc]; simp [inPhase, Block.reset]) | simp [inPhase, Block.reset]
  · constructor <;> simp [inPhase, Block.reset]
  · constructor <;> simp [inPhase, Block.reset]

/-- `SPOS` 14 and 15; a dictionary size of 33, of 32, of 0; a length of 2 and of 0. -/
theorem witness_DecReadsTheHeader :
    ({ hdrBlock 2 33 with spos := 14 }.phase = .decHdr ∧ { hdrBlock 2 33 with spos := 14 }.spos.val < 15) ∧
    [(hdrBlock 2 33, 2, 33), (hdrBlock 2 32, 2, 32), (hdrBlock 2 0, 2, 0), (hdrBlock 0 0, 0, 0)].all (fun x =>
      decide (x.1.phase = .decHdr ∧ x.1.spos.val = 15 ∧
        fromLittleEndian ((x.1.stage.set 15 0).toList.take 8) = x.2.1 ∧
        fromLittleEndian ((x.1.stage.set 15 0).toList.drop 8) = x.2.2)) = true := by decide +kernel

/-- The length field of the record that the byte `d` completes. -/
def recordLen (b : Block) (d : Byte) : Int :=
  let u := fromLittleEndian (((b.stage.set 15 d).toList.drop 8).take 4)
  if u < 2 ^ 31 then (u : Int) else (u : Int) - 2 ^ 32

/-- `SPOS` 14 and 15; lengths 0, -1, 65, 64, 1; a character and a key that are there already. -/
theorem witness_DecLoadsARecord :
    { recBlock 0 [1, 0, 0, 0] 0x61 with spos := 14 }.phase = .decDict ∧
    [([0, 0, 0, 0], 0), ([255, 255, 255, 255], -1), ([65, 0, 0, 0], 65), ([64, 0, 0, 0], 64), ([1, 0, 0, 0], 1)].all (fun x =>
      let b := recBlock 0 x.1 0x61
      decide (b.phase = .decDict ∧ b.spos.val = 15 ∧ recordLen b 0 = x.2 ∧ (b.stage.set 15 0)[12] = 0x61)) = true ∧
    (∀ (l : List Byte) (c : Byte), (recBlock 0 l 0x61).code c = ⟨0, 0⟩) ∧
    ({ recBlock 1 [1, 0, 0, 0] 0x61 with ct := codes [(0x61, ⟨0, 1⟩)] }.code 0x61).len ≠ 0 ∧
    ((({ recBlock 0 [1, 0, 0, 0] 0x62 with ct := codes [(0x61, ⟨0, 1⟩)] }.code 0x61).len : Int) = 1 ∧
      ({ recBlock 0 [1, 0, 0, 0] 0x62 with ct := codes [(0x61, ⟨0, 1⟩)] }.code 0x61).bits = 0) :=
  ⟨rfl, by decide +kernel, fun _ => code_of_reset rfl, by decide +kernel, by decide +kernel⟩

/-- The bit stage goes on, and ends. -/
theorem witness_DecEmitsTheMatchedCodes : ∀ x ∈ [(abLoaded 9, Phase.decBits), (abLoaded 2, .decDone)],
    ∃ t, Inv (on x.1).block ∧ (on x.1).block.phase = .decBits ∧ exec (.dec 0x40) (on x.1) = .next t ∧
      t.block.phase = x.2 ∧ t.block.phase ≠ .fault := by
  intro x hx
  simp only [List.mem_cons, List.not_mem_nil, or_false] at hx
  rcases hx with rfl | rfl
  · obtain ⟨t, h1, h2⟩ := next_of_execBlock (i := .dec 0x40) (b := abLoaded 9) (b' := { abLoaded 9 with outn := 8 })
      (by decide +kernel)
    exact ⟨t, inv_abLoaded_9, rfl, h1, by rw [h2]; rfl, by rw [h2]; simp [abLoaded]⟩
  · exact ⟨_, inv_abLoaded_2, rfl, next_of_answers test_dec_bits, rfl, by simp [State.answered]⟩

theorem witness_DecBitsCompletes : ∃ s : State, s.block.phase = .decBits ∧ s.block.acclen + 8 = s.block.maxlen :=
  ⟨on { abLoaded 9 with maxlen := 8 }, rfl, rfl⟩

theorem witness_CorruptStreamOnTooManyBits : ∃ (d : Byte) (s : State), s.block.phase = .decBits ∧
    s.block.acclen = s.block.maxlen ∧ ∀ c, ¬ ((s.block.code c).len = s.block.acclen + 1 ∧
      (s.block.code c).bits.toNat = 2 * s.block.accbits.toNat + (d.getLsbD 7).toNat) :=
  ⟨0, on { aLoaded 4 with accbits := 1, acclen := 1 }, rfl, rfl,
    forall_code (P := fun x => ¬ (x.len = 1 + 1 ∧ x.bits.toNat = 2 * 1 + 0)) (by decide +kernel)⟩

theorem witness_CompleteTablesNeverCorrupt : ∃ s : State, Inv s.block ∧ s.block.phase = .decBits ∧ PrefixFree s.block ∧
    kraftSum s.block = 2 ^ 64 ∧ ∀ c, (s.block.code c).bits.toNat < 2 ^ (s.block.code c).len :=
  ⟨on (abLoaded 9), inv_abLoaded_9, rfl, by unfold PrefixFree; decide +kernel, by decide +kernel,
    forall_code (P := fun x => x.bits.toNat < 2 ^ x.len) (by decide +kernel)⟩

theorem witness_DecDoneDiscardsTheByte : (on (inPhase .decDone)).block.phase = .decDone := rfl

theorem witness_DecendJudgesTheEnd :
    (inPhase .decDone).phase = .decDone ∧ (inPhase .decHdr).phase = .decHdr ∧ (recBlock 0 [] 0).phase = .decDict ∧
    (aLoaded 4).phase = .decBits ∧ Block.reset.phase ∉ [Phase.decHdr, .decDict, .decBits, .decDone, .fault] := by decide +kernel

/-- The last header byte and the byte that ends the run. -/
theorem witness_NoMoreThanOriglenBytes :
    (∃ s t : State, Inv s.block ∧ step s = .next t ∧ s.block.phase = .decHdr ∧ t.block.phase = .decDict) ∧
    (∃ s t : State, Inv s.block ∧ step s = .next t ∧ s.block.phase = .decBits ∧ t.block.phase = .decDone) := by
  constructor
  · obtain ⟨t, h, h2⟩ := next_of_stepBlock (s := given (hdrBlock 2 32) [.command 0xB000])
      (b' := { inPhase .decDict with origlen := 2, dictsz := 32, stage := staged [2, 0, 0, 0, 0, 0, 0, 0, 32] })
      (by decide +kernel)
    exact ⟨_, t, inv_fed (ds := (abFile 2).take 15) inv_decHdr (by decide +kernel), h, rfl, by rw [h2]; rfl⟩
  · obtain ⟨t, h, h2⟩ := next_of_stepBlock (s := given (abLoaded 2) [.command 0xB040])
      (b' := { abLoaded 2 with outn := 2, phase := .decDone }) (by decide +kernel)
    exact ⟨_, t, inv_abLoaded_2, h, rfl, by rw [h2]⟩

theorem witness_InvariantKeptByEveryStep : ∃ s t : State, Inv s.block ∧ step s = .next t ∧ t.block ≠ s.block := by
  obtain ⟨t, h, h2⟩ := next_of_stepBlock (s := given abSeeded [.command 0x4000]) (b' := abTree) (by decide +kernel)
  exact ⟨_, t, inv_abSeeded, h, by rw [h2]; intro h3; exact absurd (congrArg Block.seq h3) (by decide +kernel)⟩

theorem witness_TotalStaysTheSumOfCounts : ∃ s t : State, CountInv s.block ∧ step s = .next t ∧ t.block.total = 3 := by
  obtain ⟨t, h, h2⟩ := next_of_stepBlock (s := given abCounted [.command 0x2061])
    (b' := counted [(0x61, 2), (0x62, 1)] 3) (by decide +kernel)
  exact ⟨_, t, inv_abCounted.count, h, by rw [h2]; rfl⟩

theorem witness_ErrorRegistersInvariant : ∃ s t : State, ErrInv s.block ∧ step s = .next t ∧ t.block.err = 0x02 := by
  obtain ⟨t, h, h2⟩ := next_of_stepBlock (s := given aTree [.command 0x4000]) (b' := flt aTree 0x4000 0x02)
    (by decide +kernel)
  exact ⟨_, t, inv_aTree.err, h, by rw [h2]; rfl⟩

theorem witness_EveryStepIsAnswered : Inv abSeeded := inv_abSeeded

theorem witness_UnreachableFaultsAreDead :
    ∃ s t : State, Inv s.block ∧ exec .gen s = .next t ∧ s.block.phase ≠ .fault ∧ t.block.phase = .fault :=
  ⟨_, _, inv_abSeeded, next_of_answers test_gen_pending, by decide, rfl⟩

theorem witness_DictionaryReadsBack : ∃ s t : State, Inv s.block ∧ s.block.phase = .coded ∧ exec .head s = .next t :=
  ⟨_, _, inv_abCoded, rfl, next_of_answers test_head_ab⟩

/-- The arena after `FREQ` over the input and `BUILD` holds no Internal node. -/
def onlyLeaves (bs : List Byte) : Bool :=
  match runFromReset (bs.map Instr.freq ++ [Instr.build]) with
  | .next s => s.block.node.all (fun x => match x with | .leaf _ _ => true | .internal _ _ _ => false)
  | .fault _ => false
  | .refused _ => false

theorem not_tooDeep_of_onlyLeaves {bs : List Byte} (h : onlyLeaves bs = true) :
    ∀ s e, runFromReset (bs.map Instr.freq ++ [Instr.build]) = .next s → e ∈ s.block.pq → ¬ tooDeep s.block.node e.node := by
  intro s e hs _
  unfold onlyLeaves at h
  rw [hs] at h
  apply not_tooDeep_of_few
  intro x hx w l r he
  have h1 := List.all_eq_true.mp h x hx
  rw [he] at h1
  cases h1

/-- The empty input and "aa". -/
theorem witness_DecodeInvertsEncode : ∀ bs ∈ [([] : List Byte), [0x61, 0x61]], bs.length < 2 ^ 64 ∧
    (∀ s e, runFromReset (bs.map Instr.freq ++ [Instr.build]) = .next s → e ∈ s.block.pq →
      ¬ tooDeep s.block.node e.node) := by
  intro bs hb
  simp only [List.mem_cons, List.not_mem_nil, or_false] at hb
  rcases hb with rfl | rfl
  · exact ⟨by decide, not_tooDeep_of_onlyLeaves (by decide +kernel)⟩
  · exact ⟨by decide, not_tooDeep_of_onlyLeaves (by decide +kernel)⟩

end Sys2Proof.Tests
end

section
/-! PROOFS. The reset block element by element (10_state.md R36), and `CLR` as the command that leaves it. -/

namespace Sys2Proof.Machine

/-- The staging buffer's row of R36. -/
@[simp] theorem Block.stage_reset_getElem (k : Fin 16) : Block.reset.stage[k] = 0 :=
  Vector.getElem_replicate ..

/-- 40_control.md R81, in every state, `FAULT` included. -/
theorem exec_clr_leaves_reset_block (s : State) : ∃ t, exec .clr s = .next t ∧ t.block = Block.reset :=
  ⟨_, exec_clr s, State.answered_block ..⟩

/-- Settles O10: the three tables by their entry lemmas, `CLR` by its effect in every state, and every other element read
off the definition of the reset block. -/
theorem resetValues : Obligations.ResetValues := by
  unfold Obligations.ResetValues
  refine ⟨Block.count_reset, ?_, ?_, ?_, ?_, Block.code_reset, ?_, ?_, ?_, ?_, Block.stage_reset_getElem, ?_, ?_, ?_, ?_,
    ?_, ?_, ?_, ?_, ?_, ?_, ?_, exec_clr_leaves_reset_block⟩
  all_goals rfl

end Sys2Proof.Machine
end

section
/-! PROOFS. The words the decoder accepts are those whose fields are well formed, and it keeps their opcode and operand
(30_encoding.md R64 to R66). -/

namespace Sys2Proof

theorem C16.takesOperand_iff (c : C16) : c.takesOperand = true ↔ c.op.toNat ∈ [0x2, 0x8, 0xB] := by
  simp [C16.takesOperand, ← BitVec.toNat_inj]

theorem C16.wf_iff (c : C16) :
    c.wf = true ↔ c.op.toNat ≤ 0xC ∧ c.rs = 0 ∧ (c.op.toNat ∈ [0x2, 0x8, 0xB] ∨ c.d = 0) := by
  rw [← C16.takesOperand_iff]
  simp [C16.wf, C16.opAssigned, C16.reservedZero, C16.operandOk, and_assoc]

/-- The reserved opcodes are those that select no command (30_encoding.md R64). -/
theorem selectCommand_eq_none_iff (op : BitVec 4) (d : Byte) : selectCommand op d = none ↔ 0xC < op.toNat := by
  unfold selectCommand
  split
  case h_14 => exact iff_of_true rfl (by simp only [imp_false] at *; omega)
  all_goals simp_all

/-- The selected command has the opcode that selects it, and its operand is `d` unless it drops a nonzero `d`. -/
theorem selectCommand_fields {op : BitVec 4} {d : Byte} {i : Instr} (h : selectCommand op d = some i) :
    i.opcode.toNat = op.toNat ∧ (op.toNat ∈ [0x2, 0x8, 0xB] ∨ d = 0 → d = i.operand) := by
  unfold selectCommand at h
  split at h
  case h_14 => cases h
  all_goals
    cases h
    simp_all [Instr.opcode, Instr.operand]

/-- What decoding accepts, and as which command (30_encoding.md R66). -/
theorem decode_eq_ok_iff (w : Word16) (i : Instr) :
    decode w = .ok i ↔ (C16.ofWord w).wf = true ∧ selectCommand (C16.ofWord w).op (C16.ofWord w).d = some i := by
  have hnone := selectCommand_eq_none_iff (C16.ofWord w).op (C16.ofWord w).d
  have hunused := C16.takesOperand_iff (C16.ofWord w)
  rw [C16.takesOperand, decide_eq_true_eq] at hunused
  rw [C16.wf_iff, ← hunused]
  simp only [decode]
  split
  · simp [*]
  · rename_i j hj
    have hop : (C16.ofWord w).op.toNat ≤ 0xC := not_lt.mp fun h => by simp [hnone.mpr h] at hj
    split
    · rename_i hrs
      exact iff_of_false nofun fun h => hrs h.1.2.1
    · rename_i hrs
      split
      · rename_i hd
        exact iff_of_false nofun fun h => h.1.2.2.elim hd.1 hd.2
      · rename_i hd
        have hoperand := or_iff_not_imp_left.mpr fun hn => not_not.mp fun h0 => hd ⟨hn, h0⟩
        simp only [hj, hop, not_not.mp hrs, hoperand, true_and, Except.ok.injEq, Option.some.injEq]

/-- A word with well-formed fields is legal and carries its opcode and operand (30_encoding.md R66). -/
theorem decode_ok_of_wf {w : Word16} (h : (C16.ofWord w).wf = true) :
    ∃ i, decode w = .ok i ∧ i.opcode.toNat = (C16.ofWord w).op.toNat ∧ i.operand = (C16.ofWord w).d := by
  obtain ⟨hop, -, hd⟩ := (C16.wf_iff _).mp h
  have hsome : selectCommand (C16.ofWord w).op (C16.ofWord w).d ≠ none := by
    rw [Ne, selectCommand_eq_none_iff]; omega
  obtain ⟨i, hi⟩ := Option.ne_none_iff_exists'.mp hsome
  obtain ⟨hopcode, hoperand⟩ := selectCommand_fields hi
  exact ⟨i, (decode_eq_ok_iff w i).mpr ⟨h, hi⟩, hopcode, (hoperand hd).symm⟩

/-- A word with ill-formed fields is illegal (30_encoding.md R64, R65). -/
theorem decode_error_of_not_wf {w : Word16} (h : ¬ (C16.ofWord w).wf = true) : ∃ e, decode w = .error e := by
  cases hd : decode w with
  | error e => exact ⟨e, rfl⟩
  | ok i => exact absurd ((decode_eq_ok_iff w i).mp hd).1 h

/-- `C16.wf_iff` with the fields cut out of the word, as 30_encoding.md R61 writes them. -/
theorem wf_ofWord_iff (w : Word16) :
    (C16.ofWord w).wf = true ↔ (w.extractLsb 15 12).toNat ≤ 0xC ∧ w.extractLsb 11 8 = 0 ∧
      ((w.extractLsb 15 12).toNat ∈ [0x2, 0x8, 0xB] ∨ w.extractLsb 7 0 = 0) :=
  C16.wf_iff _

/-- Settles O2: the three kinds of illegal word are the three ways in which a word's fields are ill formed. -/
theorem illegalWordsAreRejected : Obligations.IllegalWordsAreRejected := by
  unfold Obligations.IllegalWordsAreRejected
  intro w
  refine ⟨fun hop => ?_, fun hrs => ?_, fun hop hd => ?_, fun hop hrs hd => ?_⟩
  · refine decode_error_of_not_wf fun h => ?_
    obtain ⟨hop', -, -⟩ := (wf_ofWord_iff w).mp h
    omega
  · refine decode_error_of_not_wf fun h => ?_
    obtain ⟨-, hrs', -⟩ := (wf_ofWord_iff w).mp h
    exact hrs hrs'
  · refine decode_error_of_not_wf fun h => ?_
    obtain ⟨-, -, hop' | hd'⟩ := (wf_ofWord_iff w).mp h
    · simp only [List.mem_cons, List.not_mem_nil, or_false] at hop hop'
      omega
    · exact hd hd'
  · obtain ⟨i, hi, hopcode, hoperand⟩ := decode_ok_of_wf ((wf_ofWord_iff w).mpr ⟨hop, hrs, hd⟩)
    exact ⟨i, hi, hopcode, congrArg BitVec.toNat hoperand⟩

end Sys2Proof
end

section
/-! PROOFS. How a command and a command word are answered: with one response code behind the output bytes, of one of four
kinds (30_encoding.md R68). -/

namespace Sys2Proof.Machine

/-- The codes of the fault kinds lie between `EmptyInput` and `Faulted` (30_encoding.md R68). -/
theorem FaultKind.code_bounds (k : FaultKind) : 2 ≤ k.code.toNat ∧ k.code.toNat ≤ 0x0B := by
  cases k <;> decide

/-! ## No rule of a command ends in `FAULT` by itself -/

theorem payloadPhase_ne_fault (n : Nat) : payloadPhase n ≠ .fault := by
  rcases payloadPhase_cases n with ⟨-, h⟩ | ⟨-, h⟩ <;> simp [h]

theorem headerByte_phase_ne_fault {d : Byte} {b b' : Block} (h : headerByte d b = .ok b') (hf : b.phase ≠ .fault) :
    b'.phase ≠ .fault := by
  rcases headerByte_ok h with ⟨-, rfl⟩ | ⟨-, -, rfl⟩
  · simpa using hf
  · dsimp only
    split
    · decide
    · exact payloadPhase_ne_fault _

theorem dictByte_phase_ne_fault {d : Byte} {b b' : Block} (h : dictByte d b = .ok b') (hf : b.phase ≠ .fault) :
    b'.phase ≠ .fault := by
  rcases dictByte_ok h with ⟨-, rfl⟩ | ⟨-, b2, h2, rfl⟩
  · simpa using hf
  · obtain ⟨-, -, -, -, rfl⟩ := loadRecord_ok h2
    dsimp only
    split
    · exact payloadPhase_ne_fault _
    · simpa using hf

theorem bitsLoop_phase_ne_fault {bits : List Bool} {b b' : Block} {out out' : List Byte}
    (h : bitsLoop bits b out = .ok (b', out')) (hf : b.phase ≠ .fault) : b'.phase ≠ .fault := by
  obtain ⟨new, -, -, -, hp | ⟨hp, -⟩⟩ := bitsLoop_counts h
  · rwa [hp]
  · simp [hp]

/-- `FAULT` is entered by fault entry alone (60_exceptions.md R155). -/
theorem Completes.phase_ne_fault {i : Instr} {b : Block} {r : Done} (h : Completes i b r) (hf : b.phase ≠ .fault) :
    r.block.phase ≠ .fault := by
  cases i <;> simp only [Completes] at h
  case nop => subst h; exact hf
  case clr => subst h; decide
  case freq => obtain ⟨-, rfl⟩ := h; simp
  case seed => obtain ⟨b', -, -, rfl⟩ := h; simp
  case merge => obtain ⟨b', -, hs, rfl⟩ := h; rw [Block.done_block, hs]; exact hf
  case build => obtain ⟨b1, b2, -, -, -, -, -, rfl⟩ := h; simp
  case gen => obtain ⟨-, b', -, -, rfl⟩ := h; simp
  case head => subst h; simp
  case enc => obtain ⟨-, -, rfl⟩ := h; exact hf
  case encend => obtain ⟨-, ⟨-, rfl⟩ | ⟨-, rfl⟩⟩ := h <;> simp
  case decst => subst h; simp
  case dec =>
    obtain ⟨-, b', h, rfl⟩ | ⟨-, b', h, rfl⟩ | ⟨-, b', out, h, rfl⟩ | ⟨-, rfl⟩ := h
    · exact headerByte_phase_ne_fault h hf
    · exact dictByte_phase_ne_fault h hf
    · exact bitsLoop_phase_ne_fault h hf
    · exact hf
  case decend => obtain ⟨-, rfl⟩ := h; exact hf

/-- A command that completes is answered `OK`, `SEED` and `BUILD` possibly `EmptyInput` (42_tree.md R104). -/
theorem Completes.rsp_cases {i : Instr} {b : Block} {r : Done} (h : Completes i b r) :
    r.rsp = .ok ∨ (r.rsp = .emptyInput ∧ (i = .seed ∨ i = .build)) := by
  cases i <;> simp only [Completes] at h
  case seed => obtain ⟨b', -, -, rfl⟩ := h; exact (seedResponse_cases b').imp_right (⟨·, .inl rfl⟩)
  case build => obtain ⟨b1, -, -, -, -, -, -, rfl⟩ := h; exact (seedResponse_cases b1).imp_right (⟨·, .inr rfl⟩)
  all_goals left
  case nop | clr | head | decst => subst h; rfl
  case freq | decend => obtain ⟨-, rfl⟩ := h; rfl
  case merge => obtain ⟨-, -, -, rfl⟩ := h; rfl
  case gen => obtain ⟨-, -, -, -, rfl⟩ := h; rfl
  case enc => obtain ⟨-, -, rfl⟩ := h; rfl
  case encend => obtain ⟨-, ⟨-, rfl⟩ | ⟨-, rfl⟩⟩ := h <;> rfl
  case dec => obtain ⟨-, -, -, rfl⟩ | ⟨-, -, -, rfl⟩ | ⟨-, -, -, -, rfl⟩ | ⟨-, rfl⟩ := h <;> rfl

/-! ## The four kinds of answer -/

/-- How the command `i` is answered on the block `b`: the block it leaves, its output bytes and its response code. -/
inductive Answer (i : Instr) (b : Block) : Block → List Byte → Byte → Prop where
  | ok (b' : Block) (out : List Byte) (hp : b'.phase = .fault → i = .nop) : Answer i b b' out 0x00
  | emptyInput (b' : Block) (out : List Byte) (hi : i = .seed ∨ i = .build) (hp : b'.phase ≠ .fault) :
    Answer i b b' out 0x01
  | fault (w : Word16) (k : FaultKind) (hf : b.phase ≠ .fault) : Answer i b (b.enterFault w k) [] k.code
  | faulted (hf : b.phase = .fault) : Answer i b b [] 0x0C

theorem Answer.code_le {i : Instr} {b b' : Block} {out : List Byte} {c : Byte} (h : Answer i b b' out c) :
    c.toNat ≤ 0x0C := by
  cases h with
  | ok | emptyInput | faulted => decide
  | fault w k => exact k.code_bounds.2.trans (by decide)

/-- A command that completes is answered with success. -/
theorem Completes.answer {i : Instr} {b : Block} {r : Done} (h : Completes i b r) (hf : b.phase ≠ .fault) :
    Answer i b r.block r.out r.rsp.code := by
  have hp := h.phase_ne_fault hf
  rcases h.rsp_cases with hr | ⟨hr, hi⟩
  · rw [hr]; exact .ok _ _ (absurd · hp)
  · rw [hr]; exact .emptyInput _ _ hi hp

/-- Every command that answers leaves one of the four answers on the wire (30_encoding.md R68). -/
theorem exec_answer {i : Instr} {s t : State} (h : exec i s = .next t) :
    ∃ out c, t = s.answered t.block out c ∧ Answer i s.block t.block out c := by
  rcases exec_cases h with ⟨hi, rfl⟩ | ⟨-, rfl⟩ | ⟨-, -, hf, rfl⟩ | ⟨-, -, hf, -, rfl⟩ | ⟨-, -, hf, -, k, -, rfl⟩ |
    ⟨-, -, hf, -, r, hr, rfl⟩
  · exact ⟨[], 0x00, rfl, .ok _ _ fun _ => hi⟩
  · exact ⟨[], 0x00, rfl, .ok _ _ fun hp => by cases hp⟩
  · exact ⟨[], 0x0C, rfl, .faulted hf⟩
  · exact ⟨[], 0x0A, rfl, .fault (encode i) .protocolError hf⟩
  · exact ⟨[], k.code, rfl, .fault (encode i) k hf⟩
  · exact ⟨r.out, r.rsp.code, rfl, (completes_of_ok hr).answer hf⟩

/-- Every command word that is answered gets one response code of at most 0x0C, behind its output bytes. -/
theorem step_command_answered {s t : State} {w : Word16} {rest : List HostEvent} (hp : s.port = .command w :: rest)
    (h : step s = .next t) :
    ∃ out c, t = (s.taken (.command w) rest).answered t.block out c ∧ c.toNat ≤ 0x0C := by
  rcases step_cases h with ⟨hp', -⟩ | ⟨_, hp', -⟩ | ⟨w', rest', hp', hcases⟩
  · simp [hp] at hp'
  · simp [hp] at hp'
  · obtain ⟨rfl, rfl⟩ : w = w' ∧ rest = rest' := by simpa [hp] using hp'
    rcases hcases with ⟨-, -, -, rfl⟩ | ⟨-, -, rfl⟩ | ⟨i, -, hi⟩
    · exact ⟨[], 0x0C, rfl, by decide⟩
    · exact ⟨[], 0x0B, rfl, by decide⟩
    · obtain ⟨out, c, ht, ha⟩ := exec_answer hi
      exact ⟨out, c, ht, ha.code_le⟩

/-- Settles O17: the clauses about a command hold of each of the four answers, the clause about a word is the answer's place
on the wire, and the codes are those of the table. -/
theorem oneResponsePerCommand : Obligations.OneResponsePerCommand := by
  unfold Obligations.OneResponsePerCommand
  refine ⟨fun i s t h => ?_, fun s t w rest hp h => ?_, rfl, rfl⟩
  · obtain ⟨out, c, ht, ha⟩ := exec_answer h
    refine ⟨by rw [ht]; rfl, out, c, by rw [ht]; rfl, ha.code_le, ?_⟩
    generalize t.block = b' at ha
    cases ha with
    | ok _ _ hp => simpa using hp
    | emptyInput _ _ hi hp => simp [hi, hp]
    | fault w k hf =>
      have hk := k.code_bounds
      refine ⟨fun _ => rfl, fun _ _ => ⟨hf, rfl, rfl⟩, fun hc => ?_, fun hc => ?_, fun hc => ?_⟩
      · simp [hc] at hk
      · omega
      · simp [hc] at hk
    | faulted hf => simp [hf]
  · obtain ⟨out, c, ht, hc⟩ := step_command_answered hp h
    exact ⟨by rw [ht]; rfl, out, c, hc, by rw [ht]; rfl⟩

end Sys2Proof.Machine
end

section
/-! PROOFS. `NOP` and `CLR`, and what the phase of a run can become without `CLR` (40_control.md R80, R81). -/

namespace Sys2Proof.Machine

/-- Settles O20, by the equation of `NOP`. -/
theorem nopChangesNothing : Obligations.NopChangesNothing := by
  unfold Obligations.NopChangesNothing
  exact ⟨by decide, exec_nop⟩

/-! ## No rule of a command leads back to `IDLE` -/

theorem payloadPhase_ne_idle (n : Nat) : payloadPhase n ≠ .idle := by
  rcases payloadPhase_cases n with ⟨-, h⟩ | ⟨-, h⟩ <;> simp [h]

/-- The header loader stays in its phase or goes on to the dictionary or the payload (45_decode.md R132). -/
theorem headerByte_phase {d : Byte} {b b' : Block} (h : headerByte d b = .ok b') :
    b'.phase = b.phase ∨ b'.phase = .decDict ∨ b'.phase = payloadPhase b'.origlen := by
  rcases headerByte_ok h with ⟨-, rfl⟩ | ⟨-, -, rfl⟩
  · exact .inl rfl
  · dsimp only
    split
    · exact .inr (.inl rfl)
    · exact .inr (.inr rfl)

/-- The dictionary loader stays in its phase or goes on to the payload (45_decode.md R133). -/
theorem dictByte_phase {d : Byte} {b b' : Block} (h : dictByte d b = .ok b') :
    b'.phase = b.phase ∨ b'.phase = payloadPhase b'.origlen := by
  rcases dictByte_ok h with ⟨-, rfl⟩ | ⟨-, b2, h2, rfl⟩
  · exact .inl rfl
  · obtain ⟨-, -, -, -, rfl⟩ := loadRecord_ok h2
    dsimp only
    split
    · exact .inr rfl
    · exact .inl rfl

/-- Only `CLR` starts a new run: every other command keeps the phase or moves it on (40_control.md R81). -/
theorem Completes.phase_eq_or_ne_idle {i : Instr} {b : Block} {r : Done} (h : Completes i b r) (hc : i ≠ .clr) :
    r.block.phase = b.phase ∨ r.block.phase ≠ .idle := by
  cases i <;> simp only [Completes] at h
  case clr => exact absurd rfl hc
  case nop => subst h; exact .inl rfl
  case merge => obtain ⟨b', -, hs, rfl⟩ := h; left; rw [Block.done_block, hs]
  case enc => obtain ⟨-, -, rfl⟩ := h; exact .inl rfl
  case decend => obtain ⟨-, rfl⟩ := h; exact .inl rfl
  case dec =>
    obtain ⟨-, b', h, rfl⟩ | ⟨-, b', h, rfl⟩ | ⟨-, b', out, h, rfl⟩ | ⟨-, rfl⟩ := h
    · exact (headerByte_phase h).imp_right fun hp => by
        rcases hp with hp | hp <;> simp [hp, payloadPhase_ne_idle]
    · exact (dictByte_phase h).imp_right fun hp => by simp [hp, payloadPhase_ne_idle]
    · obtain ⟨new, -, -, -, hp⟩ := bitsLoop_counts h
      exact hp.imp_right fun ⟨hd, _⟩ => by simp [hd]
    · exact .inl rfl
  all_goals right
  case freq => obtain ⟨-, rfl⟩ := h; simp
  case seed => obtain ⟨b', -, -, rfl⟩ := h; simp
  case build => obtain ⟨b1, b2, -, -, -, -, -, rfl⟩ := h; simp
  case gen => obtain ⟨-, b', -, -, rfl⟩ := h; simp
  case head => subst h; simp
  case encend => obtain ⟨-, ⟨-, rfl⟩ | ⟨-, rfl⟩⟩ := h <;> simp
  case decst => subst h; simp

/-! ## The phase a command leaves -/

/-- What a command other than `CLR` does to the phase: it stays, or, outside `FAULT`, it moves on to a phase that is not
`IDLE`. -/
theorem exec_phase_cases {i : Instr} {s t : State} (h : exec i s = .next t) (hc : i ≠ .clr) :
    t.block.phase = s.block.phase ∨ (s.block.phase ≠ .fault ∧ t.block.phase ≠ .idle) := by
  rcases exec_cases h with ⟨-, rfl⟩ | ⟨hi, -⟩ | ⟨-, -, -, rfl⟩ | ⟨-, -, hf, -, rfl⟩ | ⟨-, -, hf, -, k, -, rfl⟩ |
    ⟨-, -, hf, -, r, hr, rfl⟩
  · exact .inl rfl
  · exact absurd hi hc
  · exact .inl rfl
  · exact .inr ⟨hf, nofun⟩
  · exact .inr ⟨hf, nofun⟩
  · exact ((completes_of_ok hr).phase_eq_or_ne_idle hc).imp_right (⟨hf, ·⟩)

/-- Settles O21: `CLR` by its equation, the other commands by what they can do to the phase. -/
theorem clrPutsTheResetState : Obligations.ClrPutsTheResetState := by
  unfold Obligations.ClrPutsTheResetState
  refine ⟨by decide, exec_clr, fun i s t h hc => ?_⟩
  rcases exec_phase_cases h hc with hp | ⟨hf, hidle⟩
  · rw [hp]
    exact ⟨id, id⟩
  · exact ⟨fun hfault => absurd hfault hf, fun _ => hidle⟩

end Sys2Proof.Machine
end

section
/-! PROOFS. The counts: `FREQ` adds one to one of them, `CLR` puts all to 0, and no other command writes them
(41_count.md R85, R86, R89). -/

namespace Sys2Proof.Machine

/-! ## `FREQ` in each of its cases -/

/-- The block once one more `d` is counted (41_count.md R85). -/
def Block.countByte (b : Block) (d : Byte) : Block :=
  { b.setCount d (b.count d + 1) with total := b.total + 1, phase := .count }

@[simp] theorem Block.count_countByte (b : Block) (c d : Byte) :
    (b.countByte d).count c = if c = d then b.count c + 1 else b.count c := by
  rw [count_congr (a := b.countByte d) (b := b.setCount d (b.count d + 1)) rfl, Block.count_setCount]
  split
  · rw [‹c = d›]
  · rfl

theorem freqRule_of_ne_countMax {d : Byte} {b : Block} (h : b.total ≠ Config.countMax) :
    freqRule d b = .ok (b.countByte d).done := if_neg h

theorem freqRule_of_eq_countMax {d : Byte} {b : Block} (h : b.total = Config.countMax) :
    freqRule d b = .error (.raise .countOverflow) := if_pos h

theorem phase_ne_fault_of_idle_or_count {p : Phase} (h : p = .idle ∨ p = .count) : p ≠ .fault := by
  rcases h with rfl | rfl <;> decide

theorem exec_freq_counts {d : Byte} {s : State} (hp : s.block.phase = .idle ∨ s.block.phase = .count)
    (ht : s.block.total ≠ Config.countMax) : exec (.freq d) s = .next (s.answered (s.block.countByte d) [] 0x00) :=
  exec_ok (i := .freq d) nofun nofun (phase_ne_fault_of_idle_or_count hp) hp (freqRule_of_ne_countMax ht)

theorem exec_freq_overflow {d : Byte} {s : State} (hp : s.block.phase = .idle ∨ s.block.phase = .count)
    (ht : s.block.total = Config.countMax) : exec (.freq d) s = .next (s.afterFault (encode (.freq d)) 0x09) :=
  exec_raise (i := .freq d) nofun nofun (phase_ne_fault_of_idle_or_count hp) hp (freqRule_of_eq_countMax ht)

/-- The word of `FREQ d` (30_encoding.md R60, R63): the operand lies below the opcode's bits, so that the word
is their sum. -/
theorem encode_freq (d : Byte) : encode (.freq d) = 0x2000 + d.setWidth 16 := by
  have hd := d.isLt
  apply BitVec.eq_of_toNat_eq
  simp only [encode, C16.toWord, Instr.opcode, Instr.operand, BitVec.toNat_append, BitVec.toNat_add,
    BitVec.toNat_setWidth]
  rw [← Nat.shiftLeft_add_eq_or_of_lt hd]
  simp [Nat.shiftLeft_eq]
  omega

/-- Settles O22: the word, and one equation of `exec` per case of phase and `TOTAL`. -/
theorem freqCountsOneByte : Obligations.FreqCountsOneByte := by
  unfold Obligations.FreqCountsOneByte
  refine fun d s => ⟨encode_freq d, fun hp ht => ?_, exec_freq_overflow, fun hp => ?_⟩
  · exact ⟨_, exec_freq_counts hp ht, rfl, fun c => Block.count_countByte s.block c d⟩
  · obtain ⟨hidle, hcount, hfault⟩ : s.block.phase ≠ .idle ∧ s.block.phase ≠ .count ∧ s.block.phase ≠ .fault := by
      simpa using hp
    exact exec_wrongPhase nofun nofun hfault (not_or.mpr ⟨hidle, hcount⟩)

/-! ## The loaders and the other rules keep the counts -/

theorem SameButTree.freq {b b' : Block} (h : SameButTree b b') : b'.freq = b.freq := by
  unfold SameButTree at h
  rw [h]

theorem SameButTable.freq {b b' : Block} (h : SameButTable b b') : b'.freq = b.freq := by
  unfold SameButTable at h
  rw [h]

theorem SameButAutomaton.freq {b b' : Block} (h : SameButAutomaton b b') : b'.freq = b.freq := by
  unfold SameButAutomaton at h
  rw [h]

theorem headerByte_freq {d : Byte} {b b' : Block} (h : headerByte d b = .ok b') : b'.freq = b.freq := by
  rcases headerByte_ok h with ⟨-, rfl⟩ | ⟨-, -, rfl⟩ <;> rfl

theorem dictByte_freq {d : Byte} {b b' : Block} (h : dictByte d b = .ok b') : b'.freq = b.freq := by
  rcases dictByte_ok h with ⟨-, rfl⟩ | ⟨-, b2, h2, rfl⟩
  · rfl
  · obtain ⟨-, -, -, -, rfl⟩ := loadRecord_ok h2
    rfl

/-- What the rule of a command leaves of the counts (41_count.md R89). -/
theorem Completes.freq_cases {i : Instr} {b : Block} {r : Done} (h : Completes i b r) :
    r.block.freq = b.freq ∨ (i = .clr ∧ r.block = Block.reset) ∨ ∃ d, i = .freq d ∧ r.block = b.countByte d := by
  cases i <;> simp only [Completes] at h
  case clr => subst h; exact .inr (.inl ⟨rfl, rfl⟩)
  case freq d => obtain ⟨-, rfl⟩ := h; exact .inr (.inr ⟨d, rfl, rfl⟩)
  all_goals left
  case nop | head | decst => subst h; rfl
  case seed => obtain ⟨b', -, hs, rfl⟩ := h; exact hs.freq
  case merge => obtain ⟨b', -, hs, rfl⟩ := h; exact hs.freq
  case build => obtain ⟨b1, b2, -, -, -, hs, -, rfl⟩ := h; exact hs.freq
  case gen => obtain ⟨-, b', -, hs, rfl⟩ := h; exact hs.freq
  case enc => obtain ⟨-, -, rfl⟩ := h; rfl
  case encend => obtain ⟨-, ⟨-, rfl⟩ | ⟨-, rfl⟩⟩ := h <;> rfl
  case dec =>
    obtain ⟨-, b', h, rfl⟩ | ⟨-, b', h, rfl⟩ | ⟨-, b', out, h, rfl⟩ | ⟨-, rfl⟩ := h
    · exact headerByte_freq h
    · exact dictByte_freq h
    · exact (bitsLoop_frame h).freq
    · rfl
  case decend => obtain ⟨-, rfl⟩ := h; rfl

/-- Settles O23: a fault and an answer in `FAULT` keep the counts, and a command that completes does with them what its
rule does. -/
theorem onlyFreqAndClrChangeCounts : Obligations.OnlyFreqAndClrChangeCounts := by
  unfold Obligations.OnlyFreqAndClrChangeCounts
  intro i s t h
  rcases exec_cases h with ⟨-, rfl⟩ | ⟨hi, rfl⟩ | ⟨-, -, -, rfl⟩ | ⟨-, -, -, -, rfl⟩ | ⟨-, -, -, -, k, -, rfl⟩ |
    ⟨-, -, -, -, r, hr, rfl⟩
  · exact .inl rfl
  · exact .inr (.inl ⟨hi, Block.count_reset⟩)
  · exact .inl rfl
  · exact .inl rfl
  · exact .inl rfl
  · rw [State.answered_block]
    rcases (completes_of_ok hr).freq_cases with hfreq | ⟨hi, hb⟩ | ⟨d, hi, hb⟩
    · exact .inl hfreq
    · exact .inr (.inl ⟨hi, by simp [hb]⟩)
    · exact .inr (.inr ⟨d, hi, by simp [hb]⟩)

end Sys2Proof.Machine
end

section
/-! PROOFS. The tree builder: what `SEED` leaves of an empty arena, one merge, and the counts that `BUILD` ends with
(42_tree.md R91 to R103). -/

namespace Sys2Proof.Machine

/-! ## The commands in terms of their procedures -/

theorem seedResponse_code (b : Block) : (seedResponse b).code = if b.pq.length = 0 then 0x01 else 0x00 := by
  unfold seedResponse
  split <;> rfl

/-- `SEED` where seeding completes (42_tree.md R95). -/
theorem exec_seed_of_seed {s : State} {b : Block} (hp : s.block.phase = .idle ∨ s.block.phase = .count)
    (h : seed s.block = .ok b) : exec .seed s = .next (s.answered { b with phase := .tree } [] (seedResponse b).code) :=
  exec_ok (i := .seed) (r := { block := { b with phase := .tree }, out := [], rsp := seedResponse b })
    nofun nofun (phase_ne_fault_of_idle_or_count hp) hp (by simp only [ruleOf, seedRule, h])

/-- `BUILD` where seeding and merging complete (42_tree.md R99). -/
theorem exec_build_of_seed_merge {s : State} {b1 b2 : Block} (hp : s.block.phase = .idle ∨ s.block.phase = .count)
    (h1 : seed s.block = .ok b1) (h2 : mergeWhile b1.pq.length b1 = .ok b2) :
    exec .build s = .next (s.answered { b2 with phase := .tree } [] (seedResponse b1).code) :=
  exec_ok (i := .build) (r := { block := { b2 with phase := .tree }, out := [], rsp := seedResponse b1 })
    nofun nofun (phase_ne_fault_of_idle_or_count hp) hp (by simp only [ruleOf, buildRule, h1, h2])

theorem phase_ne_fault_of_tree {p : Phase} (h : p = .tree) : p ≠ .fault := by
  rw [h]
  decide

/-- `MERGE` where the merge completes (42_tree.md R96). -/
theorem exec_merge_of_mergeStep {s : State} {b : Block} (hp : s.block.phase = .tree) (h : mergeStep s.block = .ok b) :
    exec .merge s = .next (s.answered b [] 0x00) :=
  exec_ok (i := .merge) (r := b.done) nofun nofun (phase_ne_fault_of_tree hp) hp
    (by simp only [ruleOf, mergeRule, h])

/-- A loop of merges ends at once where at most one entry is queued (42_tree.md R99). -/
theorem mergeWhile_of_length_le_one {b : Block} (k : Nat) (h : b.pq.length ≤ 1) : mergeWhile k b = .ok b := by
  cases k with
  | zero => rfl
  | succ k => rw [mergeWhile, if_neg (by omega)]

/-! ## The seeded queue -/

/-- The queue entries in which node `k` was inserted as number `k`, for `k` below `n`. -/
def diagonalEntries (n : Nat) : List PqEntry := (List.range n).map (fun k => ⟨k, k⟩)

@[simp] theorem diagonalEntries_length (n : Nat) : (diagonalEntries n).length = n := by
  simp [diagonalEntries]

theorem diagonalEntries_succ (n : Nat) : diagonalEntries (n + 1) = diagonalEntries n ++ [⟨n, n⟩] := by
  simp [diagonalEntries, List.range_succ]

/-- While Leaves are seeded, each allocated node is queued under its own index as insertion number (42_tree.md R91, R93). -/
def QueuesDiagonal (b : Block) : Prop := b.seq = b.node.length ∧ b.pq.Perm (diagonalEntries b.seq)

theorem QueuesDiagonal.seedOne {c : Byte} {n : Nat} {b b' : Block} (hd : QueuesDiagonal b)
    (h : seedOne c n b = .ok b') : QueuesDiagonal b' := by
  obtain ⟨hseq, hpq⟩ := hd
  rcases seedOne_ok h with ⟨-, rfl⟩ | ⟨-, -, ws, -, rfl⟩
  · exact ⟨hseq, hpq⟩
  · refine ⟨by simp [hseq], ?_⟩
    calc
      (inserted ws n b.pq ⟨b.node.length, b.seq⟩).Perm (⟨b.node.length, b.seq⟩ :: b.pq) := inserted_perm ..
      List.Perm _ (⟨b.seq, b.seq⟩ :: diagonalEntries b.seq) := by rw [← hseq]; exact hpq.cons _
      List.Perm _ (diagonalEntries b.seq ++ [⟨b.seq, b.seq⟩]) := (List.perm_append_singleton ..).symm
      _ = diagonalEntries (b.seq + 1) := (diagonalEntries_succ _).symm

theorem QueuesDiagonal.seedFrom {cs : List (Byte × Nat)} {b b' : Block} (hd : QueuesDiagonal b)
    (h : seedFrom cs b = .ok b') : QueuesDiagonal b' := by
  induction cs generalizing b with
  | nil => cases h; exact hd
  | cons c cs ih =>
    unfold Sys2Proof.Machine.seedFrom at h
    split at h
    · cases h
    · exact ih (hd.seedOne ‹_›) h

/-- The Leaves of the present characters, in ascending order (42_tree.md R93). -/
def presentLeaves (b : Block) : List Node := (presentBytes b).map (fun c => Node.leaf c (b.count c))

/-- Seeding an empty arena leaves the present characters' Leaves, queued in order, and writes nothing else (42_tree.md
R93). -/
theorem seed_of_empty {b : Block} (hn : b.node = []) (hq : b.pq = []) (hs : b.seq = 0) :
    ∃ q, seed b = .ok { b with node := presentLeaves b, pq := q, seq := (presentBytes b).length } ∧
      q.Perm (diagonalEntries (presentBytes b).length) ∧ q.Pairwise (entryBefore (presentLeaves b)) := by
  obtain ⟨b', hseed, hframe, hforest, hnode, -, -⟩ := seed_forest hn hq hs
  have hempty : QueuesDiagonal b := ⟨by simp [hs, hn], by simp [hs, hq, diagonalEntries]⟩
  obtain ⟨hseq, hperm⟩ := hempty.seedFrom hseed
  have hlen : b'.seq = (presentBytes b).length := by rw [hseq, hnode, List.length_map]
  refine ⟨b'.pq, ?_, hlen ▸ hperm, ?_⟩
  · rw [hseed, ← hlen, presentLeaves, ← hnode]
    exact congrArg Except.ok hframe
  · rw [presentLeaves, ← hnode]
    exact hforest.order

/-- Settles O25: seeding leaves the Leaves and their ordered queue, and the answer depends on the queue's length, which is
the number of present characters. -/
theorem seedQueuesTheLeaves : Obligations.SeedQueuesTheLeaves := by
  unfold Obligations.SeedQueuesTheLeaves
  intro s hp hn hq hs
  obtain ⟨q, hseed, hperm, hord⟩ := seed_of_empty hn hq hs
  refine ⟨q, ?_, hperm, hord⟩
  have hlen : q.length = (presentBytes s.block).length := by simpa using hperm.length_eq
  rw [exec_seed_of_seed hp hseed, seedResponse_code, hlen]
  rfl

/-! ## Exactly one symbol -/

theorem presentBytes_of_single {b : Block} {c : Byte} (h : ∀ c', b.count c' ≠ 0 ↔ c' = c) : presentBytes b = [c] := by
  have hfilter : presentBytes b = allBytes.filter (· == c) :=
    List.filter_congr (fun c' _ => by simp [h, beq_eq_decide])
  rw [hfilter, List.filter_beq, List.count_eq_one_of_mem allBytes_nodup (mem_allBytes c)]
  rfl

/-- Where one count alone is nonzero it is `TOTAL` (10_state.md R12). -/
theorem CountInv.count_of_single {b : Block} {c : Byte} (hb : CountInv b) (h : ∀ c', b.count c' ≠ 0 ↔ c' = c) :
    b.count c = b.total := by
  have hzero : ∀ c' ≠ c, c' ∈ allBytes → b.count c' = 0 := fun c' hc _ => by_contra fun h0 => hc ((h c').mp h0)
  rw [hb.total_eq, freq_entries, List.sum_map_eq_nsmul_single c b.count hzero,
    List.count_eq_one_of_mem allBytes_nodup (mem_allBytes c), one_nsmul]

/-- Settles O27: seeding leaves one Leaf, whose count is `TOTAL`, and its one queue entry, so that `BUILD` has nothing to
merge. -/
theorem oneSymbolIsOneLeaf : Obligations.OneSymbolIsOneLeaf := by
  unfold Obligations.OneSymbolIsOneLeaf
  intro s c hcount hp hn hq hs hsingle
  obtain ⟨q, hseed, hperm, -⟩ := seed_of_empty hn hq hs
  have hbytes := presentBytes_of_single hsingle
  have hleaves : presentLeaves s.block = [Node.leaf c s.block.total] := by
    simp [presentLeaves, hbytes, hcount.count_of_single hsingle]
  have hqueue : q = [⟨0, 0⟩] := List.perm_singleton.mp (by simpa [hbytes, diagonalEntries] using hperm)
  rw [hleaves, hbytes, hqueue] at hseed
  exact ⟨exec_seed_of_seed hp hseed,
    exec_build_of_seed_merge hp hseed (mergeWhile_of_length_le_one _ (Nat.le_refl 1))⟩

/-! ## One merge -/

/-- Entries that have weights keep them when a node is appended. -/
theorem map_entryWeight?_append {arena : List Node} {x : Node} {q : List PqEntry} {ws : List Nat}
    (h : q.map (entryWeight? arena) = ws.map some) : q.map (entryWeight? (arena ++ [x])) = ws.map some := by
  rw [← h]
  refine List.map_congr_left fun e he => entryWeight?_append ?_
  obtain ⟨w, -, hw⟩ := List.mem_map.mp (h ▸ List.mem_map_of_mem (f := entryWeight? arena) he)
  obtain ⟨y, hy, -⟩ := Option.map_eq_some_iff.mp hw.symm
  exact (List.getElem?_eq_some_iff.mp hy).1

/-- A merge with fewer than two entries queued (42_tree.md R92). -/
theorem mergeStep_of_length_lt_two {b : Block} (h : b.pq.length < 2) : mergeStep b = .error (.raise .emptyQueue) := by
  match hq : b.pq with
  | [] | [_] => simp only [mergeStep, pqPopTwo, hq]
  | _ :: _ :: _ => rw [hq] at h; simp at h

/-- Settles O28: the merge by its law, with the weights of the remaining entries read in the longer arena; an entry count
below two makes it fault. -/
theorem mergeJoinsTheTwoLowest : Obligations.MergeJoinsTheTwoLowest := by
  unfold Obligations.MergeJoinsTheTwoLowest
  refine ⟨fun s x y rest wx wy ws hp hpq hcap hx hy hws => ?_, fun s hp hlen => ?_⟩
  · rw [← List.countP_eq_length_filter]
    exact exec_merge_of_mergeStep hp
      (mergeStep_ok.mpr ⟨x, y, rest, wx, wy, ws, hpq, hx, hy, hcap, map_entryWeight?_append hws, rfl⟩)
  · exact exec_raise (i := .merge) (k := .emptyQueue) nofun nofun (phase_ne_fault_of_tree hp) hp
      (by simp only [ruleOf, mergeRule, mergeStep_of_length_lt_two hlen])

/-! ## The whole build -/

/-- Nothing has been seeded before the tree stage (10_state.md R15, 42_tree.md R93). -/
theorem TreeInv.empty_of_idle_or_count {b : Block} (h : TreeInv b) (hp : b.phase = .idle ∨ b.phase = .count) :
    b.node = [] ∧ b.pq = [] ∧ b.seq = 0 := by
  obtain ⟨hn, hq⟩ := h.idle_empty (by rcases hp with h | h <;> simp [h]) (phase_ne_fault_of_idle_or_count hp)
  exact ⟨hn, hq, h.seq_zero (by rcases hp with h | h <;> simp [h])⟩

theorem SameButTree.toTree {b b' : Block} (h : SameButTree b b') :
    { b' with phase := .tree } = { b with node := b'.node, pq := b'.pq, seq := b'.seq, phase := .tree } :=
  congrArg (fun x : Block => { x with phase := .tree }) h

theorem leafCount_presentLeaves (b : Block) : leafCount (presentLeaves b) = (presentBytes b).length := by
  rw [leafCount, List.countP_eq_length.mpr, presentLeaves, List.length_map]
  intro x hx
  obtain ⟨c, -, rfl⟩ := List.mem_map.mp hx
  rfl

/-- Settles O30: merging keeps the forest with its Leaves and ends with at most one entry, so that the forest's balance
gives every count. -/
theorem buildMergesAllSymbols : Obligations.BuildMergesAllSymbols := by
  unfold Obligations.BuildMergesAllSymbols
  intro s hinv hp n
  obtain ⟨hn, hq, hs⟩ := hinv.tree.empty_of_idle_or_count hp
  obtain ⟨b1, hseed, hframe1, hforest1, hnode, hlen1, -⟩ := seed_forest hn hq hs
  obtain ⟨b2, hmerge, hframe2, hforest2, hchars, hlen2, -, -⟩ := hforest1.mergeWhile (k := b1.pq.length) (by omega)
  have hleaves : leafCount b2.node = n := by
    rw [← leafChars_length, hchars, leafChars_length, hnode]
    exact leafCount_presentLeaves s.block
  have hqueue : b2.pq.length = min n 1 := by rw [hlen2, hlen1]
  have hnodes : b2.node.length = 2 * n - 1 := by have := hforest2.node_length; omega
  refine ⟨b2.node, b2.pq, ?_, hnodes, hqueue, hforest2.node_cap, by omega⟩
  have hseq : b2.seq = 2 * n - 1 := hforest2.seq_eq.trans hnodes
  rw [exec_build_of_seed_merge hp hseed hmerge, seedResponse_code, hlen1, (hframe1.trans hframe2).toTree, hseq]

end Sys2Proof.Machine
end

section
/-! PROOFS. The code generator: what `GEN` leaves of the tree stage when it completes (43_codegen.md R105, R111). -/

namespace Sys2Proof.Machine

theorem SameButTable.seq {a b : Block} (h : SameButTable a b) : b.seq = a.seq := by
  unfold SameButTable at h
  rw [h]

/-- `GEN` ends in `CODED` by completing alone: it has written the code table and freed the tree (43_codegen.md R105). -/
theorem exec_gen_coded {s t : State} (h : exec .gen s = .next t) (hp : t.block.phase = .coded) :
    ∃ b', SameButTable s.block b' ∧ t.block = { b'.freeTree with phase := .coded } := by
  rcases exec_cases h with ⟨hi, -⟩ | ⟨hi, -⟩ | ⟨-, -, hf, rfl⟩ | ⟨-, -, -, -, rfl⟩ | ⟨-, -, -, -, k, -, rfl⟩ |
    ⟨-, -, -, -, r, hr, rfl⟩
  · cases hi
  · cases hi
  · cases hf.symm.trans hp
  · cases hp
  · cases hp
  · obtain ⟨-, b', -, hs, rfl⟩ := completes_of_ok hr
    exact ⟨b', hs, rfl⟩

/-- Settles O34: the arena and the queue are freed at the end, and recording the codes writes the code table alone. -/
theorem genFreesTheTree : Obligations.GenFreesTheTree := by
  unfold Obligations.GenFreesTheTree
  intro s t h hp
  obtain ⟨b', hs, ht⟩ := exec_gen_coded h hp
  rw [ht]
  exact ⟨rfl, rfl, hs.seq⟩

end Sys2Proof.Machine
end

section
/-! PROOFS. The encoder: the file head that `HEAD` puts out, the code that `ENC` packs behind the pending bits, and the
flush of `ENCEND` (44_encode.md R115 to R123). -/

namespace Sys2Proof.Machine

/-- A command with the one phase `p`, issued outside it and outside `FAULT` (40_control.md R84 step 4). -/
theorem exec_outside_phase {i : Instr} {p : Phase} {s : State} (hn : i ≠ .nop) (hc : i ≠ .clr)
    (hm : mayExecute i s.block.phase → s.block.phase = p) (h : s.block.phase ∉ [p, .fault]) :
    exec i s = .next (s.afterFault (encode i) 0x0A) := by
  obtain ⟨hp, hf⟩ : s.block.phase ≠ p ∧ s.block.phase ≠ .fault := by simpa using h
  exact exec_wrongPhase hn hc hf (fun hi => hp (hm hi))

/-! ## `HEAD` -/

/-- The record layout of 20_memory.md R45 in the byte order of Sys2Proof/Safety.lean. -/
theorem recordBytes_eq (c : Code) (ch : Byte) :
    recordBytes c ch = littleEndian 8 c.bits.toNat ++ littleEndian 4 c.len ++ [ch, 0x00, 0x00, 0x00] := by
  simp only [recordBytes, le64, le32, leBytes_eq_littleEndian, List.append_assoc, List.singleton_append]

theorem headBytes_eq (b : Block) :
    b.headBytes = littleEndian 8 b.total ++ littleEndian 8 (16 * b.dord.length) ++
      b.dord.flatMap (fun ch =>
        littleEndian 8 (b.code ch).bits.toNat ++ littleEndian 4 (b.code ch).len ++ [ch, 0x00, 0x00, 0x00]) := by
  simp only [Block.headBytes, headerBytes, le64, leBytes_eq_littleEndian, recordBytes_eq, Config.recSize]

/-- `HEAD` in its phase (44_encode.md R115). -/
theorem exec_head_coded {s : State} (hp : s.block.phase = .coded) :
    exec .head s = .next (s.answered { s.block with phase := .enc } s.block.headBytes 0x00) :=
  exec_ok (i := .head) (r := { block := { s.block with phase := .enc }, out := s.block.headBytes, rsp := .ok })
    nofun nofun (hp.trans_ne nofun) hp rfl

/-- "`PKCNT = 0` implies `PKBUF = 0`" (10_state.md R23). -/
theorem PackerInv.pkbuf_zero {b : Block} (h : PackerInv b) (hc : b.pkcnt = 0) : b.pkbuf = 0 := by
  have hmod : b.pkbuf.toNat % 256 = 0 := by simpa [PackerInv, hc] using h
  exact BitVec.eq_of_toNat_eq ((Nat.mod_eq_of_lt b.pkbuf.isLt).symm.trans hmod)

/-- The symbols listed have codes of 1 to 64 bits (10_state.md R20, R22 (a)). -/
theorem TableInv.len_of_mem_dord {b : Block} (h : TableInv b) {ch : Byte} (hc : ch ∈ b.dord) :
    1 ≤ (b.code ch).len ∧ (b.code ch).len ≤ 64 :=
  ⟨Nat.one_le_iff_ne_zero.mpr ((h.listed ch).mpr hc), h.len_le ch⟩

/-- Settles O35: the output is `Block.headBytes` in the statement's byte order, and the entry values are those the encoder's
and the table's invariants give in `CODED`. -/
theorem headEmitsHeaderAndDictionary : Obligations.HeadEmitsHeaderAndDictionary := by
  unfold Obligations.HeadEmitsHeaderAndDictionary
  refine fun s => ⟨fun hp => ?_, exec_outside_phase nofun nofun id, fun hinv hp => ?_⟩
  · have hlen := headBytes_length s.block
    exact ⟨_, exec_head_coded hp, headBytes_eq s.block, hlen, fun hd => by omega⟩
  · have hcnt : s.block.pkcnt = 0 := hinv.encoder.packer_idle (hp.trans_ne nofun) (hp.trans_ne nofun)
    exact ⟨hinv.encoder.packer.pkbuf_zero hcnt, hcnt, hinv.encoder.encn_zero (by simp [hp]),
      fun ch => hinv.table.len_of_mem_dord⟩

/-! ## `ENC` -/

/-- The packer once the code `c` is packed behind the block's pending bits, with the bytes put out (44_encode.md R118). -/
def Block.packCode (b : Block) (c : Code) : Packer :=
  (codeBits c).foldl packBit { buf := b.pkbuf, cnt := b.pkcnt, out := [] }

theorem packCode_count (b : Block) (c : Code) :
    8 * (b.packCode c).out.length + (b.packCode c).cnt.val = b.pkcnt.val + c.len := by
  simpa [Block.packCode] using packBits_count (codeBits c) { buf := b.pkbuf, cnt := b.pkcnt, out := [] }

theorem packCode_out_length (b : Block) (c : Code) : (b.packCode c).out.length = (b.pkcnt.val + c.len) / 8 := by
  have := packCode_count b c
  omega

theorem packCode_cnt (b : Block) (c : Code) : (b.packCode c).cnt.val = (b.pkcnt.val + c.len) % 8 := by
  have := packCode_count b c
  omega

theorem packCode_bits {b : Block} (h : PackerInv b) (c : Code) :
    packedBits (b.packCode c).out (b.packCode c).buf (b.packCode c).cnt.val =
      packedBits [] b.pkbuf b.pkcnt.val ++ codeBits c :=
  (packBits_spec (p := { buf := b.pkbuf, cnt := b.pkcnt, out := [] }) h).2

/-- The block once the code of `d` is packed and its byte counted as encoded (44_encode.md R118). -/
def Block.encodeByte (b : Block) (d : Byte) : Block :=
  { b with pkbuf := (b.packCode (b.code d)).buf, pkcnt := (b.packCode (b.code d)).cnt, encn := b.encn + 1 }

theorem encRule_of_code {d : Byte} {b : Block} (ht : b.encn ≠ b.total) (hl : (b.code d).len ≠ 0) :
    encRule d b = .ok { block := b.encodeByte d, out := (b.packCode (b.code d)).out, rsp := .ok } :=
  (if_neg ht).trans (if_neg hl)

theorem encRule_of_complete {d : Byte} {b : Block} (ht : b.encn = b.total) :
    encRule d b = .error (.raise .protocolError) := if_pos ht

theorem encRule_of_no_code {d : Byte} {b : Block} (ht : b.encn ≠ b.total) (hl : (b.code d).len = 0) :
    encRule d b = .error (.raise .degenerateCodeError) := (if_neg ht).trans (if_pos hl)

theorem exec_enc_packs {d : Byte} {s : State} (hp : s.block.phase = .enc) (ht : s.block.encn ≠ s.block.total)
    (hl : (s.block.code d).len ≠ 0) :
    exec (.enc d) s = .next (s.answered (s.block.encodeByte d) (s.block.packCode (s.block.code d)).out 0x00) :=
  exec_ok (i := .enc d) nofun nofun (hp.trans_ne nofun) hp (encRule_of_code ht hl)

theorem exec_enc_complete {d : Byte} {s : State} (hp : s.block.phase = .enc) (ht : s.block.encn = s.block.total) :
    exec (.enc d) s = .next (s.afterFault (encode (.enc d)) 0x0A) :=
  exec_raise (i := .enc d) nofun nofun (hp.trans_ne nofun) hp (encRule_of_complete ht)

theorem exec_enc_no_code {d : Byte} {s : State} (hp : s.block.phase = .enc) (ht : s.block.encn ≠ s.block.total)
    (hl : (s.block.code d).len = 0) : exec (.enc d) s = .next (s.afterFault (encode (.enc d)) 0x05) :=
  exec_raise (i := .enc d) nofun nofun (hp.trans_ne nofun) hp (encRule_of_no_code ht hl)

/-- After `GEN` a byte that pass 1 did not count has no code (44_encode.md R123). -/
theorem TableInv.len_zero_of_uncounted {b : Block} (h : TableInv b) (hp : b.phase ∈ [Phase.coded, .enc, .encDone])
    {d : Byte} (hc : b.count d = 0) : (b.code d).len = 0 := by
  by_contra hl
  exact (h.coded_present hp d).mp ((h.listed d).mp hl) hc

/-- Settles O36: one equation of `exec` per case; the lengths follow from the packer's count and the bits from its
invariant. -/
theorem encPacksTheCode : Obligations.EncPacksTheCode := by
  unfold Obligations.EncPacksTheCode
  refine fun d s => ⟨fun hp ht hl => ?_, exec_enc_complete, exec_enc_no_code,
    fun hinv hp => hinv.table.len_zero_of_uncounted (by simp [hp]), exec_outside_phase nofun nofun id⟩
  have hout := packCode_out_length s.block (s.block.code d)
  exact ⟨_, _, _, exec_enc_packs hp ht hl, hout, fun h64 => by omega, packCode_cnt .., fun h => packCode_bits h _⟩

/-! ## `ENCEND` -/

theorem encendRule_of_pending {b : Block} (ht : b.encn = b.total) (hc : 0 < b.pkcnt.val) :
    encendRule b = .ok { block := { b with pkbuf := 0, pkcnt := 0, phase := .encDone }, out := [b.pkbuf], rsp := .ok } :=
  (if_neg (not_not.mpr ht)).trans (if_pos hc)

theorem encendRule_of_aligned {b : Block} (ht : b.encn = b.total) (hc : b.pkcnt.val = 0) :
    encendRule b = .ok { b with phase := .encDone }.done :=
  (if_neg (not_not.mpr ht)).trans (if_neg hc.not_gt)

theorem encendRule_of_incomplete {b : Block} (ht : b.encn ≠ b.total) :
    encendRule b = .error (.raise .protocolError) := if_pos ht

theorem exec_encend_flushes {s : State} (hp : s.block.phase = .enc) (ht : s.block.encn = s.block.total)
    (hc : 0 < s.block.pkcnt.val) :
    exec .encend s =
      .next (s.answered { s.block with pkbuf := 0, pkcnt := 0, phase := .encDone } [s.block.pkbuf] 0x00) :=
  exec_ok (i := .encend) nofun nofun (hp.trans_ne nofun) hp (encendRule_of_pending ht hc)

theorem exec_encend_aligned {s : State} (hp : s.block.phase = .enc) (ht : s.block.encn = s.block.total)
    (hc : s.block.pkcnt.val = 0) : exec .encend s = .next (s.answered { s.block with phase := .encDone } [] 0x00) :=
  exec_ok (i := .encend) nofun nofun (hp.trans_ne nofun) hp (encendRule_of_aligned ht hc)

theorem exec_encend_incomplete {s : State} (hp : s.block.phase = .enc) (ht : s.block.encn ≠ s.block.total) :
    exec .encend s = .next (s.afterFault 0x9000 0x0A) :=
  exec_raise (i := .encend) nofun nofun (hp.trans_ne nofun) hp (encendRule_of_incomplete ht)

/-- The unfilled bits of the packer byte are those transmitted last, all 0 (10_state.md R23, 44_encode.md R120). -/
theorem PackerInv.unfilled_bits {b : Block} (h : PackerInv b) :
    (byteBits b.pkbuf).drop b.pkcnt.val = List.replicate (8 - b.pkcnt.val) false := by
  refine List.ext_getElem (by simp) fun k _ _ => ?_
  have hlow : 7 - (b.pkcnt.val + k) < 8 - b.pkcnt.val := by omega
  have hbit := Nat.testBit_mod_two_pow b.pkbuf.toNat (8 - b.pkcnt.val) (7 - (b.pkcnt.val + k))
  rw [show b.pkbuf.toNat % 2 ^ (8 - b.pkcnt.val) = 0 from h] at hbit
  simpa [byteBits, BitVec.getLsbD, hlow] using hbit.symm

/-- Settles O37: one equation of `exec` per case, and the zero padding from the packer's invariant. -/
theorem encendFlushesTheLastByte : Obligations.EncendFlushesTheLastByte := by
  unfold Obligations.EncendFlushesTheLastByte
  exact fun _ => ⟨exec_encend_flushes, exec_encend_aligned, exec_encend_incomplete,
    exec_outside_phase nofun nofun id, PackerInv.unfilled_bits⟩

end Sys2Proof.Machine
end

section
/-! PROOFS. The decoder outside the bit stage: how a decode run starts, the header and the dictionary that `DEC` loads byte
by byte, and how the run ends (45_decode.md R130 to R134, R139, R140). -/

namespace Sys2Proof.Machine

/-! ## `DECST` -/

theorem exec_decst_idle {s : State} (hp : s.block.phase = .idle) :
    exec .decst s = .next (s.answered { s.block with phase := .decHdr } [] 0x00) :=
  exec_ok (i := .decst) nofun nofun (hp.trans_ne nofun) hp rfl

/-- An empty accumulator holds no bits (10_state.md R28). -/
theorem DecoderInv.accbits_zero {b : Block} (h : DecoderInv b) (hl : b.acclen = 0) : b.accbits = 0 := by
  have hlt : b.accbits.toNat < 2 ^ 0 := hl ▸ h.accbits_lt
  exact BitVec.eq_of_toNat_eq (Nat.lt_one_iff.mp hlt)

/-- Settles O40: one equation of `exec` per case of the phase, and the entry values from the invariants in `IDLE`. -/
theorem decstStartsADecodeRun : Obligations.DecstStartsADecodeRun := by
  unfold Obligations.DecstStartsADecodeRun
  refine fun s => ⟨exec_decst_idle, exec_outside_phase nofun nofun id, fun hinv hp => ?_⟩
  have hdord : s.block.dord = [] := hinv.table.empty_before (by simp [hp])
  have hacclen : s.block.acclen = 0 := hinv.decoder.acc_zero (hp.trans_ne nofun) (hp.trans_ne nofun)
  exact ⟨(hinv.run.encode_run (by simp [hp])).2, hdord, hinv.table.code_absent hdord,
    hinv.decoder.maxlen_encode (by simp [hp]), hinv.decoder.accbits_zero hacclen, hacclen,
    hinv.decoder.outn_zero (by simp [hp])⟩

/-! ## `DEC` in terms of its loaders -/

theorem decRule_of_decHdr {d : Byte} {b : Block} (hp : b.phase = .decHdr) :
    decRule d b = (headerByte d b).map Block.done := by
  simp only [decRule, hp]
  cases headerByte d b <;> rfl

theorem decRule_of_decDict {d : Byte} {b : Block} (hp : b.phase = .decDict) :
    decRule d b = (dictByte d b).map Block.done := by
  simp only [decRule, hp]
  cases dictByte d b <;> rfl

theorem phase_ne_fault_of_mayExecute {i : Instr} {p : Phase} (hn : i ≠ .nop) (hc : i ≠ .clr) (hm : mayExecute i p) :
    p ≠ .fault := by
  rintro rfl
  cases i
  case nop => exact hn rfl
  case clr => exact hc rfl
  all_goals simp [mayExecute] at hm

/-- A byte that the phase's loader takes puts nothing out (45_decode.md R132, R133). -/
theorem exec_dec_of_load_ok {d : Byte} {s : State} {load : Except Abort Block} {b : Block}
    (hm : mayExecute (.dec d) s.block.phase) (hrule : decRule d s.block = load.map Block.done) (h : load = .ok b) :
    exec (.dec d) s = .next (s.answered b [] 0x00) :=
  exec_ok (i := .dec d) (r := b.done) nofun nofun (phase_ne_fault_of_mayExecute (i := .dec d) nofun nofun hm) hm
    (hrule.trans (congrArg (Except.map Block.done) h))

theorem exec_dec_of_load_raise {d : Byte} {s : State} {load : Except Abort Block} {k : FaultKind}
    (hm : mayExecute (.dec d) s.block.phase) (hrule : decRule d s.block = load.map Block.done)
    (h : load = .error (.raise k)) : exec (.dec d) s = .next (s.afterFault (encode (.dec d)) k.code) :=
  exec_raise (i := .dec d) nofun nofun (phase_ne_fault_of_mayExecute (i := .dec d) nofun nofun hm) hm
    (hrule.trans (congrArg (Except.map Block.done) h))

/-! ## The staging buffer -/

/-- The block once its 16th staged byte `d` is in (45_decode.md R132, R133). -/
def Block.fillStage (b : Block) (d : Byte) : Block := { b with stage := b.stage.set 15 d, spos := 0 }

theorem stageByte_of_last {d : Byte} {b : Block} (h : b.spos.val = 15) :
    { b.stageByte d with spos := 0 } = b.fillStage d := by
  simp only [Block.stageByte, Block.fillStage, h]

theorem stageSlice_low_half (st : Vector Byte 16) : stageSlice st 0 8 = st.toList.take 8 := rfl

theorem stageSlice_high_half (st : Vector Byte 16) : stageSlice st 8 8 = st.toList.drop 8 :=
  List.take_of_length_le (by simp)

/-! ## `DEC` in `DEC_HDR` -/

theorem headerByte_of_lt {d : Byte} {b : Block} (h : b.spos.val < 15) :
    headerByte d b = .ok { b.stageByte d with spos := b.spos + 1 } := if_pos h

theorem headerByte_of_last {d : Byte} {b : Block} (h : b.spos.val = 15) :
    headerByte d b =
      let origlen := fromLittleEndian ((b.stage.set 15 d).toList.take 8)
      let dictsz := fromLittleEndian ((b.stage.set 15 d).toList.drop 8)
      if dictsz % 16 ≠ 0 then .error (.raise .formatError)
      else .ok { b.fillStage d with
        origlen := origlen, dictsz := dictsz, phase := if dictsz ≠ 0 then .decDict else payloadPhase origlen } := by
  simp only [headerByte, Block.stageByte, Block.fillStage, h, lt_irrefl, if_false, stageSlice_low_half, stageSlice_high_half,
    unLe_eq_fromLittleEndian, Config.recSize]

/-- Settles O41: before the 16th byte the loader stages, and with it one equation covers both outcomes. -/
theorem decReadsTheHeader : Obligations.DecReadsTheHeader := by
  unfold Obligations.DecReadsTheHeader
  intro d s hp
  have hok {b : Block} : headerByte d s.block = .ok b → exec (.dec d) s = .next (s.answered b [] 0x00) :=
    exec_dec_of_load_ok (.inl hp) (decRule_of_decHdr hp)
  refine ⟨fun hs => hok (headerByte_of_lt hs), fun hs => ⟨fun hd => ?_, fun hd => ?_⟩⟩
  · exact exec_dec_of_load_raise (.inl hp) (decRule_of_decHdr hp) ((headerByte_of_last hs).trans (if_pos hd))
  · exact hok ((headerByte_of_last hs).trans (if_neg (not_not.mpr hd)))

/-! ## `DEC` in `DEC_DICT` -/

/-- A record's fields in the claims' vocabulary (20_memory.md R45 to R47). -/
theorem parseRecord_eq (st : Vector Byte 16) :
    parseRecord st =
      let u := fromLittleEndian ((st.toList.drop 8).take 4)
      { bits := BitVec.ofNat 64 (fromLittleEndian (st.toList.take 8))
        len := if u < 2 ^ 31 then (u : Int) else (u : Int) - 2 ^ 32
        ch := st[12] } := by
  simp only [parseRecord, asSigned32, unLe_eq_fromLittleEndian, stageSlice, List.drop_zero]

theorem loadRecord_of_zero {r : DictRecord} {b : Block} (h : r.len = 0) :
    loadRecord r b = .error (.raise .degenerateCodeError) := if_pos h

/-- Whichever of the later checks fails, the record is malformed (45_decode.md R134). -/
theorem loadRecord_of_malformed {r : DictRecord} {b : Block} (h0 : r.len ≠ 0)
    (h : (r.len < 0 ∨ 64 < r.len) ∨ (b.code r.ch).len ≠ 0 ∨
      ∃ c, ((b.code c).len : Int) = r.len ∧ (b.code c).bits = r.bits) :
    loadRecord r b = .error (.raise .formatError) := by
  cases hr : loadRecord r b with
  | error a =>
    rcases loadRecord_error hr with ⟨-, hz⟩ | ⟨rfl, -⟩
    · exact absurd hz h0
    · rfl
  | ok b' =>
    obtain ⟨h1, h64, hch, hkey, -⟩ := loadRecord_ok hr
    rcases h with hlen | hcode | ⟨c, hl, hb⟩
    · omega
    · exact absurd hch hcode
    · exact absurd ⟨c, by omega, hb⟩ hkey

/-- The block once a record is loaded (45_decode.md R134). -/
def Block.addRecord (b : Block) (r : DictRecord) : Block :=
  { b.setCode r.ch ⟨r.bits, r.len.toNat⟩ with dord := b.dord ++ [r.ch], maxlen := max b.maxlen r.len.toNat }

theorem Block.code_addRecord (b : Block) (r : DictRecord) (c : Byte) :
    (b.addRecord r).code c = if c = r.ch then ⟨r.bits, r.len.toNat⟩ else b.code c :=
  Block.code_setCode b c r.ch _

theorem loadRecord_of_wellFormed {r : DictRecord} {b : Block} (h1 : 1 ≤ r.len) (h64 : r.len ≤ 64)
    (hch : (b.code r.ch).len = 0) (hkey : ¬ ∃ c, ((b.code c).len : Int) = r.len ∧ (b.code c).bits = r.bits) :
    loadRecord r b = .ok (b.addRecord r) := by
  cases hr : loadRecord r b with
  | error a =>
    rcases loadRecord_error hr with ⟨-, hz⟩ | ⟨-, -, hneg | hbig | hcode | ⟨c, hl, hb⟩⟩
    · omega
    · omega
    · omega
    · exact absurd hch hcode
    · exact absurd ⟨c, by omega, hb⟩ hkey
  | ok b' =>
    obtain ⟨-, -, -, -, rfl⟩ := loadRecord_ok hr
    rfl

theorem dictByte_of_lt {d : Byte} {b : Block} (h : b.spos.val < 15) :
    dictByte d b = .ok { b.stageByte d with spos := b.spos + 1 } := if_pos h

theorem dictByte_of_rejected {d : Byte} {b : Block} {a : Abort} (h : b.spos.val = 15)
    (hr : loadRecord (parseRecord (b.fillStage d).stage) (b.fillStage d) = .error a) : dictByte d b = .error a := by
  have hlast : ¬ b.spos.val < 15 := by omega
  rw [← stageByte_of_last h] at hr
  simp only [dictByte, hlast, if_false, hr]

theorem dictByte_of_accepted {d : Byte} {b : Block} {r : DictRecord} (h : b.spos.val = 15) (hp : b.phase = .decDict)
    (hr : loadRecord (parseRecord (b.fillStage d).stage) (b.fillStage d) = .ok ((b.fillStage d).addRecord r)) :
    dictByte d b = .ok { (b.fillStage d).addRecord r with
      phase := if 16 * (b.dord.length + 1) = b.dictsz then payloadPhase b.origlen else .decDict } := by
  have hlast : ¬ b.spos.val < 15 := by omega
  have hdord : ((b.fillStage d).addRecord r).dord.length = b.dord.length + 1 := List.length_append
  have hphase : ((b.fillStage d).addRecord r).phase = .decDict := hp
  rw [← stageByte_of_last h] at hr hdord hphase ⊢
  simp only [dictByte, hlast, if_false, hr, hdord, hphase, Config.recSize]
  rfl

/-- Settles O42: the record is the one the claim's fields describe; each check that fails is a fault of `loadRecord`, and a
record that passes all of them is added to the table. -/
theorem decLoadsARecord : Obligations.DecLoadsARecord := by
  unfold Obligations.DecLoadsARecord
  intro d s hp
  have hok {b : Block} : dictByte d s.block = .ok b → exec (.dec d) s = .next (s.answered b [] 0x00) :=
    exec_dec_of_load_ok (.inr (.inl hp)) (decRule_of_decDict hp)
  refine ⟨fun hs => hok (dictByte_of_lt hs), fun hs => ?_⟩
  intro stage bits u len ch bad
  have hrec : parseRecord (s.block.fillStage d).stage = ⟨bits, len, ch⟩ := parseRecord_eq stage
  have hbad {k : FaultKind} (hr : loadRecord ⟨bits, len, ch⟩ (s.block.fillStage d) = .error (.raise k)) : bad k.code :=
    exec_dec_of_load_raise (.inr (.inl hp)) (decRule_of_decDict hp) (dictByte_of_rejected hs (by rw [hrec]; exact hr))
  refine ⟨fun h0 => hbad (loadRecord_of_zero h0), fun hlen => hbad (loadRecord_of_malformed ?_ (.inl hlen)),
    fun h0 hch => hbad (loadRecord_of_malformed h0 (.inr (.inl hch))),
    fun h0 hkey => hbad (loadRecord_of_malformed h0 (.inr (.inr hkey))), fun h1 h64 hch hkey => ?_⟩
  · show len ≠ 0
    omega
  · have hload := loadRecord_of_wellFormed (r := ⟨bits, len, ch⟩) (b := s.block.fillStage d) h1 h64 hch hkey
    exact ⟨_, hok (dictByte_of_accepted hs hp (by rw [hrec]; exact hload)),
      Block.code_addRecord s.block ⟨bits, len, ch⟩⟩

/-! ## `DEC` in `DEC_DONE`, and `DECEND` -/

theorem decRule_of_decDone {d : Byte} {b : Block} (hp : b.phase = .decDone) : decRule d b = .ok b.done := by
  simp only [decRule, hp]

/-- Settles O47, by the rule's last phase. -/
theorem decDoneDiscardsTheByte : Obligations.DecDoneDiscardsTheByte := by
  unfold Obligations.DecDoneDiscardsTheByte
  exact fun d s hp => exec_ok (i := .dec d) nofun nofun (hp.trans_ne nofun) (.inr (.inr (.inr hp))) (decRule_of_decDone hp)

theorem decendRule_of_decDone {b : Block} (hp : b.phase = .decDone) : decendRule b = .ok b.done := by
  simp only [decendRule, hp]

theorem decendRule_of_loading {b : Block} (hp : b.phase = .decHdr ∨ b.phase = .decDict) :
    decendRule b = .error (.raise .formatError) := by
  rcases hp with hp | hp <;> simp only [decendRule, hp]

theorem decendRule_of_decBits {b : Block} (hp : b.phase = .decBits) :
    decendRule b = .error (.raise .corruptStream) := by
  simp only [decendRule, hp]

/-- Settles O48: one equation of the rule per phase in which `DECEND` may execute, and the common wrong-phase answer. -/
theorem decendJudgesTheEnd : Obligations.DecendJudgesTheEnd := by
  unfold Obligations.DecendJudgesTheEnd
  refine fun s => ⟨fun hp => ?_, fun hp => ?_, fun hp => ?_, fun hp => ?_⟩
  · exact exec_ok (i := .decend) nofun nofun (hp.trans_ne nofun) (.inr (.inr (.inr hp))) (decendRule_of_decDone hp)
  · have hm : mayExecute .decend s.block.phase := hp.imp_right .inl
    have hf := phase_ne_fault_of_mayExecute (i := .decend) nofun nofun hm
    exact exec_raise (i := .decend) nofun nofun hf hm (decendRule_of_loading hp)
  · exact exec_raise (i := .decend) nofun nofun (hp.trans_ne nofun) (.inr (.inr (.inl hp))) (decendRule_of_decBits hp)
  · obtain ⟨hhdr, hdict, hbits, hdone, hf⟩ : s.block.phase ≠ .decHdr ∧ s.block.phase ≠ .decDict ∧
        s.block.phase ≠ .decBits ∧ s.block.phase ≠ .decDone ∧ s.block.phase ≠ .fault := by simpa using hp
    exact exec_wrongPhase (i := .decend) nofun nofun hf (by simp [mayExecute, hhdr, hdict, hbits, hdone])

end Sys2Proof.Machine
end

section
/-! PROOFS. Faults: which command raises which kind, what fault entry records, and how the block behaves in `FAULT`
(60_exceptions.md R151 to R159). -/

namespace Sys2Proof.Machine

/-! ## A command word before its command runs (40_control.md R84) -/

theorem not_answersFaulted {b : Block} {w : Word16} (hf : b.phase ≠ .fault) : ¬ answersFaulted b w = true :=
  fun ha => hf (of_decide_eq_true ha).1

/-- An illegal word outside `FAULT`, whatever the phase (60_exceptions.md R152). -/
theorem runWord_of_illegal {s : State} {w : Word16} {e : Illegal} (hf : s.block.phase ≠ .fault)
    (hd : decode w = .error e) : runWord w s = .next (s.afterFault w 0x0B) := by
  rw [runWord, if_neg (not_answersFaulted hf), hd]
  rfl

/-- A word in `FAULT`, legal or not (60_exceptions.md R157). -/
theorem runWord_of_fault {s : State} {w : Word16} (hf : s.block.phase = .fault) (hnop : w ≠ 0x0000) (hclr : w ≠ 0x1000) :
    runWord w s = .next (s.answered s.block [] 0x0C) :=
  if_pos (decide_eq_true ⟨hf, hnop, hclr⟩)

/-- A legal word that is not answered `Faulted` is executed (60_exceptions.md R160). -/
theorem runWord_of_decode {s : State} {w : Word16} {i : Instr} (ha : ¬ answersFaulted s.block w = true)
    (hd : decode w = .ok i) : runWord w s = exec i s := by
  rw [runWord, if_neg ha, hd]

/-- `CLR`'s word in every phase (40_control.md R81). -/
theorem runWord_clr (s : State) : runWord 0x1000 s = .next (s.answered Block.reset [] 0x00) := by
  have ha : ¬ answersFaulted s.block 0x1000 = true := fun ha => (of_decide_eq_true ha).2.2 rfl
  exact (runWord_of_decode ha (by decide)).trans (exec_clr s)

/-- Settles O7: the word is decoded before any command sees the phase. -/
theorem illegalWordRaisesIllegalCommand : Obligations.IllegalWordRaisesIllegalCommand := by
  unfold Obligations.IllegalWordRaisesIllegalCommand
  exact fun s w rest e hp hf hd => (step_command hp).trans (runWord_of_illegal hf hd)

/-- Settles O8: in `FAULT` the word is answered before it is decoded. -/
theorem faultPhaseAnswersFaulted : Obligations.FaultPhaseAnswersFaulted := by
  unfold Obligations.FaultPhaseAnswersFaulted
  exact fun s w rest hp hf hnop hclr => (step_command hp).trans (runWord_of_fault hf hnop hclr)

/-- A legal word is the word of the command it decodes to (30_encoding.md R64 to R66). -/
theorem encode_of_decode {w : Word16} {i : Instr} (h : decode w = .ok i) : encode i = w := by
  obtain ⟨hwf, hsel⟩ := (decode_eq_ok_iff w i).mp h
  obtain ⟨-, hrs, hd⟩ := (C16.wf_iff _).mp hwf
  obtain ⟨hop, hoperand⟩ := selectCommand_fields hsel
  calc
    encode i = C16.toWord ⟨i.opcode, 0, i.operand⟩ := rfl
    _ = (C16.ofWord w).toWord := by rw [BitVec.eq_of_toNat_eq hop, ← hrs, ← hoperand hd]
    _ = w := C16.toWord_ofWord w

/-! ## The fault a command raises -/

/-- The command `i` raises `k` on the block `b`, outside `FAULT`: a phase not its own, or an abort of its rule
(60_exceptions.md R150, R153). -/
def Raises (i : Instr) (b : Block) (k : FaultKind) : Prop :=
  (¬ mayExecute i b.phase ∧ k = .protocolError) ∨ (mayExecute i b.phase ∧ ruleOf i b = .error (.raise k))

/-- A command that enters `FAULT` does so by fault entry, with the kind it raises (60_exceptions.md R155). -/
theorem exec_enters_fault {i : Instr} {s t : State} (h : exec i s = .next t) (hf : s.block.phase ≠ .fault)
    (ht : t.block.phase = .fault) : ∃ k, Raises i s.block k ∧ t = s.afterFault (encode i) k.code := by
  rcases exec_cases h with ⟨-, rfl⟩ | ⟨-, rfl⟩ | ⟨-, -, hf', -⟩ | ⟨-, -, -, hm, rfl⟩ | ⟨-, -, -, hm, k, hk, rfl⟩ |
    ⟨-, -, -, -, r, hr, rfl⟩
  · exact absurd ht hf
  · cases ht
  · exact absurd hf' hf
  · exact ⟨.protocolError, .inl ⟨hm, rfl⟩, rfl⟩
  · exact ⟨k, .inr ⟨hm, hk⟩, rfl⟩
  · exact absurd ht ((completes_of_ok hr).phase_ne_fault hf)

theorem Raises.ne_control {i : Instr} {b : Block} {k : FaultKind} (h : Raises i b k) : i ≠ .nop ∧ i ≠ .clr := by
  constructor
  all_goals
    rintro rfl
    obtain ⟨hm, -⟩ | ⟨-, hk⟩ := h
    · exact hm trivial
    · cases hk

theorem exec_of_raises {i : Instr} {s : State} {k : FaultKind} (h : Raises i s.block k) (hf : s.block.phase ≠ .fault) :
    exec i s = .next (s.afterFault (encode i) k.code) := by
  obtain ⟨hn, hc⟩ := h.ne_control
  rcases h with ⟨hm, rfl⟩ | ⟨hm, hk⟩
  · exact exec_wrongPhase hn hc hf hm
  · exact exec_raise hn hc hf hm hk

/-- No two fault kinds share a code (30_encoding.md R68). -/
theorem FaultKind.code_inj (k l : FaultKind) : k.code = l.code ↔ k = l := by
  cases k <;> cases l <;> decide

/-- `Raises` is what a command's fault entry shows from outside. -/
theorem exec_eq_afterFault_iff {i : Instr} {s : State} (hf : s.block.phase ≠ .fault) (k : FaultKind) :
    exec i s = .next (s.afterFault (encode i) k.code) ↔ Raises i s.block k := by
  refine ⟨fun h => ?_, fun h => exec_of_raises h hf⟩
  obtain ⟨l, hl, ht⟩ := exec_enters_fault h hf rfl
  obtain rfl : k = l := (FaultKind.code_inj k l).mp (congrArg (fun t : State => t.block.err) ht)
  exact hl

/-! ## `ProtocolError` -/

/-- The rules that raise `ProtocolError` themselves are those of `GEN`, `ENC` and `ENCEND` (60_exceptions.md R153). -/
theorem Aborts.protocolError_cases {i : Instr} {b : Block} (h : Aborts i b (.raise .protocolError)) :
    (i = .gen ∧ 1 < b.pq.length) ∨ (∃ d, i = .enc d ∧ b.encn = b.total) ∨ (i = .encend ∧ b.encn ≠ b.total) := by
  cases i
  case gen =>
    obtain ⟨-, hlen⟩ | ⟨-, htree⟩ := h
    · exact .inl ⟨rfl, hlen⟩
    · simpa using recordTree_error htree
  case enc d =>
    obtain ⟨-, ht⟩ | ⟨hk, -⟩ := h
    · exact .inr (.inl ⟨d, rfl, ht⟩)
    · cases hk
  case encend => exact .inr (.inr ⟨rfl, h.2⟩)
  case merge =>
    obtain ⟨hk, -⟩ | ⟨hk, -⟩ | ⟨hk, -⟩ := mergeStep_error h <;> cases hk
  case seed | build => obtain hk | hk := h <;> cases hk
  case dec => obtain hk | hk | hk := dec_aborts h <;> cases hk
  case decend => obtain ⟨-, hk⟩ | ⟨-, hk⟩ := h <;> cases hk
  case freq => cases h.1
  case nop | clr | head | decst => exact h.elim

theorem genRule_of_unmerged {b : Block} (h : 1 < b.pq.length) : genRule b = .error (.raise .protocolError) := if_pos h

theorem raises_protocolError_iff (i : Instr) (b : Block) :
    Raises i b .protocolError ↔
      ¬ mayExecute i b.phase ∨
      (i = .gen ∧ b.phase = .tree ∧ 1 < b.pq.length) ∨
      (∃ d, i = .enc d ∧ b.phase = .enc ∧ b.encn = b.total) ∨
      (i = .encend ∧ b.phase = .enc ∧ b.encn ≠ b.total) := by
  constructor
  · rintro (⟨hm, -⟩ | ⟨hm, hk⟩)
    · exact .inl hm
    · obtain ⟨rfl, h⟩ | ⟨d, rfl, h⟩ | ⟨rfl, h⟩ := (aborts_of_error hm hk).protocolError_cases
      · exact .inr (.inl ⟨rfl, hm, h⟩)
      · exact .inr (.inr (.inl ⟨d, rfl, hm, h⟩))
      · exact .inr (.inr (.inr ⟨rfl, hm, h⟩))
  · rintro (hm | ⟨rfl, hp, h⟩ | ⟨d, rfl, hp, h⟩ | ⟨rfl, hp, h⟩)
    · exact .inl ⟨hm, rfl⟩
    · exact .inr ⟨hp, genRule_of_unmerged h⟩
    · exact .inr ⟨hp, encRule_of_complete h⟩
    · exact .inr ⟨hp, encendRule_of_incomplete h⟩

/-- Settles O12: the code 0x0A is `ProtocolError`'s alone, and that kind is raised in the four cases. -/
theorem protocolErrorExactlyWhen : Obligations.ProtocolErrorExactlyWhen := by
  unfold Obligations.ProtocolErrorExactlyWhen
  exact fun i s hf => (exec_eq_afterFault_iff hf .protocolError).trans (raises_protocolError_iff i s.block)

/-! ## Fault entry and `FAULT` -/

/-- A command word that enters `FAULT` does so by fault entry, which records that very word: a legal word through its
command, an illegal one through `IllegalCommand` (60_exceptions.md R152, R155). -/
theorem runWord_enters_fault {w : Word16} {s t : State} (h : runWord w s = .next t) (hf : s.block.phase ≠ .fault)
    (ht : t.block.phase = .fault) : ∃ k : FaultKind, t = s.afterFault w k.code := by
  cases hd : decode w with
  | error e =>
    rw [runWord_of_illegal hf hd] at h
    cases h
    exact ⟨.illegalCommand, rfl⟩
  | ok i =>
    rw [runWord_of_decode (not_answersFaulted hf) hd] at h
    obtain ⟨k, -, hk⟩ := exec_enters_fault h hf ht
    exact ⟨k, encode_of_decode hd ▸ hk⟩

/-- Settles O13: the command's fault entry, and that of the word once the block has taken it. -/
theorem faultsArePrecise : Obligations.FaultsArePrecise := by
  unfold Obligations.FaultsArePrecise
  refine ⟨fun i s t h hf ht => ?_, fun s t w rest hp h hf ht => ?_⟩
  · obtain ⟨k, -, hk⟩ := exec_enters_fault h hf ht
    exact ⟨k, hk⟩
  · exact runWord_enters_fault ((step_command hp).symm.trans h) hf ht

/-- In `FAULT` no command but `CLR` changes the block (60_exceptions.md R157, R159). -/
theorem exec_in_fault {i : Instr} {s t : State} (h : exec i s = .next t) (hf : s.block.phase = .fault) :
    t.block = s.block ∨ (i = .clr ∧ t.block = Block.reset) := by
  rcases exec_cases h with ⟨-, rfl⟩ | ⟨hi, rfl⟩ | ⟨-, -, -, rfl⟩ | ⟨-, -, hf', -⟩ | ⟨-, -, hf', -⟩ | ⟨-, -, hf', -⟩
  · exact .inl rfl
  · exact .inr ⟨hi, rfl⟩
  · exact .inl rfl
  all_goals exact absurd hf hf'

/-- `CLR`'s word and a reset put every element at its reset value, whatever the phase (60_exceptions.md R159). -/
theorem step_clears {s t : State} {rest : List HostEvent} (h : step s = .next t)
    (hp : s.port = .reset :: rest ∨ s.port = .command 0x1000 :: rest) : t.block = Block.reset := by
  rcases hp with hp | hp
  · rw [step_reset hp] at h
    cases h
    rfl
  · rw [step_command hp, runWord_clr] at h
    cases h
    rfl

/-- Settles O15: in `FAULT` a step either keeps the block or has taken one of the two events that clear it. -/
theorem onlyClrAndResetLeaveFault : Obligations.OnlyClrAndResetLeaveFault := by
  unfold Obligations.OnlyClrAndResetLeaveFault
  refine fun s t hf h => ⟨?_, fun rest => step_clears h⟩
  rcases step_cases h with ⟨-, rfl⟩ | ⟨rest, hp, rfl⟩ |
    ⟨w, rest, hp, ⟨-, -, -, rfl⟩ | ⟨hf', -⟩ | ⟨i, hd, hi⟩⟩
  · exact .inl rfl
  · exact .inr ⟨rfl, rest, .inl hp⟩
  · exact .inl rfl
  · exact absurd hf hf'
  · refine (exec_in_fault hi hf).imp_right fun ⟨hclr, ht⟩ => ⟨ht, rest, .inr ?_⟩
    obtain rfl : 0x1000 = w := (congrArg encode hclr).symm.trans (encode_of_decode hd)
    exact hp

/-! ## `EmptyInput` is no fault -/

theorem seedFrom_of_zero {cs : List (Byte × Nat)} (h : ∀ x ∈ cs, x.2 = 0) (b : Block) : seedFrom cs b = .ok b := by
  induction cs with
  | nil => rfl
  | cons x cs ih =>
    obtain ⟨hx, hcs⟩ := List.forall_mem_cons.mp h
    simp only [seedFrom, seedOne, hx, if_true, ih hcs]

/-- Seeding where no byte was counted writes nothing (42_tree.md R93). -/
theorem seed_of_no_counts {b : Block} (h : ∀ c, b.count c = 0) : seed b = .ok b := by
  refine seedFrom_of_zero (fun x hx => ?_) b
  rw [countList_eq] at hx
  obtain ⟨c, -, rfl⟩ := List.mem_map.mp hx
  exact h c

/-- Settles O26: seeding writes nothing, so that the queue stays empty, which both commands answer with `EmptyInput`. -/
theorem emptyInputIsNoFault : Obligations.EmptyInputIsNoFault := by
  unfold Obligations.EmptyInputIsNoFault
  intro s hp hcount hq
  have hseed := seed_of_no_counts hcount
  have hcode : (seedResponse s.block).code = 0x01 := by rw [seedResponse_code, hq]; rfl
  have hmerge := mergeWhile_of_length_le_one (b := s.block) s.block.pq.length (by simp [hq])
  exact hcode ▸ ⟨exec_seed_of_seed hp hseed, exec_build_of_seed_merge hp hseed hmerge⟩

end Sys2Proof.Machine
end

section
/-! PROOFS. Decoding and encoding are inverse to each other, how many words are legal, and the opcode table's rows
(30_encoding.md R60 to R66). -/

namespace Sys2Proof

open Sys2Proof.Machine

/-! ## Round trip -/

theorem selectCommand_encode (i : Instr) : selectCommand i.opcode i.operand = some i := by cases i <;> rfl

/-- A command's word has the fields of a legal command (30_encoding.md R64, R65). -/
theorem wf_ofWord_encode (i : Instr) : (C16.ofWord (encode i)).wf = true := by
  rw [ofWord_encode, C16.wf_iff]
  cases i <;> simp [Instr.opcode, Instr.operand]

/-- Every command decodes from its word (30_encoding.md R66). -/
@[simp] theorem decode_encode (i : Instr) : decode (encode i) = .ok i := by
  rw [decode_eq_ok_iff, ofWord_encode]
  exact ⟨ofWord_encode i ▸ wf_ofWord_encode i, selectCommand_encode i⟩

theorem decode_eq_ok_iff_eq_encode (w : Word16) (i : Instr) : decode w = .ok i ↔ w = encode i :=
  ⟨fun h => (encode_of_decode h).symm, fun h => h ▸ decode_encode i⟩

/-- Settles O1: a legal word is its command's word, and every command decodes from its word. -/
theorem decodeExactlyInvertsEncode : Obligations.DecodeExactlyInvertsEncode := by
  unfold Obligations.DecodeExactlyInvertsEncode
  exact decode_eq_ok_iff_eq_encode

theorem encode_injective : Function.Injective encode := fun i j h => by
  have hj := decode_encode j
  rw [← h, decode_encode] at hj
  exact Except.ok.inj hj

/-! ## The number of legal words -/

/-- The commands without an operand (30_encoding.md R63). -/
def plainCommands : List Instr := [.nop, .clr, .seed, .merge, .build, .gen, .head, .encend, .decst, .decend]

/-- All commands with all operands (30_encoding.md R63). -/
def allCommands : List Instr :=
  plainCommands ++ allBytes.map .freq ++ allBytes.map .enc ++ allBytes.map .dec

theorem mem_allCommands (i : Instr) : i ∈ allCommands := by
  cases i <;> simp [allCommands, plainCommands]

theorem allCommands_length : allCommands.length = 778 := by
  simp [allCommands, plainCommands, allBytes_length]

theorem allCommands_nodup : allCommands.Nodup := by
  have hfreq : (allBytes.map Instr.freq).Nodup := allBytes_nodup.map fun _ _ h => Instr.freq.inj h
  have henc : (allBytes.map Instr.enc).Nodup := allBytes_nodup.map fun _ _ h => Instr.enc.inj h
  have hdec : (allBytes.map Instr.dec).Nodup := allBytes_nodup.map fun _ _ h => Instr.dec.inj h
  have hplain : plainCommands.Nodup := by decide
  refine ((hplain.append hfreq ?_).append henc ?_).append hdec ?_ <;>
    simp [List.disjoint_left, plainCommands, or_imp, forall_and]

/-- Settles O3: the words of all commands, which are distinct because a word decodes to one command alone. -/
theorem legalWordsNumber778 : Obligations.LegalWordsNumber778 := by
  unfold Obligations.LegalWordsNumber778
  refine ⟨allCommands.map encode, allCommands_nodup.map encode_injective, by simp [allCommands_length], fun w => ?_⟩
  simp only [List.mem_map, mem_allCommands, true_and, decode_eq_ok_iff_eq_encode, eq_comm (a := w)]

/-! ## The opcode table -/

/-- The row of the opcode table that a command belongs to (30_encoding.md R63): a command with an operand leaves the low
byte free. -/
def Instr.row (i : Instr) : OpcodeRow where
  mnemonic := i.mnemonic
  pattern := C16.toWord ⟨i.opcode, 0, 0⟩
  mask := if i.opcode.toNat ∈ [0x2, 0x8, 0xB] then 0xFF00 else 0xFFFF

/-- The table's rows stand in the order of the opcodes. -/
theorem opcodeTable_getElem?_opcode (i : Instr) : opcodeTable[i.opcode.toNat]? = some i.row := by
  cases i <;> simp [opcodeTable, Instr.row, Instr.opcode, Instr.mnemonic, C16.toWord]

theorem exists_row_eq : ∀ row ∈ opcodeTable, ∃ i : Instr, i.row = row := by
  simp only [opcodeTable, List.cons_append, List.nil_append, List.forall_mem_cons]
  exact ⟨⟨.nop, rfl⟩, ⟨.clr, rfl⟩, ⟨.freq 0, rfl⟩, ⟨.seed, rfl⟩, ⟨.merge, rfl⟩, ⟨.build, rfl⟩, ⟨.gen, rfl⟩, ⟨.head, rfl⟩,
    ⟨.enc 0, rfl⟩, ⟨.encend, rfl⟩, ⟨.decst, rfl⟩, ⟨.dec 0, rfl⟩, ⟨.decend, rfl⟩, nofun⟩

theorem C16.toWord_inj {c c' : C16} : c.toWord = c'.toWord ↔ c = c' :=
  ⟨fun h => by rw [← C16.ofWord_toWord c, h, C16.ofWord_toWord], congrArg _⟩

/-- Masking off the low byte leaves the other two fields. -/
theorem C16.toWord_and_high (c : C16) : c.toWord &&& 0xFF00 = C16.toWord ⟨c.op, c.rs, 0⟩ := by
  obtain ⟨op, rs, d⟩ := c
  have hmask : (0xFF00 : Word16) = BitVec.allOnes 8 ++ 0#8 := rfl
  apply BitVec.eq_of_getLsbD_eq
  intro k hk
  simp only [C16.toWord, hmask, BitVec.getLsbD_and, BitVec.getLsbD_append, BitVec.getLsbD_allOnes]
  by_cases h8 : k < 8
  · simp [h8]
  · have h16 : k - 8 < 8 := by omega
    simp [h8, h16]

/-- A word matches a command's row when its fields are well formed and its opcode is the command's. -/
theorem row_matches_iff (w : Word16) (i : Instr) :
    w &&& i.row.mask = i.row.pattern ↔ (C16.ofWord w).wf = true ∧ (C16.ofWord w).op = i.opcode := by
  have hop : i.opcode.toNat ≤ 0xC := by cases i <;> simp [Instr.opcode]
  rw [C16.wf_iff]
  simp only [Instr.row]
  generalize hc : C16.ofWord w = c
  obtain rfl : c.toWord = w := by rw [← hc, C16.toWord_ofWord]
  split
  · rename_i hd
    rw [C16.toWord_and_high, C16.toWord_inj, C16.mk.injEq]
    constructor
    · rintro ⟨h1, h2, -⟩; exact ⟨⟨h1 ▸ hop, h2, .inl (h1 ▸ hd)⟩, h1⟩
    · rintro ⟨⟨-, h2, -⟩, h1⟩; exact ⟨h1, h2, rfl⟩
  · rename_i hd
    rw [show (0xFFFF : Word16) = BitVec.allOnes 16 from rfl, BitVec.and_allOnes, C16.toWord_inj]
    constructor
    · rintro rfl; exact ⟨⟨hop, rfl, .inr rfl⟩, rfl⟩
    · rintro ⟨⟨-, h2, h3⟩, h1⟩
      obtain ⟨op, rs, d⟩ := c
      obtain rfl : op = i.opcode := h1
      exact C16.mk.injEq .. ▸ ⟨rfl, h2, h3.resolve_left hd⟩

/-- Settles O4: a word that matches a row has well-formed fields, hence decodes, and its opcode fixes the row. -/
theorem opcodeRowSelectsTheCommand : Obligations.OpcodeRowSelectsTheCommand := by
  unfold Obligations.OpcodeRowSelectsTheCommand
  refine ⟨fun w => ⟨fun ⟨i, hi⟩ => ?_, fun ⟨row, hrow, hm⟩ => ?_⟩, fun w i row hrow hi hm => ?_⟩
  · obtain ⟨hwf, hsel⟩ := (decode_eq_ok_iff w i).mp hi
    have hop := BitVec.eq_of_toNat_eq (selectCommand_fields hsel).1
    exact ⟨i.row, List.mem_of_getElem? (opcodeTable_getElem?_opcode i), (row_matches_iff w i).mpr ⟨hwf, hop.symm⟩⟩
  · obtain ⟨j, rfl⟩ := exists_row_eq row hrow
    obtain ⟨i, hi, -⟩ := decode_ok_of_wf ((row_matches_iff w j).mp hm).1
    exact ⟨i, hi⟩
  · obtain ⟨j, rfl⟩ := exists_row_eq row hrow
    have hop := BitVec.eq_of_toNat_eq (selectCommand_fields ((decode_eq_ok_iff w i).mp hi).2).1
    have hrow := opcodeTable_getElem?_opcode j
    rw [← ((row_matches_iff w j).mp hm).2, ← hop, opcodeTable_getElem?_opcode i] at hrow
    exact congrArg OpcodeRow.mnemonic (Option.some.inj hrow).symm

/-- Settles O5, by decoding the eight words. -/
theorem sampleWordsDecode : Obligations.SampleWordsDecode := by
  unfold Obligations.SampleWordsDecode
  decide

end Sys2Proof
end

section
/-! PROOFS. One step: which command it runs, what it does where there is none, the phases a command may execute in, and the
status port (10_state.md R33, 40_control.md R82, R84). -/

namespace Sys2Proof.Machine

/-! ## The command a word stands for -/

/-- A legal word's command is executed in every phase, `FAULT` included (40_control.md R84). -/
theorem runWord_eq_exec {w : Word16} {i : Instr} (hd : decode w = .ok i) (s : State) : runWord w s = exec i s := by
  by_cases ha : answersFaulted s.block w = true
  · obtain ⟨hf, hnop, hclr⟩ := of_decide_eq_true ha
    obtain rfl := encode_of_decode hd
    rw [runWord_of_fault hf hnop hclr, exec_faulted _ _ hf]
    · rintro rfl; exact hnop rfl
    · rintro rfl; exact hclr rfl
  · exact runWord_of_decode ha hd

/-- The step on the word of a command (40_control.md R84). -/
theorem step_encode {s : State} {i : Instr} {rest : List HostEvent} (h : s.port = .command (encode i) :: rest) :
    step s = exec i (s.taken (.command (encode i)) rest) :=
  (step_command h).trans (runWord_eq_exec (decode_encode i) _)

/-- Settles O6: the word at the port is the word of its command. -/
theorem stepRunsTheDecodedCommand : Obligations.StepRunsTheDecodedCommand := by
  unfold Obligations.StepRunsTheDecodedCommand
  exact fun s w rest i hp hd => (step_command hp).trans (runWord_eq_exec hd _)

/-- Settles O9, by the two equations of the step without a command word. -/
theorem idleAndResetSteps : Obligations.IdleAndResetSteps := by
  unfold Obligations.IdleAndResetSteps
  exact fun s => ⟨step_idle, fun rest => step_reset⟩

/-- Settles O11, by the equations of `exec` outside a command's phases and in `FAULT`. -/
theorem phaseTableIsEnforced : Obligations.PhaseTableIsEnforced := by
  unfold Obligations.PhaseTableIsEnforced
  exact fun i s hn hc => ⟨exec_wrongPhase hn hc, exec_faulted hn hc⟩

/-! ## The status port -/

theorem Phase.code_eq_iff (p q : Phase) : p.code = q.code ↔ p = q := by
  cases p <;> cases q <;> decide

theorem faultOut_iff (b : Block) : b.status.fault_o = true ↔ b.status.phase = 15 :=
  decide_eq_true_iff.trans (Phase.code_eq_iff b.phase .fault).symm

theorem doneOut_iff (b : Block) : b.status.done_o = true ↔ b.status.phase = 5 ∨ b.status.phase = 9 :=
  decide_eq_true_iff.trans
    (or_congr (Phase.code_eq_iff b.phase .encDone).symm (Phase.code_eq_iff b.phase .decDone).symm)

/-- Settles O19: the registers by the definition of the port, the two outputs because no two phases share a number. -/
theorem statusPortShowsTheRegisters : Obligations.StatusPortShowsTheRegisters := by
  unfold Obligations.StatusPortShowsTheRegisters
  refine ⟨fun b => ⟨rfl, rfl, rfl, rfl, ?_, ?_, ?_, ?_, ?_, ?_, ?_, faultOut_iff b, doneOut_iff b⟩, rfl⟩
  all_goals exact BitVec.toNat_ofNat ..

end Sys2Proof.Machine
end

section
/-! PROOFS. What each command leaves unchanged, the phase it leaves, and the fault kinds it raises, by the completions and
aborts of its rule (10_state.md R11 to R32, 40_control.md R83, 60_exceptions.md R150). -/

namespace Sys2Proof.Machine

/-! ## Frames -/

theorem headerByte_frame {d : Byte} {b b' : Block} (h : headerByte d b = .ok b') :
    b' = { b with
      stage := b'.stage, spos := b'.spos, origlen := b'.origlen, dictsz := b'.dictsz, phase := b'.phase } := by
  rcases headerByte_ok h with ⟨-, rfl⟩ | ⟨-, -, rfl⟩ <;> rfl

theorem dictByte_frame {d : Byte} {b b' : Block} (h : dictByte d b = .ok b') :
    b' = { b with
      stage := b'.stage, spos := b'.spos, ct := b'.ct, dord := b'.dord, maxlen := b'.maxlen, phase := b'.phase } := by
  rcases dictByte_ok h with ⟨-, rfl⟩ | ⟨-, b2, h2, rfl⟩
  · rfl
  · obtain ⟨-, -, -, -, rfl⟩ := loadRecord_ok h2
    rfl

/-- What a command may write of the block `b` when it leaves the block `b'` without a fault (20_memory.md R41). -/
def Frame (i : Instr) (b b' : Block) : Prop :=
  match i with
  | .nop => b' = b
  | .clr => b' = Block.reset
  | .freq d => b' = { b with freq := b'.freq, total := b'.total, phase := b'.phase } ∧
      ∀ c, c ≠ d → b'.count c = b.count c
  | .seed => b' = { b with node := b'.node, pq := b'.pq, seq := b'.seq, phase := b'.phase }
  | .merge => b' = { b with node := b'.node, pq := b'.pq, seq := b'.seq }
  | .build => b' = { b with node := b'.node, pq := b'.pq, seq := b'.seq, phase := b'.phase }
  | .gen => b' = { b with node := b'.node, pq := b'.pq, ct := b'.ct, dord := b'.dord, phase := b'.phase }
  | .head => b' = { b with phase := b'.phase }
  | .enc _ => b' = { b with pkbuf := b'.pkbuf, pkcnt := b'.pkcnt, encn := b'.encn }
  | .encend => b' = { b with pkbuf := b'.pkbuf, pkcnt := b'.pkcnt, phase := b'.phase }
  | .decst => b' = { b with phase := b'.phase }
  | .decend => b' = b
  | .dec _ =>
    (b.phase = .decHdr → b' = { b with
      stage := b'.stage, spos := b'.spos, origlen := b'.origlen, dictsz := b'.dictsz, phase := b'.phase }) ∧
    (b.phase = .decDict → b' = { b with
      stage := b'.stage, spos := b'.spos, ct := b'.ct, dord := b'.dord, maxlen := b'.maxlen, phase := b'.phase }) ∧
    (b.phase = .decBits → b' = { b with
      accbits := b'.accbits, acclen := b'.acclen, outn := b'.outn, phase := b'.phase }) ∧
    (b.phase = .decDone → b' = b)

/-- A rule that completes keeps its command's frame. -/
theorem Completes.frame {i : Instr} {b : Block} {r : Done} (h : Completes i b r) : Frame i b r.block := by
  cases i <;> simp only [Completes] at h <;> simp only [Frame]
  case nop | clr | head | decst => subst h; rfl
  case freq d => obtain ⟨-, rfl⟩ := h; exact ⟨rfl, fun c hc => (Block.count_countByte b c d).trans (if_neg hc)⟩
  case seed => obtain ⟨b', -, hs, rfl⟩ := h; exact hs.toTree
  case merge => obtain ⟨b', -, hs, rfl⟩ := h; exact hs
  case build => obtain ⟨b1, b2, -, -, -, hs, -, rfl⟩ := h; exact hs.toTree
  case gen =>
    obtain ⟨-, b', -, hs, rfl⟩ := h
    exact congrArg (fun x : Block => { x.freeTree with phase := .coded }) hs
  case enc => obtain ⟨-, -, rfl⟩ := h; rfl
  case encend => obtain ⟨-, ⟨-, rfl⟩ | ⟨-, rfl⟩⟩ := h <;> rfl
  case dec =>
    obtain ⟨hp, b', h, rfl⟩ | ⟨hp, b', h, rfl⟩ | ⟨hp, b', out, h, rfl⟩ | ⟨hp, rfl⟩ := h
    · simpa [hp] using headerByte_frame h
    · simpa [hp] using dictByte_frame h
    · simp only [hp, reduceCtorEq, false_implies, true_implies, true_and, and_true]
      exact bitsLoop_frame h
    · simp [hp]
  case decend => exact congrArg Done.block h.2

/-- What a command that neither starts nor ends in `FAULT` can do: `NOP`, `CLR`, or the completion of its rule in one of its
phases. -/
theorem exec_no_fault {i : Instr} {s t : State} (h : exec i s = .next t) (hf : s.block.phase ≠ .fault)
    (ht : t.block.phase ≠ .fault) :
    (i ≠ .nop → i ≠ .clr → mayExecute i s.block.phase) ∧
      ∃ r, ruleOf i s.block = .ok r ∧ Completes i s.block r ∧ t = s.answered r.block r.out r.rsp.code := by
  rcases exec_cases h with ⟨rfl, rfl⟩ | ⟨rfl, rfl⟩ | ⟨-, -, hf', -⟩ | ⟨-, -, -, -, rfl⟩ | ⟨-, -, -, -, k, -, rfl⟩ |
    ⟨-, -, -, hm, r, hr, rfl⟩
  · exact ⟨fun hn => absurd rfl hn, _, rfl, rfl, rfl⟩
  · exact ⟨fun _ hc => absurd rfl hc, _, rfl, rfl, rfl⟩
  · exact absurd hf' hf
  · exact absurd rfl ht
  · exact absurd rfl ht
  · exact ⟨fun _ _ => hm, r, hr, completes_of_ok hr, rfl⟩

/-- Settles O18: without a fault the rule has completed, and keeps its frame. -/
theorem commandFrames : Obligations.CommandFrames := by
  unfold Obligations.CommandFrames
  intro i s t h hf ht
  obtain ⟨-, r, -, hr, rfl⟩ := exec_no_fault h hf ht
  have hframe := hr.frame
  cases i <;> exact hframe

/-! ## The phase after a command -/

/-! ### One bit of the bit stage (45_decode.md R135) -/

/-- The block once a matched character is out: the automaton in its initial state, one byte more counted. -/
def Block.emitChar (b : Block) : Block := { b with accbits := 0, acclen := 0, outn := b.outn + 1 }

/-- The block once a bit is accumulated. -/
def Block.takeBit (b : Block) (bit : Bool) : Block :=
  { b with accbits := (accumulate b.accbits bit).setWidth 64, acclen := b.acclen + 1 }

/-- Everything the bit stage can do with one bit: put out the last character, put out another one, find no match although
the accumulated length exceeds `MAXLEN`, or accumulate the bit. -/
theorem bitsLoop_cons_cases (bit : Bool) (b : Block) :
    (∃ ch, lookup b (accumulate b.accbits bit) (b.acclen + 1) = some ch ∧ b.outn + 1 = b.origlen ∧
      ∀ rest out, bitsLoop (bit :: rest) b out = .ok ({ b.emitChar with phase := .decDone }, out ++ [ch])) ∨
    (∃ ch, lookup b (accumulate b.accbits bit) (b.acclen + 1) = some ch ∧ b.outn + 1 ≠ b.origlen ∧
      ∀ rest out, bitsLoop (bit :: rest) b out = bitsLoop rest b.emitChar (out ++ [ch])) ∨
    (lookup b (accumulate b.accbits bit) (b.acclen + 1) = none ∧ b.maxlen < b.acclen + 1 ∧
      ∀ rest out, bitsLoop (bit :: rest) b out = .error (.raise .corruptStream)) ∨
    (lookup b (accumulate b.accbits bit) (b.acclen + 1) = none ∧ b.acclen + 1 ≤ b.maxlen ∧
      ∀ rest out, bitsLoop (bit :: rest) b out = bitsLoop rest (b.takeBit bit) out) := by
  cases hl : lookup b (accumulate b.accbits bit) (b.acclen + 1) with
  | some ch =>
    by_cases ho : b.outn + 1 = b.origlen
    · exact .inl ⟨ch, rfl, ho, fun _ _ => by simp only [bitsLoop, hl, ho, if_true, Block.emitChar]⟩
    · exact .inr (.inl ⟨ch, rfl, ho, fun _ _ => by simp only [bitsLoop, hl, ho, if_false, Block.emitChar]⟩)
  | none =>
    by_cases hm : b.maxlen < b.acclen + 1
    · exact .inr (.inr (.inl ⟨rfl, hm, fun _ _ => by simp only [bitsLoop, hl, hm, if_true]⟩))
    · exact .inr (.inr (.inr ⟨rfl, not_lt.mp hm, fun _ _ => by simp only [bitsLoop, hl, hm, if_false, Block.takeBit]⟩))

/-- The bit stage ends in `DEC_DONE` with the last byte put out, or goes on before it. -/
theorem bitsLoop_phase {bits : List Bool} {b b' : Block} {out out' : List Byte} (hp : b.phase = .decBits)
    (ho : b.outn < b.origlen) (h : bitsLoop bits b out = .ok (b', out')) :
    (b'.phase = .decBits ∧ b'.outn < b'.origlen) ∨ (b'.phase = .decDone ∧ b'.outn = b'.origlen) := by
  induction bits generalizing b out with
  | nil => cases h; exact .inl ⟨hp, ho⟩
  | cons bit rest ih =>
    rcases bitsLoop_cons_cases bit b with ⟨ch, -, hlast, he⟩ | ⟨ch, -, hmore, he⟩ | ⟨-, -, he⟩ | ⟨-, -, he⟩ <;>
      rw [he] at h
    · cases h; exact .inr ⟨rfl, hlast⟩
    · exact ih (b := b.emitChar) hp (lt_of_le_of_ne ho hmore) h
    · cases h
    · exact ih (b := b.takeBit bit) hp ho h

/-! ### The commands -/

theorem loadRecord_phase {r : DictRecord} {b b' : Block} (h : loadRecord r b = .ok b') : b'.phase = b.phase := by
  obtain ⟨-, -, -, -, rfl⟩ := loadRecord_ok h
  rfl

/-- The phase that `DEC` leaves when it completes, by the phase it starts in (40_control.md R83). -/
theorem dec_phase {d : Byte} {b : Block} {r : Done} (h : Completes (.dec d) b r) :
    (b.phase = .decHdr →
      if b.spos.val < 15 then r.block.phase = .decHdr
      else if r.block.dictsz ≠ 0 then r.block.phase = .decDict
      else if r.block.origlen ≠ 0 then r.block.phase = .decBits
      else r.block.phase = .decDone) ∧
    (b.phase = .decDict →
      if b.spos.val < 15 ∨ 16 * r.block.dord.length ≠ r.block.dictsz then r.block.phase = .decDict
      else if r.block.origlen ≠ 0 then r.block.phase = .decBits
      else r.block.phase = .decDone) ∧
    (b.phase = .decBits → b.outn < b.origlen →
      if r.block.outn < r.block.origlen then r.block.phase = .decBits
      else r.block.phase = .decDone ∧ r.block.outn = r.block.origlen) ∧
    (b.phase = .decDone → r.block.phase = .decDone) := by
  obtain ⟨hp, b', h, rfl⟩ | ⟨hp, b', h, rfl⟩ | ⟨hp, b', out, h, rfl⟩ | ⟨hp, rfl⟩ := h <;>
    simp only [hp, reduceCtorEq, false_implies, true_implies, and_true, true_and, Block.done_block]
  · rcases headerByte_ok h with ⟨hs, rfl⟩ | ⟨hs, -, rfl⟩
    · simp [hs, hp]
    · simp only [hs, lt_irrefl, if_false, payloadPhase]
      split <;> [rfl; split <;> rfl]
  · rcases dictByte_ok h with ⟨hs, rfl⟩ | ⟨hs, b2, hload, rfl⟩
    · simp [hs, hp]
    · have hlast : ¬ b.spos.val < 15 := by omega
      have hphase : b2.phase = .decDict := (loadRecord_phase hload).trans hp
      simp only [hlast, false_or, ite_not, hphase, payloadPhase]
      split <;> [(split <;> rfl); rfl]
  · intro ho
    rcases bitsLoop_phase hp ho h with ⟨hp', hlt⟩ | ⟨hp', heq⟩
    · simp [hp', hlt]
    · simp [hp', heq]

/-- The phase that every other command leaves when it completes (40_control.md R83). -/
theorem Completes.phase_eq {i : Instr} {b : Block} {r : Done} (h : Completes i b r) :
    match i with
    | .nop => r.block.phase = b.phase
    | .clr => r.block.phase = .idle
    | .freq _ => r.block.phase = .count
    | .seed | .build => r.block.phase = .tree
    | .merge | .enc _ => r.block.phase = b.phase
    | .gen => r.block.phase = .coded
    | .head => r.block.phase = .enc
    | .encend => r.block.phase = .encDone
    | .decst => r.block.phase = .decHdr
    | .decend => r.block.phase = .decDone
    | .dec _ => True := by
  cases i <;> simp only [Completes] at h <;> dsimp only
  case nop | clr | head | decst => subst h; rfl
  case freq => obtain ⟨-, rfl⟩ := h; rfl
  case seed => obtain ⟨b', -, -, rfl⟩ := h; rfl
  case merge => obtain ⟨b', -, hs, rfl⟩ := h; rw [Block.done_block, hs]
  case build => obtain ⟨b1, b2, -, -, -, -, -, rfl⟩ := h; rfl
  case gen => obtain ⟨-, b', -, -, rfl⟩ := h; rfl
  case enc => obtain ⟨-, -, rfl⟩ := h; rfl
  case encend => obtain ⟨-, ⟨-, rfl⟩ | ⟨-, rfl⟩⟩ := h <;> rfl
  case decend => obtain ⟨hp, rfl⟩ := h; exact hp

/-- Settles O16: `CLR` and `NOP` by their equations, the other commands by the phase their rule leaves. -/
theorem phaseTransitions : Obligations.PhaseTransitions := by
  unfold Obligations.PhaseTransitions
  intro i s t h ht
  refine ⟨?_, ?_, fun hf => ?_⟩
  · rintro rfl; rw [exec_clr] at h; cases h; rfl
  · rintro rfl; rw [exec_nop] at h; cases h; rfl
  · obtain ⟨hm, r, -, hr, rfl⟩ := exec_no_fault h hf (ht.resolve_left hf)
    have hphase := hr.phase_eq
    refine ⟨?_, ?_, ?_, ?_, ?_, ?_, ?_, ?_, ?_, ?_⟩
    · rintro ⟨d, rfl⟩; exact hphase
    · rintro (rfl | rfl) <;> exact hphase
    · rintro rfl; exact hphase.trans (hm nofun nofun)
    · rintro rfl; exact hphase
    · rintro rfl; exact hphase
    · rintro ⟨d, rfl⟩; exact hphase.trans (hm nofun nofun)
    · rintro rfl; exact hphase
    · rintro rfl; exact hphase
    · rintro rfl; exact hphase
    · rintro ⟨d, rfl⟩; exact dec_phase hr

/-! ## The fault kinds -/

/-- The table of 60_exceptions.md R150, by command. -/
def raisedKinds : Instr → List FaultKind
  | .nop | .clr => []
  | .freq _ => [.countOverflow, .protocolError]
  | .seed | .build => [.allocationFailure, .protocolError]
  | .merge => [.emptyQueue, .allocationFailure, .protocolError]
  | .gen => [.tableOverflow, .degenerateCodeError, .codeTooLong, .protocolError]
  | .enc _ => [.degenerateCodeError, .protocolError]
  | .head | .encend | .decst => [.protocolError]
  | .dec _ => [.degenerateCodeError, .corruptStream, .formatError, .protocolError]
  | .decend => [.corruptStream, .formatError, .protocolError]

theorem protocolError_mem_raisedKinds {i : Instr} (hn : i ≠ .nop) (hc : i ≠ .clr) :
    FaultKind.protocolError ∈ raisedKinds i := by
  cases i <;> simp [raisedKinds] at hn hc ⊢

/-- The rule of a command raises only kinds of its row of the table. -/
theorem Aborts.mem_raisedKinds {i : Instr} {b : Block} {k : FaultKind} (h : Aborts i b (.raise k)) : k ∈ raisedKinds i := by
  cases i <;> simp only [raisedKinds, List.mem_cons, List.not_mem_nil, or_false]
  case nop | clr | head | decst => exact h.elim
  case freq => exact .inl (Abort.raise.inj h.1)
  case seed | build => exact .inl (Abort.raise.inj (h.resolve_right nofun))
  case merge =>
    obtain ⟨hk, -⟩ | ⟨hk, -⟩ | ⟨hk, -⟩ := mergeStep_error h <;> cases hk <;> simp
  case gen =>
    obtain ⟨hk, -⟩ | ⟨-, htree⟩ := h
    · cases hk; simp
    · have hk := recordTree_error htree
      simp only [List.mem_cons, Abort.raise.injEq, reduceCtorEq, List.not_mem_nil, or_false] at hk
      tauto
  case enc => obtain ⟨hk, -⟩ | ⟨hk, -⟩ := h <;> cases hk <;> simp
  case encend => exact Abort.raise.inj h.1
  case dec => obtain hk | hk | hk := dec_aborts h <;> cases hk <;> simp
  case decend => obtain ⟨-, hk⟩ | ⟨-, hk⟩ := h <;> cases hk <;> simp

theorem Raises.mem_raisedKinds {i : Instr} {b : Block} {k : FaultKind} (h : Raises i b k) : k ∈ raisedKinds i := by
  obtain ⟨hn, hc⟩ := h.ne_control
  rcases h with ⟨-, rfl⟩ | ⟨hm, hk⟩
  · exact protocolError_mem_raisedKinds hn hc
  · exact (aborts_of_error hm hk).mem_raisedKinds

/-- Settles O14: the code in `ERR` is that of the kind raised, and the rows of the statement are the codes of the kinds in
the command's row. -/
theorem faultKindsOfEachCommand : Obligations.FaultKindsOfEachCommand := by
  unfold Obligations.FaultKindsOfEachCommand
  intro i s t h hf ht
  obtain ⟨k, hk, rfl⟩ := exec_enters_fault h hf ht
  have hcode : k.code ∈ (raisedKinds i).map FaultKind.code := List.mem_map_of_mem hk.mem_raisedKinds
  cases i
  case nop | clr => exact absurd hcode List.not_mem_nil
  case head | encend | decst => exact List.mem_singleton.mp hcode
  all_goals exact hcode

end Sys2Proof.Machine
end

section
/-! PROOFS. `GEN` on a block that meets the invariants: which of its four ends it takes, and the code table it leaves
(43_codegen.md R105 to R112). -/

namespace Sys2Proof.Machine

theorem Block.freeTree_of_empty {b : Block} (hn : b.node = []) (hq : b.pq = []) : b.freeTree = b := by
  rw [Block.freeTree, ← hn, ← hq]

/-- In `TREE` the one queued node is the root of a tree (10_state.md R18). -/
theorem Inv.exists_tree {b : Block} (h : Inv b) {e : PqEntry} (hq : b.pq = [e]) : ∃ t, IsTree b.node e.node t := by
  have hlt := ((h.tree.queued e.node).mp (by simp [hq])).1
  exact isTree_exists h.tree.child_lt e.node hlt

theorem genRule_of_empty {b : Block} (h : Inv b) (hq : b.pq = []) : genRule b = .ok { b with phase := .coded }.done := by
  have hfree := Block.freeTree_of_empty (h.tree.node_nil hq) hq
  simp only [genRule, recordTree, hq, List.length_nil, Nat.not_lt_zero, if_false, hfree]

section
variable {b : Block} {e : PqEntry} {t : HTree}

theorem genRule_of_recordTree (hq : b.pq = [e]) :
    genRule b = (recordTree b).map (fun b' => { b'.freeTree with phase := .coded }.done) := by
  have hlen : ¬ 1 < b.pq.length := by simp [hq]
  simp only [genRule, hlen, if_false]
  cases recordTree b <;> rfl

theorem record_room (h : Inv b) (hp : b.phase = .tree) (hq : b.pq = [e]) (ht : IsTree b.node e.node t) :
    b.dord.length + t.chars.length ≤ Config.tableCap := by
  rw [h.table.empty_before (by simp [hp]), List.length_nil, Nat.zero_add]
  exact (genFacts_of_inv h hp hq ht).2

theorem genRule_of_tree (h : Inv b) (hp : b.phase = .tree) (hq : b.pq = [e]) (ht : IsTree b.node e.node t)
    (hd : t.depth ≤ 64) : genRule b = .ok (genBlock b t).done := by
  rw [genRule_of_recordTree hq, recordTree_tree hq ht hd (record_room h hp hq ht)]
  rfl

theorem genRule_of_deep (h : Inv b) (hp : b.phase = .tree) (hq : b.pq = [e]) (ht : IsTree b.node e.node t)
    (hd : 64 < t.depth) : genRule b = .error (.raise .codeTooLong) := by
  rw [genRule_of_recordTree hq, recordTree_deep hq ht hd (record_room h hp hq ht)]
  rfl

theorem tooDeep_iff (ht : IsTree b.node e.node t) : tooDeep b.node e.node ↔ 64 < t.depth := follow_internal_iff ht 64

end

/-- Everything `GEN` can do in `TREE` (43_codegen.md R105). -/
theorem genRule_cases {b : Block} (h : Inv b) (hp : b.phase = .tree) :
    (1 < b.pq.length ∧ genRule b = .error (.raise .protocolError)) ∨
    (b.pq = [] ∧ genRule b = .ok { b with phase := .coded }.done) ∨
    (∃ e t, b.pq = [e] ∧ IsTree b.node e.node t ∧ t.depth ≤ 64 ∧ genRule b = .ok (genBlock b t).done) ∨
    (∃ e t, b.pq = [e] ∧ IsTree b.node e.node t ∧ 64 < t.depth ∧ genRule b = .error (.raise .codeTooLong)) := by
  rcases Nat.lt_or_ge 1 b.pq.length with hlen | hlen
  · exact .inl ⟨hlen, genRule_of_unmerged hlen⟩
  rcases Nat.le_one_iff_eq_zero_or_eq_one.mp hlen with hlen | hlen
  · have hq := List.length_eq_zero_iff.mp hlen
    exact .inr (.inl ⟨hq, genRule_of_empty h hq⟩)
  · obtain ⟨e, hq⟩ := List.length_eq_one_iff.mp hlen
    obtain ⟨t, ht⟩ := h.exists_tree hq
    rcases Nat.lt_or_ge 64 t.depth with hd | hd
    · exact .inr (.inr (.inr ⟨e, t, hq, ht, hd, genRule_of_deep h hp hq ht hd⟩))
    · exact .inr (.inr (.inl ⟨e, t, hq, ht, hd, genRule_of_tree h hp hq ht hd⟩))

/-- `GEN` keeps the invariants. -/
theorem inv_gen {b : Block} {r : Done} (h : Inv b) (hp : b.phase = .tree) (hr : genRule b = .ok r) : Inv r.block := by
  rcases genRule_cases h hp with ⟨-, hg⟩ | ⟨hq, hg⟩ | ⟨e, t, hq, ht, hd, hg⟩ | ⟨e, t, -, -, -, hg⟩ <;> rw [hg] at hr <;> cases hr
  · have hinv := inv_genEmpty h hp hq
    have hfree := Block.freeTree_of_empty (h.tree.node_nil hq) hq
    exact (congrArg (fun x : Block => Inv { x with phase := .coded }) hfree).mp hinv
  · exact inv_genTree h hp hq ht hd

/-! ## The codes of a tree -/

theorem HTree.paths_eq_codePaths {t : HTree} {c : Byte} {path : List Bool} (h : (c, path) ∈ t.paths) (hp : path ≠ []) :
    (c, path) ∈ t.codePaths := by
  cases t with
  | leaf ch => simp only [HTree.paths, List.mem_singleton, Prod.mk.injEq] at h; exact absurd h.2 hp
  | node l r => exact h

section
variable {b : Block} {t : HTree}

/-- The bits of a generated code are its Leaf's path (43_codegen.md R107, R110). -/
theorem GenFacts.codeBits_eq (g : GenFacts b t) (hd : t.depth ≤ 64) {x : Byte × List Bool} (hx : x ∈ t.codePaths) :
    codeBits ((genBlock b t).code x.1) = x.2 := by
  rw [g.code_of x hx, codeBits_pathCode _ (t.codePaths_length hd x hx).2]

/-- The characters are listed in the order of their codes (43_codegen.md R107). -/
theorem GenFacts.dord_sorted (g : GenFacts b t) (hd : t.depth ≤ 64) :
    (genBlock b t).dord.Pairwise
      (fun c c' => codeBits ((genBlock b t).code c) < codeBits ((genBlock b t).code c')) := by
  rw [g.dord, ← t.codePaths_chars, List.pairwise_map]
  refine (List.pairwise_map.mp t.codePaths_sorted).imp_of_mem fun hx hy hlt => ?_
  rw [g.codeBits_eq hd hx, g.codeBits_eq hd hy]
  exact hlt

end

/-- `GEN` where its rule completes. -/
theorem exec_gen_of_ok {s : State} {b : Block} (hp : s.block.phase = .tree) (h : genRule s.block = .ok b.done) :
    exec .gen s = .next (s.answered b [] 0x00) :=
  exec_ok (i := .gen) (r := b.done) nofun nofun (phase_ne_fault_of_tree hp) hp h

/-- Settles O32: the tree below the one entry gives the codes, and its depth decides between the two ends. -/
theorem genAssignsRootPaths : Obligations.GenAssignsRootPaths := by
  unfold Obligations.GenAssignsRootPaths
  intro s h hp
  refine ⟨fun hq => exec_gen_of_ok hp (genRule_of_empty h hq), fun e hq hdeep => ?_, fun e hq hdeep => ?_⟩
  all_goals
    obtain ⟨t, ht⟩ := h.exists_tree hq
    rw [tooDeep_iff ht] at hdeep
  · have hd : t.depth ≤ 64 := not_lt.mp hdeep
    obtain ⟨g, -⟩ := genFacts_of_inv h hp hq ht
    have hgen := exec_gen_of_ok hp (genRule_of_tree h hp hq ht hd)
    have hcode := g.code_of
    have hbits := fun x (hx : x ∈ t.codePaths) => g.codeBits_eq hd hx
    have hsorted := g.dord_sorted hd
    have hdord := g.dord
    have hform := genBlock_form s.block t
    generalize genBlock s.block t = b at hgen hcode hbits hsorted hdord hform
    refine ⟨b.ct, b.dord, ?_⟩
    rw [← hform]
    refine ⟨hgen, fun c w hleaf => ?_, fun path c w hne hfollow => ?_, fun c hc => ?_, hsorted⟩
    · obtain rfl : t = .leaf c := ht.unique (.leaf hleaf)
      exact ⟨hdord, hcode (c, [false]) (List.mem_singleton.mpr rfl)⟩
    · have hmem := HTree.paths_eq_codePaths ((follow_leaf_iff ht path c).mp ⟨w, hfollow⟩) hne
      exact ⟨hdord ▸ HTree.mem_chars.mpr ⟨path, hmem⟩, hbits (c, path) hmem⟩
    · rw [hdord] at hc
      obtain ⟨⟨c', path⟩, hmem, rfl⟩ := List.mem_map.mp hc
      obtain ⟨w, hw⟩ := (follow_leaf_iff ht path c').mpr hmem
      exact ⟨path, w, hw⟩
  · exact exec_raise (i := .gen) (k := .codeTooLong) nofun nofun (phase_ne_fault_of_tree hp) hp
      (genRule_of_deep h hp hq ht hdeep)

end Sys2Proof.Machine
end

section
/-! PROOFS. The invariants of 10_state.md: they hold at reset and every step keeps them, so that no step stops the machine and
some faults are never raised. -/

namespace Sys2Proof.Machine

/-! ## From rules to steps -/

/-- A property of the block that fault entry keeps and every rule keeps when it completes. It holds at reset. -/
structure KeptByRules (P : Block → Prop) : Prop where
  reset : P Block.reset
  fault : ∀ {b : Block} (w : Word16) (k : FaultKind), P b → b.phase ≠ .fault → P (b.enterFault w k)
  rule : ∀ {i : Instr} {b : Block} {r : Done}, P b → i ≠ .nop → i ≠ .clr → mayExecute i b.phase → ruleOf i b = .ok r →
    P r.block

/-- Every command that answers keeps a property that the rules keep. -/
theorem KeptByRules.exec {P : Block → Prop} (hP : KeptByRules P) {i : Instr} {s t : State} (hs : P s.block)
    (h : exec i s = .next t) : P t.block := by
  rcases exec_cases h with ⟨-, rfl⟩ | ⟨-, rfl⟩ | ⟨-, -, -, rfl⟩ | ⟨-, -, hf, -, rfl⟩ | ⟨-, -, hf, -, k, -, rfl⟩ |
    ⟨hn, hc, hf, hm, r, hr, rfl⟩
  · exact hs
  · exact hP.reset
  · exact hs
  · exact hP.fault (encode i) .protocolError hs hf
  · exact hP.fault (encode i) k hs hf
  · exact hP.rule hs hn hc hm hr

/-- Every step that answers keeps a property that the rules keep. -/
theorem KeptByRules.step {P : Block → Prop} (hP : KeptByRules P) {s t : State} (hs : P s.block)
    (h : step s = .next t) : P t.block := by
  rcases step_cases h with ⟨-, rfl⟩ | ⟨rest, -, rfl⟩ | ⟨w, rest, -, ⟨-, -, -, rfl⟩ | ⟨hf, -, rfl⟩ | ⟨i, -, hi⟩⟩
  · exact hs
  · exact hP.reset
  · exact hs
  · exact hP.fault w .illegalCommand hs hf
  · exact hP.exec (s := s.taken (.command w) rest) hs hi

/-! ## What the rules leave unwritten -/

/-- The error registers are written by `CLR` alone, the counts and `TOTAL` by `FREQ` and `CLR`, the packer by `ENC`,
`ENCEND` and `CLR` (10_state.md R11, R23, R31). -/
theorem Completes.unwritten {i : Instr} {b : Block} {r : Done} (h : Completes i b r) (hc : i ≠ .clr) :
    (r.block.err = b.err ∧ r.block.errcmd = b.errcmd ∧ r.block.errphase = b.errphase) ∧
    ((∀ d, i ≠ .freq d) → r.block.freq = b.freq ∧ r.block.total = b.total) ∧
    ((∀ d, i ≠ .enc d) → i ≠ .encend → r.block.pkbuf = b.pkbuf ∧ r.block.pkcnt = b.pkcnt) := by
  have hframe := h.frame
  cases i <;> simp only [Frame] at hframe
  case clr => exact absurd rfl hc
  case freq d => rw [hframe.1]; simp
  case dec =>
    obtain ⟨hhdr, hdict, hbits, hdone⟩ := hframe
    obtain ⟨hp, -⟩ | ⟨hp, -⟩ | ⟨hp, -⟩ | ⟨hp, -⟩ := h
    · rw [hhdr hp]; simp
    · rw [hdict hp]; simp
    · rw [hbits hp]; simp
    · rw [hdone hp]; simp
  all_goals
    rw [hframe]
    simp

/-! ## The counts and `TOTAL` -/

theorem countInv_reset : CountInv Block.reset where
  total_eq := show 0 = (List.replicate 256 0).sum by rw [List.sum_replicate_nat]
  total_fits := Nat.zero_le _

theorem countInv_kept : KeptByRules CountInv where
  reset := countInv_reset
  fault := fun _ _ h _ => ⟨h.total_eq, h.total_fits⟩
  rule := by
    intro i b r h _ hc _ hr
    have hdone := completes_of_ok hr
    by_cases hfreq : ∃ d, i = .freq d
    · obtain ⟨d, rfl⟩ := hfreq
      obtain ⟨hmax, rfl⟩ := hdone
      exact h.freq hmax d
    · obtain ⟨hcounts, htotal⟩ := (hdone.unwritten hc).2.1 (not_exists.mp hfreq)
      exact ⟨by rw [htotal, hcounts]; exact h.total_eq, htotal ▸ h.total_fits⟩

/-- Settles O52: `FREQ` adds one to one count and to `TOTAL`, and the other commands write neither. -/
theorem totalStaysTheSumOfCounts : Obligations.TotalStaysTheSumOfCounts := by
  unfold Obligations.TotalStaysTheSumOfCounts
  exact fun s t => countInv_kept.step

/-! ## The packer -/

theorem packerInv_reset : PackerInv Block.reset := rfl

theorem packerInv_kept : KeptByRules PackerInv where
  reset := packerInv_reset
  fault := fun _ _ h _ => h
  rule := by
    intro i b r h _ hc _ hr
    have hdone := completes_of_ok hr
    by_cases henc : ∃ d, i = .enc d
    · obtain ⟨d, rfl⟩ := henc
      obtain ⟨-, -, rfl⟩ := hdone
      exact (packBits_spec (p := { buf := b.pkbuf, cnt := b.pkcnt, out := [] }) h).1
    by_cases hend : i = .encend
    · subst hend
      obtain ⟨-, ⟨-, rfl⟩ | ⟨-, rfl⟩⟩ := hdone
      · exact packerInv_reset
      · exact h
    · obtain ⟨hbuf, hcnt⟩ := (hdone.unwritten hc).2.2 (not_exists.mp henc) hend
      rw [PackerInv, hbuf, hcnt]
      exact h

/-- Settles O38: `ENC` appends its bits at the filled ones, `ENCEND` empties the packer, no other command writes it. -/
theorem packerInvariantKept : Obligations.PackerInvariantKept := by
  unfold Obligations.PackerInvariantKept
  exact fun s t => packerInv_kept.step

/-! ## The error registers -/

theorem errInv_reset : ErrInv Block.reset where
  err_iff := iff_of_false (absurd rfl) nofun
  err_kind := nofun
  err_clear := fun _ => ⟨rfl, rfl⟩
  err_phase := nofun

theorem FaultKind.code_ne_zero (k : FaultKind) : k.code ≠ 0 := by cases k <;> decide

theorem errInv_kept : KeptByRules ErrInv where
  reset := errInv_reset
  fault := fun _ k _ hf => ⟨iff_of_true k.code_ne_zero rfl, fun _ => k.code_bounds, fun h => absurd rfl h, hf⟩
  rule := by
    intro i b r h hn hc hm hr
    have hdone := completes_of_ok hr
    have hf := phase_ne_fault_of_mayExecute hn hc hm
    have hf' := hdone.phase_ne_fault hf
    obtain ⟨herr, hcmd, hphase⟩ := (hdone.unwritten hc).1
    refine ⟨?_, fun hp => absurd hp hf', fun _ => ?_, ?_⟩
    · rw [herr, h.err_iff]; exact iff_of_false hf hf'
    · rw [hcmd, hphase]; exact h.err_clear hf
    · rw [hphase]; exact h.err_phase

/-- Settles O53: fault entry sets the registers with a kind's code, and no rule but `CLR`'s writes them. -/
theorem errorRegistersInvariant : Obligations.ErrorRegistersInvariant := by
  unfold Obligations.ErrorRegistersInvariant
  exact fun s t => errInv_kept.step

/-! ## All invariants -/

theorem inv_reset : Inv Block.reset where
  count := countInv_reset
  tree := by constructor <;> simp [Block.reset, childIndices, leafCount]
  table := by
    have hdord : Block.reset.dord = [] := rfl
    constructor <;> simp [hdord, PrefixFree, kraftSum]
  encoder := ⟨packerInv_reset, Nat.le_refl 0, fun _ _ => rfl, fun _ => rfl, fun _ => rfl⟩
  decoder := {
    origlen_fits := Nat.zero_le _
    dictsz_fits := Nat.zero_le _
    header_zero := fun _ => ⟨rfl, rfl⟩
    dict_open := nofun
    dict_closed := fun _ => rfl
    maxlen_le := Nat.zero_le _
    maxlen_bound := fun _ c => by rw [Block.code_reset]; exact Nat.le_refl 0
    maxlen_met := .inl rfl
    maxlen_encode := fun _ => rfl
    acclen_le := Nat.le_refl 0
    accbits_lt := Nat.one_pos
    acc_unmatched := nofun
    acc_no_prefix := nofun
    acc_zero := fun _ _ => rfl
    outn_le := Nat.le_refl 0
    outn_lt := nofun
    outn_done := nofun
    outn_zero := fun _ => rfl }
  run := ⟨fun _ => ⟨rfl, rfl⟩, fun _ => ⟨rfl, rfl⟩, fun _ => rfl⟩
  err := errInv_reset

/-- Settles O50, part by part. -/
theorem invariantAtReset : Obligations.InvariantAtReset := by
  unfold Obligations.InvariantAtReset
  exact inv_reset

theorem inv_kept : KeptByRules Inv where
  reset := inv_reset
  fault := fun w k h hf => inv_fault h hf w k.code k.code_bounds.1 k.code_bounds.2
  rule := by
    intro i b r h hn hc hm hr
    have hdone := completes_of_ok hr
    cases i
    case nop => exact absurd rfl hn
    case clr => exact absurd rfl hc
    case freq d => obtain ⟨hmax, rfl⟩ := hdone; exact inv_freq h hm hmax d
    case seed => obtain ⟨b', hseed, -, rfl⟩ := hdone; exact inv_seed h hm hseed
    case merge => obtain ⟨b', hmerge, -, rfl⟩ := hdone; exact inv_merge h hm hmerge
    case build => obtain ⟨b1, b2, hseed, -, hmerge, -, -, rfl⟩ := hdone; exact inv_build h hm hseed hmerge
    case gen => exact inv_gen h hm hr
    case head => subst hdone; exact inv_head h hm
    case enc => exact inv_enc h hm hr
    case encend => exact inv_encend h hm hr
    case decst => subst hdone; exact inv_decst h hm
    case dec =>
      obtain ⟨hp, b', hb, rfl⟩ | ⟨hp, b', hb, rfl⟩ | ⟨hp, b', out, hb, rfl⟩ | ⟨-, rfl⟩ := hdone
      · exact inv_header h hp hb
      · exact inv_dict h hp hb
      · exact inv_bits h hp hb
      · exact h
    case decend => obtain ⟨-, rfl⟩ := hdone; exact h

/-- Settles O51: fault entry keeps the invariants, and so does every command's rule. -/
theorem invariantKeptByEveryStep : Obligations.InvariantKeptByEveryStep := by
  unfold Obligations.InvariantKeptByEveryStep
  exact fun s t => inv_kept.step

end Sys2Proof.Machine
end

section
/-! PROOFS. What the invariants give: no step stops the machine, which faults are never raised, the weights of the tree, the
generated codes, and the bytes a decode run puts out (10_state.md, 60_exceptions.md R166). -/

namespace Sys2Proof.Machine

/-! ## Aborts under the invariants -/

/-- Before the tree stage seeding completes, and so does the loop of merges behind it (42_tree.md R93, R100). -/
theorem Inv.seed_mergeWhile_ok {b : Block} (h : Inv b) (hp : b.phase = .idle ∨ b.phase = .count) :
    ∃ b1 b2, seed b = .ok b1 ∧ mergeWhile b1.pq.length b1 = .ok b2 := by
  obtain ⟨hn, hq, hs⟩ := h.tree.empty_of_idle_or_count hp
  obtain ⟨b1, hseed, -, hforest, -⟩ := seed_forest hn hq hs
  obtain ⟨b2, hmerge, -⟩ := hforest.mergeWhile (k := b1.pq.length) (Nat.le_succ _)
  exact ⟨b1, b2, hseed, hmerge⟩

/-- A merge fails on a short queue alone (42_tree.md R92). -/
theorem Inv.mergeStep_error {b : Block} {a : Abort} (h : Inv b) (ha : mergeStep b = .error a) :
    a = .raise .emptyQueue := by
  rcases Nat.lt_or_ge b.pq.length 2 with hlen | hlen
  · rw [mergeStep_of_length_lt_two hlen] at ha
    exact (Except.error.inj ha).symm
  · have hnode : b.node ≠ [] := fun hn => by
      have hcount := h.tree.balance
      simp only [hn, leafCount, List.countP_nil] at hcount
      omega
    obtain ⟨b', hok, -⟩ := (h.tree.forest hnode).mergeStep hlen
    rw [hok] at ha
    cases ha

/-- From the invariants no rule stops the machine, and `AllocationFailure`, `TableOverflow` and a `DegenerateCodeError` of
`GEN` are not raised (60_exceptions.md R166). -/
theorem Inv.aborts {i : Instr} {b : Block} {a : Abort} (h : Inv b) (hm : mayExecute i b.phase)
    (ha : ruleOf i b = .error a) :
    ∃ k, a = .raise k ∧ k ≠ .allocationFailure ∧ k ≠ .tableOverflow ∧ (i = .gen → k ≠ .degenerateCodeError) := by
  have haborts := aborts_of_error hm ha
  cases i
  case nop | clr | head | decst => exact haborts.elim
  case freq => exact ⟨_, haborts.1, nofun, nofun, nofun⟩
  case seed =>
    obtain ⟨b1, -, hseed, -⟩ := h.seed_mergeWhile_ok hm
    simp [ruleOf, seedRule, hseed] at ha
  case build =>
    obtain ⟨b1, b2, hseed, hmerge⟩ := h.seed_mergeWhile_ok hm
    simp [ruleOf, buildRule, hseed, hmerge] at ha
  case merge => exact ⟨_, h.mergeStep_error haborts, by decide⟩
  case gen =>
    rcases genRule_cases h hm with ⟨-, hg⟩ | ⟨-, hg⟩ | ⟨e, t, -, -, -, hg⟩ | ⟨e, t, -, -, -, hg⟩ <;>
      rw [ruleOf, hg] at ha <;> cases ha
    · exact ⟨_, rfl, by decide⟩
    · exact ⟨_, rfl, by decide⟩
  case enc => obtain ⟨rfl, -⟩ | ⟨rfl, -⟩ := haborts <;> exact ⟨_, rfl, nofun, nofun, nofun⟩
  case encend => exact ⟨_, haborts.1, by decide⟩
  case dec => obtain rfl | rfl | rfl := dec_aborts haborts <;> exact ⟨_, rfl, nofun, nofun, nofun⟩
  case decend => obtain ⟨-, rfl⟩ | ⟨-, rfl⟩ := haborts <;> exact ⟨_, rfl, by decide⟩

theorem Inv.exec_running {i : Instr} {s : State} (h : Inv s.block) : Running (exec i s) := by
  by_cases hn : i = .nop
  · exact ⟨_, hn ▸ exec_nop s⟩
  by_cases hc : i = .clr
  · exact ⟨_, hc ▸ exec_clr s⟩
  by_cases hf : s.block.phase = .fault
  · exact ⟨_, exec_faulted hn hc hf⟩
  by_cases hm : mayExecute i s.block.phase
  · cases hr : ruleOf i s.block with
    | ok r => exact ⟨_, exec_ok hn hc hf hm hr⟩
    | error a =>
      obtain ⟨k, rfl, -⟩ := h.aborts hm hr
      exact ⟨_, exec_raise hn hc hf hm hr⟩
  · exact ⟨_, exec_wrongPhase hn hc hf hm⟩

/-- Settles O54: a word is answered or runs a command, and no command's rule stops the machine. -/
theorem everyStepIsAnswered : Obligations.EveryStepIsAnswered := by
  unfold Obligations.EveryStepIsAnswered
  intro s h
  match hp : s.port with
  | [] => exact ⟨_, step_idle hp⟩
  | .reset :: rest => exact ⟨_, step_reset hp⟩
  | .command w :: rest =>
    rw [step_command hp]
    cases hd : decode w with
    | ok i => exact runWord_eq_exec hd _ ▸ Inv.exec_running (s := s.taken (.command w) rest) h
    | error e =>
      rw [runWord, hd]
      split <;> exact ⟨_, rfl⟩

/-- Settles O55: the fault comes from the phase or from an abort of the rule, and the code in `ERR` tells the kind. -/
theorem unreachableFaultsAreDead : Obligations.UnreachableFaultsAreDead := by
  unfold Obligations.UnreachableFaultsAreDead
  intro i s t h hx hf ht
  obtain ⟨k, hk, rfl⟩ := exec_enters_fault hx hf ht
  have hkind : k ≠ .allocationFailure ∧ k ≠ .tableOverflow ∧ (i = .gen → k ≠ .degenerateCodeError) := by
    rcases hk with ⟨-, rfl⟩ | ⟨hm, ha⟩
    · exact ⟨nofun, nofun, nofun⟩
    · obtain ⟨l, hl, hdead⟩ := h.aborts hm ha
      exact Abort.raise.inj hl ▸ hdead
  exact ⟨fun he => hkind.1 ((FaultKind.code_inj k .allocationFailure).mp he),
    fun he => hkind.2.1 ((FaultKind.code_inj k .tableOverflow).mp he),
    fun hg he => hkind.2.2 hg ((FaultKind.code_inj k .degenerateCodeError).mp he)⟩

/-! ## The tree's weights -/

/-- Settles O31: the state after the step meets the invariants, which bound the weights by `TOTAL`. -/
theorem rootWeightIsTotal : Obligations.RootWeightIsTotal := by
  unfold Obligations.RootWeightIsTotal
  intro s t h hstep hp
  have ht := inv_kept.step h hstep
  refine ⟨fun x hx => ?_, fun e hq => ?_⟩
  · obtain ⟨i, hi⟩ := List.mem_iff_getElem?.mp hx
    exact (ht.tree.weight_le i x hi).trans ht.count.total_fits
  · have hlt := ((ht.tree.queued e.node).mp (by simp [hq])).1
    obtain ⟨w, hw⟩ := entryWeight?_isSome hlt
    have hsum := ht.tree.queue_weight hp
    rw [hq, List.filterMap_cons, hw] at hsum
    rw [hw, ← hsum]
    simp

/-! ## The generated codes -/

/-- The symbols listed are as many as the characters counted (10_state.md R22 (b)). -/
theorem TableInv.dord_length {b : Block} (h : TableInv b) (hp : b.phase ∈ [Phase.coded, .enc, .encDone]) :
    b.dord.length = (presentBytes b).length := by
  refine ((List.perm_ext_iff_of_nodup h.listed_once (allBytes_nodup.filter _)).mpr fun c => ?_).length_eq
  rw [h.coded_present hp, List.mem_filter]
  simp

/-- Settles O33: the state after `GEN` meets the invariants, which say all this of the code table in `CODED`. -/
theorem generatedCodesArePrefixFree : Obligations.GeneratedCodesArePrefixFree := by
  unfold Obligations.GeneratedCodesArePrefixFree
  intro s t h hx hp
  have ht := (inv_kept.exec h hx).table
  have hcoded : t.block.phase ∈ [Phase.coded, .enc, .encDone] := by simp [hp]
  refine ⟨ht.coded_prefix_free hcoded, ht.coded_present hcoded, fun c hc => ?_, ht.dord_length hcoded,
    ht.coded_kraft hcoded⟩
  obtain ⟨h1, h64⟩ := ht.len_of_mem_dord hc
  exact ⟨h1, h64, ht.coded_bits hcoded c⟩

/-! ## The bytes of a decode run -/

theorem mayExecute_in_decode_run {i : Instr} {p : Phase} (hp : p ∈ [Phase.decHdr, .decDict, .decBits, .decDone])
    (hm : mayExecute i p) : i = .nop ∨ i = .clr ∨ (∃ d, i = .dec d) ∨ i = .decend := by
  simp only [List.mem_cons, List.not_mem_nil, or_false] at hp
  rcases hp with rfl | rfl | rfl | rfl <;> cases i <;> simp [mayExecute] at hm ⊢

/-- `DEC` puts out as many bytes as `OUTN` grows (45_decode.md R145). -/
theorem dec_outn {d : Byte} {b : Block} {r : Done} (h : Completes (.dec d) b r) :
    r.out.length + b.outn = r.block.outn := by
  obtain ⟨-, b', hb, rfl⟩ | ⟨-, b', hb, rfl⟩ | ⟨-, b', out, hb, rfl⟩ | ⟨-, rfl⟩ := h
  · rw [Block.done_block, headerByte_frame hb]; exact Nat.zero_add _
  · rw [Block.done_block, dictByte_frame hb]; exact Nat.zero_add _
  · obtain ⟨new, hout, hcount, -⟩ := bitsLoop_counts hb
    rw [List.nil_append] at hout
    rw [hcount, hout, Nat.add_comm]
  · exact Nat.zero_add _

/-- In a decode run every command but `CLR` puts out as many bytes as `OUTN` grows. -/
theorem exec_outn {i : Instr} {s t : State} (h : exec i s = .next t)
    (hs : s.block.phase ∈ [Phase.decHdr, .decDict, .decBits, .decDone]) (ht : t.block.phase ≠ .fault) (hc : i ≠ .clr) :
    (wireBytes t.wire).length + s.block.outn = (wireBytes s.wire).length + t.block.outn := by
  have hf : s.block.phase ≠ .fault := by rintro hf; simp [hf] at hs
  obtain ⟨hm, r, -, hr, rfl⟩ := exec_no_fault h hf ht
  suffices hout : r.out.length + s.block.outn = r.block.outn by
    simp only [State.answered_wire, State.answered_block, wireBytes_append, wireBytes_bytes, wireBytes_response,
      wireBytes_nil, List.append_nil, List.length_append]
    omega
  by_cases hn : i = .nop
  · subst hn; obtain rfl := hr; exact Nat.zero_add _
  · obtain hi | hi | ⟨d, rfl⟩ | rfl := mayExecute_in_decode_run hs (hm hn hc)
    · exact absurd hi hn
    · exact absurd hi hc
    · exact dec_outn hr
    · obtain ⟨-, rfl⟩ := hr; exact Nat.zero_add _

/-- Settles O49: a step that stays in the run is idle or runs a command that completes, and the bounds are the
invariants'. -/
theorem noMoreThanOriglenBytes : Obligations.NoMoreThanOriglenBytes := by
  unfold Obligations.NoMoreThanOriglenBytes
  intro s t h hstep hs ht
  have hdec := (inv_kept.step h hstep).decoder
  refine ⟨?_, hdec.outn_le, hdec.outn_done⟩
  rcases step_cases hstep with ⟨-, rfl⟩ | ⟨rest, -, rfl⟩ | ⟨w, rest, -, ⟨hf, -⟩ | ⟨-, -, rfl⟩ | ⟨i, -, hx⟩⟩
  · rfl
  · simp [Block.reset] at ht
  · simp [hf] at hs
  · simp at ht
  · have hf : t.block.phase ≠ .fault := by rintro hf; simp [hf] at ht
    have hc : i ≠ .clr := by
      rintro rfl
      rw [exec_clr] at hx
      cases hx
      simp [Block.reset] at ht
    simpa using exec_outn (s := s.taken (.command w) rest) hx hs hf hc

end Sys2Proof.Machine
end

section
/-! PROOFS. The bit stage of the decoder: what `DEC` puts out, when it cannot fault, and when it must (45_decode.md R135 to
R138). -/

namespace Sys2Proof.Machine

/-! ## `DEC` in terms of the bit loop -/

theorem decRule_of_bits_ok {d : Byte} {b b' : Block} {out : List Byte} (hp : b.phase = .decBits)
    (h : bitsLoop (byteBits d) b [] = .ok (b', out)) : decRule d b = .ok { block := b', out := out, rsp := .ok } := by
  simp only [decRule, hp, h]

theorem decRule_of_bits_error {d : Byte} {b : Block} {a : Abort} (hp : b.phase = .decBits)
    (h : bitsLoop (byteBits d) b [] = .error a) : decRule d b = .error a := by
  simp only [decRule, hp, h]

theorem exec_dec_of_bits_ok {d : Byte} {s : State} {b' : Block} {out : List Byte} (hp : s.block.phase = .decBits)
    (h : bitsLoop (byteBits d) s.block [] = .ok (b', out)) : exec (.dec d) s = .next (s.answered b' out 0x00) :=
  exec_ok (i := .dec d) nofun nofun (hp.trans_ne nofun) (.inr (.inr (.inl hp))) (decRule_of_bits_ok hp h)

/-- A byte whose bits all find room or a match is decoded (45_decode.md R135, R137). -/
theorem exec_dec_completes {d : Byte} {s : State} (hp : s.block.phase = .decBits)
    (h : ∃ r, bitsLoop (byteBits d) s.block [] = .ok r) :
    ∃ t, exec (.dec d) s = .next t ∧ (t.block.phase = .decBits ∨ t.block.phase = .decDone) := by
  obtain ⟨⟨b', out⟩, hb⟩ := h
  refine ⟨_, exec_dec_of_bits_ok hp hb, ?_⟩
  obtain ⟨new, -, -, -, hphase⟩ := bitsLoop_counts hb
  exact hphase.imp (·.trans hp) And.left

/-! ## What is put out -/

/-- Settles O43: without a fault the byte went through the bit loop, whose law says all of it. -/
theorem decEmitsTheMatchedCodes : Obligations.DecEmitsTheMatchedCodes := by
  unfold Obligations.DecEmitsTheMatchedCodes
  intro d s t h hp hx ht
  obtain ⟨-, r, -, hr, rfl⟩ := exec_no_fault hx (hp.trans_ne nofun) ht
  obtain ⟨hp', -⟩ | ⟨hp', -⟩ | ⟨-, b', out, hb, rfl⟩ | ⟨hp', -⟩ := hr
  · cases hp'.symm.trans hp
  · cases hp'.symm.trans hp
  · obtain ⟨new, k, hout, hk, hnew, houtn, hbits, hmem, hend⟩ := bitsLoop_spec (.of_inv h hp) hp hb
    rw [List.nil_append] at hout
    subst hout
    rw [byteBits_length] at hk
    refine ⟨out, k, hk, hnew.trans hk, ?_, hbits, hmem, fun hphase => ?_, fun hphase => ?_⟩
    · rw [← houtn]
      exact congrArg (fun x => s.answered x out 0x00) (bitsLoop_frame hb)
    · obtain ⟨-, hk8, hstage⟩ | ⟨hdone, -⟩ := hend
      · exact ⟨hk8.trans (byteBits_length d), hstage.outn_lt⟩
      · cases hdone.symm.trans hphase
    · obtain ⟨hgo, -⟩ | ⟨-, horig, hacc, hlen, hrest⟩ := hend
      · cases hgo.symm.trans hphase
      · refine ⟨horig, hacc, hlen, fun d' hd' => exec_dec_of_bits_ok hp (hrest _ hd' ?_)⟩
        simp
  · cases hp'.symm.trans hp

/-! ## Room for every bit -/

theorem bitsLoop_ok_of_room {bits : List Bool} {b : Block} (h : b.acclen + bits.length ≤ b.maxlen) (out : List Byte) :
    ∃ r, bitsLoop bits b out = .ok r := by
  induction bits generalizing b out with
  | nil => exact ⟨_, rfl⟩
  | cons bit rest ih =>
    rw [List.length_cons] at h
    rcases bitsLoop_cons_cases bit b with ⟨ch, -, -, he⟩ | ⟨ch, -, -, he⟩ | ⟨-, hlong, -⟩ | ⟨-, -, he⟩
    · exact ⟨_, he rest out⟩
    · rw [he]
      refine ih (b := b.emitChar) ?_ _
      simp only [Block.emitChar]
      omega
    · omega
    · rw [he]
      refine ih (b := b.takeBit bit) ?_ _
      simp only [Block.takeBit]
      omega

/-- Settles O44: each of the byte's eight bits finds room below `MAXLEN`. -/
theorem decBitsCompletes : Obligations.DecBitsCompletes := by
  unfold Obligations.DecBitsCompletes
  intro d s hp hroom
  exact exec_dec_completes hp (bitsLoop_ok_of_room (by rw [byteBits_length]; exact hroom) [])

/-! ## No room for the next bit -/

theorem byteBits_eq_cons (d : Byte) : ∃ rest, byteBits d = d.getLsbD 7 :: rest := ⟨_, rfl⟩

theorem lookup_eq_none_of_unmatched {b : Block} {bit : Bool}
    (h : ∀ c, ¬ ((b.code c).len = b.acclen + 1 ∧ (b.code c).bits.toNat = 2 * b.accbits.toNat + bit.toNat)) :
    lookup b (accumulate b.accbits bit) (b.acclen + 1) = none := by
  refine Option.eq_none_iff_forall_ne_some.mpr fun ch hch => ?_
  obtain ⟨-, hlen, hbits⟩ := lookup_some hch
  refine h ch ⟨hlen, ?_⟩
  have hval := congrArg BitVec.toNat hbits
  rwa [accumulate_toNat, BitVec.toNat_setWidth, Nat.mod_eq_of_lt ((b.code ch).bits.isLt.trans (by decide))] at hval

/-- Settles O45: the byte's first bit finds neither a match nor room. -/
theorem corruptStreamOnTooManyBits : Obligations.CorruptStreamOnTooManyBits := by
  unfold Obligations.CorruptStreamOnTooManyBits
  intro d s hp hfull hno
  obtain ⟨rest, hbits⟩ := byteBits_eq_cons d
  have hnone := lookup_eq_none_of_unmatched hno
  refine exec_raise (i := .dec d) (k := .corruptStream) nofun nofun (hp.trans_ne nofun) (.inr (.inr (.inl hp)))
    (decRule_of_bits_error hp ?_)
  rw [hbits]
  rcases bitsLoop_cons_cases (d.getLsbD 7) s.block with ⟨ch, hl, -⟩ | ⟨ch, hl, -⟩ | ⟨-, -, he⟩ | ⟨-, hm, -⟩
  · cases hl.symm.trans hnone
  · cases hl.symm.trans hnone
  · exact he rest []
  · omega

end Sys2Proof.Machine
end

section
/-! PROOFS. Complete code tables: where no code is an initial segment of another and the Kraft sum is 1, some code begins
every string of `MAXLEN` bits, so that the bit stage cannot fault (45_decode.md R138). -/

namespace Sys2Proof.Machine

open InformationTheory

/-! ## Kraft's inequality in natural numbers -/

/-- A code without empty words in which no word begins another one is uniquely decodable. -/
theorem uniquelyDecodable_of_not_isPrefix {S : Set (List Bool)} (hnil : [] ∉ S)
    (hpre : ∀ u ∈ S, ∀ v ∈ S, u <+: v → u = v) : UniquelyDecodable S := by
  intro L₁
  induction L₁ with
  | nil =>
    intro L₂ _ h2 hflat
    cases L₂ with
    | nil => rfl
    | cons v L₂ =>
      have hv : v = [] := (List.append_eq_nil_iff.mp hflat.symm).1
      exact absurd (hv ▸ h2 v (by simp)) hnil
  | cons u L₁ ih =>
    intro L₂ h1 h2 hflat
    have hu : u ∈ S := h1 u (by simp)
    cases L₂ with
    | nil => exact absurd ((List.append_eq_nil_iff.mp hflat).1 ▸ hu) hnil
    | cons v L₂ =>
      have hv : v ∈ S := h2 v (by simp)
      rw [List.flatten_cons, List.flatten_cons] at hflat
      obtain rfl : u = v := by
        rcases List.prefix_or_prefix_of_prefix (List.prefix_append u _) (hflat ▸ List.prefix_append v _) with h | h
        · exact hpre u hu v hv h
        · exact (hpre v hv u hu h).symm
      rw [ih L₂ (fun w hw => h1 w (by simp [hw])) (fun w hw => h2 w (by simp [hw])) (List.append_cancel_left hflat)]

theorem kraft_le_two_pow {S : Finset (List Bool)} (hS : UniquelyDecodable (S : Set (List Bool))) {n : Nat}
    (hlen : ∀ w ∈ S, w.length ≤ n) : ∑ w ∈ S, 2 ^ (n - w.length) ≤ 2 ^ n := by
  have hreal : ∑ w ∈ S, (2 : ℝ) ^ (n - w.length) ≤ 2 ^ n := by
    calc
      ∑ w ∈ S, (2 : ℝ) ^ (n - w.length) = 2 ^ n * ∑ w ∈ S, (1 / Fintype.card Bool : ℝ) ^ w.length := by
        rw [Finset.mul_sum]
        refine Finset.sum_congr rfl fun w hw => ?_
        rw [pow_sub₀ (2 : ℝ) two_ne_zero (hlen w hw)]
        simp
      _ ≤ 2 ^ n * 1 := by gcongr; exact kraft_mcmillan_inequality hS
      _ = 2 ^ n := mul_one _
  exact_mod_cast hreal

/-! ## Complete tables -/

/-- Every string of `MAXLEN` bits begins with a code that can match. -/
def Complete (b : Block) : Prop :=
  ∀ p : List Bool, p.length = b.maxlen →
    ∃ c ∈ b.dord, (b.code c).bits.toNat < 2 ^ (b.code c).len ∧ codeBits (b.code c) <+: p

/-- The words of the codes listed. -/
def codeWords (b : Block) : List (List Bool) := b.dord.map (fun c => codeBits (b.code c))

theorem codeWords_nodup {b : Block} (hnd : b.dord.Nodup) (hfree : PrefixFree b) : (codeWords b).Nodup := by
  refine hnd.map_on fun c hc c' hc' he => by_contra fun hne => hfree c hc c' hc' hne ?_
  rw [he]

theorem codeWords_eq_of_isPrefix {b : Block} (hfree : PrefixFree b) {u v : List Bool} (hu : u ∈ codeWords b)
    (hv : v ∈ codeWords b) (h : u <+: v) : u = v := by
  obtain ⟨c, hc, rfl⟩ := List.mem_map.mp hu
  obtain ⟨c', hc', rfl⟩ := List.mem_map.mp hv
  by_contra hne
  exact hfree c hc c' hc' (fun he => hne (by rw [he])) h

/-- The Kraft sum over the words (10_state.md R22 (b)). -/
theorem kraftSum_eq_sum_codeWords {b : Block} (hnd : b.dord.Nodup) (hfree : PrefixFree b) :
    kraftSum b = ∑ w ∈ (codeWords b).toFinset, 2 ^ (64 - w.length) := by
  rw [List.sum_toFinset _ (codeWords_nodup hnd hfree), codeWords, List.map_map, kraftSum]
  simp only [Function.comp_def, codeBits_length]

/-- Where the Kraft sum is 1 there is no room for one more word (10_state.md R22 (b)). -/
theorem complete_of_kraftSum {b : Block} (htable : TableInv b) (hmax : ∀ c, (b.code c).len ≤ b.maxlen)
    (h64 : b.maxlen ≤ 64) (hfree : PrefixFree b) (hkraft : kraftSum b = 2 ^ 64)
    (hbits : ∀ c, (b.code c).bits.toNat < 2 ^ (b.code c).len) : Complete b := by
  intro p hp
  by_contra hno
  have hlen : ∀ w ∈ codeWords b, w ≠ [] ∧ w.length ≤ p.length := by
    intro w hw
    obtain ⟨c, hc, rfl⟩ := List.mem_map.mp hw
    rw [hp, codeBits_length, ← List.length_pos_iff, codeBits_length]
    exact ⟨(htable.len_of_mem_dord hc).1, hmax c⟩
  have hcover : ∀ w ∈ codeWords b, ¬ w <+: p := by
    intro w hw hpre
    obtain ⟨c, hc, rfl⟩ := List.mem_map.mp hw
    exact hno ⟨c, hc, hbits c, hpre⟩
  have hnew : p ∉ (codeWords b).toFinset := fun h => hcover p (List.mem_toFinset.mp h) (List.prefix_refl p)
  have hpos : p ≠ [] := by
    rintro rfl
    have hempty : codeWords b = [] :=
      List.eq_nil_iff_forall_not_mem.mpr fun w hw => (hlen w hw).1 (List.length_eq_zero_iff.mp (Nat.le_zero.mp (hlen w hw).2))
    rw [kraftSum_eq_sum_codeWords htable.listed_once hfree, hempty] at hkraft
    simp at hkraft
  have hdecodable : UniquelyDecodable ((insert p (codeWords b).toFinset : Finset (List Bool)) : Set (List Bool)) := by
    refine uniquelyDecodable_of_not_isPrefix ?_ ?_
    · simp only [Finset.mem_coe, Finset.mem_insert, List.mem_toFinset, not_or]
      exact ⟨hpos.symm, fun h => (hlen [] h).1 rfl⟩
    · simp only [Finset.mem_coe, Finset.mem_insert, List.mem_toFinset]
      rintro u (rfl | hu) v (rfl | hv) hpre
      · rfl
      · exact hpre.eq_of_length_le (hlen v hv).2
      · exact absurd hpre (hcover u hu)
      · exact codeWords_eq_of_isPrefix hfree hu hv hpre
  have hle := kraft_le_two_pow hdecodable (n := 64) (by
    intro w hw
    simp only [Finset.mem_insert, List.mem_toFinset] at hw
    rcases hw with rfl | hw
    · omega
    · exact (hlen w hw).2.trans (by omega))
  rw [Finset.sum_insert hnew, ← kraftSum_eq_sum_codeWords htable.listed_once hfree, hkraft] at hle
  have := Nat.two_pow_pos (64 - p.length)
  omega

/-- With a complete table every bit finds a match or room (45_decode.md R138). -/
theorem bitsLoop_ok_of_complete {bits : List Bool} {b : Block} (hw : BitStage b) (hc : Complete b) (out : List Byte) :
    ∃ r, bitsLoop bits b out = .ok r := by
  induction bits generalizing b out with
  | nil => exact ⟨_, rfl⟩
  | cons bit rest ih =>
    rcases bitsLoop_cons_cases bit b with ⟨ch, -, -, he⟩ | ⟨ch, -, hmore, he⟩ | ⟨-, hlong, -⟩ | ⟨hl, hroom, he⟩
    · exact ⟨_, he rest out⟩
    · exact he rest out ▸ ih (hw.emit hmore) hc _
    · have hfull : (pendingBits b).length = b.maxlen := by
        rw [pendingBits, codeBits_length]
        exact Nat.le_antisymm hw.acclen_le (Nat.le_of_lt_succ hlong)
      obtain ⟨c, hmem, hbits, hpre⟩ := hc (pendingBits b) hfull
      exact absurd hpre (hw.no_prefix c hmem hbits)
    · exact he rest out ▸ ih (hw.next hl hroom) hc _

/-- Settles O46: a Kraft sum of 1 makes the table complete. -/
theorem completeTablesNeverCorrupt : Obligations.CompleteTablesNeverCorrupt := by
  unfold Obligations.CompleteTablesNeverCorrupt
  intro d s h hp hfree hkraft hbits
  have hw := BitStage.of_inv h hp
  exact exec_dec_completes hp
    (bitsLoop_ok_of_complete hw (complete_of_kraftSum h.table hw.maxlen_bound hw.maxlen_le hfree hkraft hbits) [])

end Sys2Proof.Machine
end

section
/-! PROOFS. Passes: lists of commands that the block takes one after the other, with what they put out and how they are
answered. The counting pass, the merges of `BUILD`, and the encoding pass (41_count.md R87, 42_tree.md R99,
44_encode.md R124). -/

namespace Sys2Proof.Machine

/-! ## Passes -/

/-- From every state with the block `b` the command `i` leaves the block `b'`, puts out `out` and is answered with `c`. -/
def Answers (i : Instr) (b b' : Block) (out : List Byte) (c : Byte) : Prop :=
  ∀ s : State, s.block = b → exec i s = .next (s.answered b' out c)

/-- The commands `is` take the block from `b` to `b'`; they put out `outs` and are answered with the codes `cs`. -/
inductive Pass : List Instr → Block → Block → List Byte → List Byte → Prop
  | nil (b : Block) : Pass [] b b [] []
  | cons {i : Instr} {is : List Instr} {b b1 b' : Block} {out outs : List Byte} {c : Byte} {cs : List Byte}
    (h : Answers i b b1 out c) (hp : Pass is b1 b' outs cs) : Pass (i :: is) b b' (out ++ outs) (c :: cs)

theorem Answers.pass {i : Instr} {b b' : Block} {out : List Byte} {c : Byte} (h : Answers i b b' out c) :
    Pass [i] b b' out [c] := by
  simpa using Pass.cons h (.nil b')

theorem Pass.append {is js : List Instr} {b b1 b2 : Block} {out out' cs cs' : List Byte} (h : Pass is b b1 out cs)
    (h' : Pass js b1 b2 out' cs') : Pass (is ++ js) b b2 (out ++ out') (cs ++ cs') := by
  induction h with
  | nil b => exact h'
  | cons ha _ ih => rw [List.append_assoc]; exact .cons ha (ih h')

/-- The events of one command at the ports (20_memory.md R40, 30_encoding.md R68). -/
def commandEvents (i : Instr) (out : List Byte) (c : Byte) : List PortEvent :=
  .took (.command (encode i)) :: out.map .byte ++ [.response c]

/-- The host events that present the commands. -/
def presented (is : List Instr) : List HostEvent := is.map (fun i => HostEvent.command (encode i))

/-- What a pass leaves at the ports. -/
inductive Transcript : List Instr → List Byte → List Byte → List PortEvent → Prop
  | nil : Transcript [] [] [] []
  | cons (i : Instr) {is : List Instr} (out : List Byte) {outs : List Byte} (c : Byte) {cs : List Byte} {w : List PortEvent}
    (h : Transcript is outs cs w) : Transcript (i :: is) (out ++ outs) (c :: cs) (commandEvents i out c ++ w)

theorem Transcript.wireBytes_eq {is : List Instr} {outs cs : List Byte} {w : List PortEvent}
    (h : Transcript is outs cs w) : wireBytes w = outs := by
  induction h with
  | nil => rfl
  | cons i out c _ ih => simp [commandEvents, ih]

theorem Transcript.wireResponses_eq {is : List Instr} {outs cs : List Byte} {w : List PortEvent}
    (h : Transcript is outs cs w) : wireResponses w = cs := by
  induction h with
  | nil => rfl
  | cons i out c _ ih => simp [commandEvents, ih]

/-- The machine takes the presented commands of a pass one per step (40_control.md R84). -/
theorem Pass.run {is : List Instr} {b b' : Block} {outs cs : List Byte} (h : Pass is b b' outs cs) {s : State}
    {rest : List HostEvent} (hb : s.block = b) (hp : s.port = presented is ++ rest) :
    ∃ w, Transcript is outs cs w ∧
      Sys2Proof.core.run is.length s = .next { block := b', port := rest, wire := s.wire ++ w } := by
  induction h generalizing s with
  | nil b => exact ⟨[], .nil, by subst hb; simp [presented] at hp; simp [Host.Core.run, ← hp]⟩
  | @cons i is b b1 b' out outs c cs ha _ ih =>
    have hstep := step_encode (i := i) (rest := presented is ++ rest) hp
    rw [ha (s.taken (.command (encode i)) (presented is ++ rest)) hb] at hstep
    obtain ⟨w, hw, hrun⟩ := ih (s := (s.taken (.command (encode i)) (presented is ++ rest)).answered b1 out c) rfl rfl
    refine ⟨_, .cons i out c hw, ?_⟩
    rw [List.length_cons, run_succ_of_step _ hstep, hrun]
    simp [commandEvents]

/-! ## The counting pass -/

/-- The block once the bytes are counted (41_count.md R87). -/
def Block.countBytes (b : Block) (ds : List Byte) : Block := ds.foldl Block.countByte b

theorem Block.total_countBytes (b : Block) (ds : List Byte) : (b.countBytes ds).total = b.total + ds.length := by
  induction ds generalizing b with
  | nil => rfl
  | cons d ds ih =>
    rw [Block.countBytes, List.foldl_cons, ← Block.countBytes, ih, List.length_cons]
    simp only [Block.countByte]
    omega

theorem Block.count_countBytes (b : Block) (ds : List Byte) (c : Byte) :
    (b.countBytes ds).count c = b.count c + ds.count c := by
  induction ds generalizing b with
  | nil => rfl
  | cons d ds ih =>
    rw [Block.countBytes, List.foldl_cons, ← Block.countBytes, ih, Block.count_countByte, List.count_cons]
    simp only [beq_iff_eq, eq_comm (a := d)]
    split <;> omega

theorem answers_freq {b : Block} (hp : b.phase = .idle ∨ b.phase = .count) (ht : b.total ≠ Config.countMax) (d : Byte) :
    Answers (.freq d) b (b.countByte d) [] 0x00 := by
  rintro s rfl
  exact exec_freq_counts hp ht

theorem pass_freq {b : Block} {ds : List Byte} (hp : b.phase = .idle ∨ b.phase = .count)
    (ht : b.total + ds.length ≤ Config.countMax) :
    Pass (ds.map .freq) b (b.countBytes ds) [] (List.replicate ds.length 0x00) := by
  induction ds generalizing b with
  | nil => exact .nil b
  | cons d ds ih =>
    rw [List.length_cons] at ht
    refine .cons (answers_freq hp (by omega) d) (ih (.inr rfl) ?_)
    simp only [Block.countByte]
    omega

theorem presented_map (f : Byte → Instr) (ds : List Byte) :
    presented (ds.map f) = ds.map (fun d => HostEvent.command (encode (f d))) := by
  rw [presented, List.map_map]
  rfl

/-- Settles O24: the pass of `FREQ` commands, run by the machine. -/
theorem countingPass : Obligations.CountingPass := by
  unfold Obligations.CountingPass
  intro s ds rest hport hp ht
  obtain ⟨w, -, hrun⟩ := (pass_freq hp ht).run (s := s) rfl (presented_map .freq ds ▸ hport)
  rw [List.length_map] at hrun
  exact ⟨_, hrun, rfl, Block.total_countBytes .., Block.count_countBytes s.block ds⟩

/-! ## `SEED` and merges against `BUILD` -/

theorem answers_merge {b b' : Block} (hp : b.phase = .tree) (h : mergeStep b = .ok b') : Answers .merge b b' [] 0x00 := by
  rintro s rfl
  exact exec_merge_of_mergeStep hp h

/-- A merge neither reads nor writes `PHASE`. -/
theorem mergeStep_toTree {b b' : Block} (h : mergeStep b = .ok b') :
    mergeStep { b with phase := .tree } = .ok { b' with phase := .tree } := by
  obtain ⟨x, y, rest, wx, wy, ws, hq, hx, hy, hcap, hws, rfl⟩ := mergeStep_ok.mp h
  exact mergeStep_ok.mpr ⟨x, y, rest, wx, wy, ws, hq, hx, hy, hcap, hws, rfl⟩

/-- The loop of `BUILD` is a pass of `MERGE` commands (42_tree.md R99). -/
theorem pass_merge_of_mergeWhile {k : Nat} {b b' : Block} (h : mergeWhile k b = .ok b') :
    ∃ n, Pass (List.replicate n .merge) { b with phase := .tree } { b' with phase := .tree } []
      (List.replicate n 0x00) := by
  induction k generalizing b with
  | zero => cases h; exact ⟨0, .nil _⟩
  | succ k ih =>
    rw [mergeWhile] at h
    split at h
    · split at h
      · cases h
      · rename_i b1 hmerge
        obtain ⟨n, hn⟩ := ih h
        exact ⟨n + 1, .cons (answers_merge rfl (mergeStep_toTree hmerge)) hn⟩
    · cases h
      exact ⟨0, .nil _⟩

/-- Settles O29: seeding and merging complete, and `BUILD`'s loop is the pass of merges behind `SEED`. -/
theorem buildEqualsSeedThenMerges : Obligations.BuildEqualsSeedThenMerges := by
  unfold Obligations.BuildEqualsSeedThenMerges
  intro s hp hn hq hs
  obtain ⟨b1, hseed, -, hforest, -⟩ := seed_forest hn hq hs
  obtain ⟨b2, hmerge, -⟩ := hforest.mergeWhile (k := b1.pq.length) (Nat.le_succ _)
  obtain ⟨n, hpass⟩ := pass_merge_of_mergeWhile hmerge
  have hseedAnswers : Answers .seed s.block { b1 with phase := .tree } [] (seedResponse b1).code := by
    intro s' hb
    exact exec_seed_of_seed (hb ▸ hp) (hb ▸ hseed)
  obtain ⟨w, -, hrun⟩ := (Pass.cons hseedAnswers hpass).run
    (s := { s with port := (encode .seed :: List.replicate n (encode .merge)).map HostEvent.command }) (rest := []) rfl
    (by simp [presented])
  rw [List.length_cons, List.length_replicate] at hrun
  exact ⟨n, _, _, exec_build_of_seed_merge hp hseed hmerge, hrun, rfl, rfl, (mergeWhile_ok hmerge (Nat.le_succ _)).2⟩

/-! ## The encoding pass -/

/-- The packer with bytes put out before it. -/
theorem packBit_out (p : Packer) (bit : Bool) (o : List Byte) :
    packBit { p with out := o ++ p.out } bit = { packBit p bit with out := o ++ (packBit p bit).out } := by
  unfold packBit
  dsimp only
  split <;> simp

theorem packBits_out (bits : List Bool) (p : Packer) (o : List Byte) :
    bits.foldl packBit { p with out := o ++ p.out } =
      { bits.foldl packBit p with out := o ++ (bits.foldl packBit p).out } := by
  induction bits generalizing p with
  | nil => rfl
  | cons bit bits ih => rw [List.foldl_cons, List.foldl_cons, packBit_out, ih]

/-- The codes of the bytes, one after the other (44_encode.md R124). -/
def codeStream (b : Block) (ds : List Byte) : List Bool := ds.flatMap (fun d => codeBits (b.code d))

/-- The packer once the codes of the bytes are packed (44_encode.md R124). -/
def Block.packCodes (b : Block) (ds : List Byte) : Packer :=
  (codeStream b ds).foldl packBit { buf := b.pkbuf, cnt := b.pkcnt, out := [] }

/-- The block once the bytes are encoded. -/
def Block.encodeBytes (b : Block) (ds : List Byte) : Block :=
  { b with pkbuf := (b.packCodes ds).buf, pkcnt := (b.packCodes ds).cnt, encn := b.encn + ds.length }

theorem packCodes_cons (b : Block) (d : Byte) (ds : List Byte) :
    b.packCodes (d :: ds) =
      { (b.encodeByte d).packCodes ds with
        out := (b.packCode (b.code d)).out ++ ((b.encodeByte d).packCodes ds).out } := by
  have hout := packBits_out (codeStream b ds)
    { buf := (b.encodeByte d).pkbuf, cnt := (b.encodeByte d).pkcnt, out := [] } (b.packCode (b.code d)).out
  rw [List.append_nil] at hout
  rw [Block.packCodes, codeStream, List.flatMap_cons, List.foldl_append]
  exact hout

theorem answers_enc {b : Block} {d : Byte} (hp : b.phase = .enc) (ht : b.encn ≠ b.total) (hl : (b.code d).len ≠ 0) :
    Answers (.enc d) b (b.encodeByte d) (b.packCode (b.code d)).out 0x00 := by
  rintro s rfl
  exact exec_enc_packs hp ht hl

theorem pass_enc {b : Block} {ds : List Byte} (hp : b.phase = .enc) (ht : b.encn + ds.length ≤ b.total)
    (hl : ∀ d ∈ ds, (b.code d).len ≠ 0) :
    Pass (ds.map .enc) b (b.encodeBytes ds) (b.packCodes ds).out (List.replicate ds.length 0x00) := by
  induction ds generalizing b with
  | nil => exact .nil b
  | cons d ds ih =>
    obtain ⟨hd, hds⟩ := List.forall_mem_cons.mp hl
    rw [List.length_cons] at ht
    have hrest := ih (b := b.encodeByte d) hp (by simp only [Block.encodeByte]; omega) hds
    have hblock : (b.encodeByte d).encodeBytes ds = b.encodeBytes (d :: ds) := by
      rw [Block.encodeBytes, Block.encodeBytes, packCodes_cons, List.length_cons, Nat.add_comm ds.length, ← Nat.add_assoc]
      rfl
    rw [packCodes_cons, ← hblock]
    exact .cons (answers_enc hp (by omega) hd) hrest

/-- The fewest zero bits that fill the last byte (44_encode.md R120). -/
def padding (n : Nat) : List Bool := List.replicate ((8 - n % 8) % 8) false

theorem answers_encend_flushes {b : Block} (hp : b.phase = .enc) (ht : b.encn = b.total) (hc : 0 < b.pkcnt.val) :
    Answers .encend b { b with pkbuf := 0, pkcnt := 0, phase := .encDone } [b.pkbuf] 0x00 := by
  rintro s rfl
  exact exec_encend_flushes hp ht hc

theorem answers_encend_aligned {b : Block} (hp : b.phase = .enc) (ht : b.encn = b.total) (hc : b.pkcnt.val = 0) :
    Answers .encend b { b with phase := .encDone } [] 0x00 := by
  rintro s rfl
  exact exec_encend_aligned hp ht hc

/-- `ENCEND` fills the pending byte with zero bits (44_encode.md R120). -/
theorem exists_answers_encend {b : Block} (hp : b.phase = .enc) (ht : b.encn = b.total) (hpack : PackerInv b) :
    ∃ b' out, Answers .encend b b' out 0x00 ∧ b'.phase = .encDone ∧
      out.flatMap byteBits = (byteBits b.pkbuf).take b.pkcnt.val ++ padding b.pkcnt.val := by
  have hcnt := b.pkcnt.isLt
  rcases Nat.eq_zero_or_pos b.pkcnt.val with hc | hc
  · exact ⟨_, _, answers_encend_aligned hp ht hc, rfl, by simp [hc, padding]⟩
  · refine ⟨_, _, answers_encend_flushes hp ht hc, rfl, ?_⟩
    have hpad : padding b.pkcnt.val = (byteBits b.pkbuf).drop b.pkcnt.val := by
      rw [hpack.unfilled_bits, padding, Nat.mod_eq_of_lt hcnt, Nat.mod_eq_of_lt (by omega)]
    rw [hpad, List.take_append_drop, List.flatMap_singleton]

theorem padding_mod (n : Nat) : padding (n % 8) = padding n := by rw [padding, Nat.mod_mod, padding]

/-- Pass 2 with an empty packer puts out the bitstream (44_encode.md R124). -/
theorem exists_pass_enc_encend {b : Block} {ds : List Byte} (hp : b.phase = .enc) (hbuf : b.pkbuf = 0) (hcnt : b.pkcnt = 0)
    (hn : b.encn = 0) (ht : b.total = ds.length) (hl : ∀ d ∈ ds, (b.code d).len ≠ 0) :
    ∃ b' out, Pass (ds.map .enc ++ [.encend]) b b' out (List.replicate (ds.length + 1) 0x00) ∧ b'.phase = .encDone ∧
      out.flatMap byteBits = codeStream b ds ++ padding (codeStream b ds).length := by
  have hempty : Packer.Ok { buf := b.pkbuf, cnt := b.pkcnt, out := [] } := by rw [hbuf, hcnt]; rfl
  obtain ⟨hok, hbits⟩ := packBits_spec (bits := codeStream b ds) hempty
  have hcount := packBits_count (codeStream b ds) { buf := b.pkbuf, cnt := b.pkcnt, out := [] }
  rw [← Block.packCodes] at hok hbits hcount
  obtain ⟨b', out, hend, hphase, hflush⟩ := exists_answers_encend (b := b.encodeBytes ds) hp
    (by rw [Block.encodeBytes, hn, Nat.zero_add, ht]) hok
  refine ⟨b', _, List.replicate_succ' ▸ (pass_enc hp (by omega) hl).append hend.pass, hphase, ?_⟩
  have hmod : (b.packCodes ds).cnt.val = (codeStream b ds).length % 8 := by
    have hlt := (b.packCodes ds).cnt.isLt
    simp only [hcnt, List.length_nil, Fin.val_zero] at hcount
    omega
  calc
    _ = packedBits (b.packCodes ds).out (b.packCodes ds).buf (b.packCodes ds).cnt.val ++
        padding (b.packCodes ds).cnt.val := by
      rw [List.flatMap_append, hflush, packedBits, List.append_assoc]; rfl
    _ = codeStream b ds ++ padding (codeStream b ds).length := by
      rw [hbits, hmod, padding_mod, hcnt]; rfl

/-- Settles O39: pass 2 and the flush, run by the machine. -/
theorem encodePassIsTheBitstream : Obligations.EncodePassIsTheBitstream := by
  unfold Obligations.EncodePassIsTheBitstream
  intro s ds hport hp hbuf hcnt hn ht hl
  obtain ⟨b', out, hpass, hphase, hout⟩ := exists_pass_enc_encend hp hbuf hcnt hn ht hl
  obtain ⟨w, hw, hrun⟩ := hpass.run (s := s) (rest := []) rfl (by rw [List.append_nil]; exact hport)
  rw [List.length_append, List.length_map, List.length_singleton] at hrun
  refine ⟨_, out, hrun, hphase, ?_, ?_, hout⟩
  · rw [wireBytes_append, hw.wireBytes_eq]
  · rw [wireResponses_append, hw.wireResponses_eq]

end Sys2Proof.Machine
end

section
/-! PROOFS. The dictionary that `HEAD` puts out is read back by `DEC` as the same code table (20_memory.md R42 to R46,
45_decode.md R132 to R134). -/

namespace Sys2Proof.Machine

/-! ## Passes from reset -/

theorem Pass.runFromReset {is : List Instr} {b' : Block} {outs cs : List Byte} (h : Pass is Block.reset b' outs cs) :
    ∃ w, Transcript is outs cs w ∧ runFromReset is = .next { block := b', port := [], wire := w } := by
  obtain ⟨w, hw, hrun⟩ := h.run (s := { State.reset with port := presented is }) (rest := []) rfl (List.append_nil _).symm
  exact ⟨w, hw, hrun⟩

/-- A pass keeps the invariants (10_state.md). -/
theorem Pass.inv {is : List Instr} {b b' : Block} {outs cs : List Byte} (h : Pass is b b' outs cs) (hb : Inv b) :
    Inv b' := by
  induction h with
  | nil b => exact hb
  | @cons i is b b1 b' out outs c cs ha _ ih =>
    exact ih (inv_kept.exec (s := { State.reset with block := b }) hb (ha _ rfl))

/-! ## Staging sixteen bytes -/

/-- `b'` differs from `b` in the staging buffer and its position alone. -/
def SameButStage (b b' : Block) : Prop := b' = { b with stage := b'.stage, spos := b'.spos }

theorem SameButStage.trans {a b c : Block} (h1 : SameButStage a b) (h2 : SameButStage b c) : SameButStage a c := by
  unfold SameButStage at *
  rw [h1] at h2
  exact h2

/-- The block once the byte is staged before the last place (45_decode.md R132, R133). -/
def Block.stageNext (b : Block) (d : Byte) : Block := { b.stageByte d with spos := b.spos + 1 }

theorem Block.stageNext_spos {b : Block} (h : b.spos.val < 15) (d : Byte) : (b.stageNext d).spos.val = b.spos.val + 1 := by
  simp only [Block.stageNext, Fin.val_add_one_of_lt' (show b.spos.val + 1 < 16 by omega)]

theorem answers_dec_stages {b : Block} {d : Byte} (hp : b.phase = .decHdr ∨ b.phase = .decDict) (hs : b.spos.val < 15) :
    Answers (.dec d) b (b.stageNext d) [] 0x00 := by
  rintro s rfl
  rcases hp with hp | hp
  · exact exec_dec_of_load_ok (.inl hp) (decRule_of_decHdr hp) (headerByte_of_lt hs)
  · exact exec_dec_of_load_ok (.inr (.inl hp)) (decRule_of_decDict hp) (dictByte_of_lt hs)

theorem take_set_succ {l : List Byte} {n : Nat} {d : Byte} (h : n < l.length) :
    (l.set n d).take (n + 1) = l.take n ++ [d] := by
  rw [List.take_succ_eq_append_getElem (by rw [List.length_set]; exact h), List.take_set_of_le (Nat.le_refl n),
    List.getElem_set_self]

/-- Bytes that leave the last place of the staging buffer free are staged behind those before. -/
theorem exists_pass_stage {b : Block} {ds : List Byte} (hp : b.phase = .decHdr ∨ b.phase = .decDict)
    (hs : b.spos.val + ds.length ≤ 15) :
    ∃ b', Pass (ds.map .dec) b b' [] (List.replicate ds.length 0x00) ∧ SameButStage b b' ∧
      b'.spos.val = b.spos.val + ds.length ∧
      b'.stage.toList.take (b.spos.val + ds.length) = b.stage.toList.take b.spos.val ++ ds := by
  induction ds generalizing b with
  | nil => exact ⟨b, .nil b, rfl, rfl, by simp⟩
  | cons d ds ih =>
    rw [List.length_cons] at hs
    have hspos := Block.stageNext_spos (b := b) (by omega) d
    obtain ⟨b', hpass, hframe, hspos', htake⟩ := ih (b := b.stageNext d) hp (by omega)
    refine ⟨b', .cons (answers_dec_stages hp (by omega)) hpass, SameButStage.trans (b := b.stageNext d) rfl hframe, ?_, ?_⟩
    · rw [hspos', hspos, List.length_cons]; omega
    · have hset : (b.stageNext d).stage.toList = b.stage.toList.set b.spos.val d := Vector.toList_set b.spos.isLt
      rw [hspos, hset, take_set_succ (by simp)] at htake
      rw [List.length_cons, Nat.add_comm ds.length, ← Nat.add_assoc, htake, List.append_assoc, List.singleton_append]

/-- Sixteen bytes as the staging buffer's contents. -/
def recordStage (r : List Byte) (hr : r.length = 16) : Vector Byte 16 := ⟨r.toArray, hr⟩

@[simp] theorem recordStage_toList (r : List Byte) (hr : r.length = 16) : (recordStage r hr).toList = r := rfl

/-- Sixteen bytes are staged, the last of them completing a header or a record. -/
theorem pass_dec_sixteen {b b' : Block} {r : List Byte} (hp : b.phase = .decHdr ∨ b.phase = .decDict)
    (hs : b.spos = 0) (hr : r.length = 16)
    (hlast : ∀ (b1 : Block) (d : Byte), SameButStage b b1 → b1.spos.val = 15 →
      b1.fillStage d = { b with stage := recordStage r hr, spos := 0 } → Answers (.dec d) b1 b' [] 0x00) :
    Pass (r.map .dec) b b' [] (List.replicate 16 0x00) := by
  have hne : r ≠ [] := List.ne_nil_of_length_eq_add_one hr
  have hlen : r.dropLast.length = 15 := by rw [List.length_dropLast, hr]
  obtain ⟨b1, hpass, hframe, hspos, htake⟩ := exists_pass_stage (ds := r.dropLast) hp (by rw [hs, hlen]; rfl)
  rw [hs, hlen, Fin.val_zero, Nat.zero_add] at hspos
  have hstage : b1.stage.set 15 (r.getLast hne) = recordStage r hr := by
    have htake15 : b1.stage.toList.take 15 = r.dropLast := by simpa [hs, hlen] using htake
    have hlist : (b1.stage.toList.set 15 (r.getLast hne)).take 16 = r := by
      rw [take_set_succ (by simp), htake15, List.dropLast_append_getLast hne]
    rw [List.take_of_length_le (by simp)] at hlist
    exact Vector.toList_inj.mp ((Vector.toList_set _).trans hlist)
  have hend := hlast b1 (r.getLast hne) hframe hspos (by
    rw [Block.fillStage, hstage]
    exact congrArg (fun x : Block => { x with stage := recordStage r hr, spos := 0 }) hframe)
  have hsplit : r.map Instr.dec = r.dropLast.map .dec ++ [.dec (r.getLast hne)] := by
    rw [← List.map_singleton (f := Instr.dec), ← List.map_append, List.dropLast_append_getLast hne]
  rw [hsplit]
  exact (hlen ▸ hpass).append hend.pass

/-! ## The header -/

/-- The block has read `src`'s header and the records of the symbols `l`, the first ones of `src`'s list (20_memory.md R42 to
R46). -/
structure Loaded (src : Block) (l : List Byte) (b : Block) : Prop where
  phase : b.phase = if l.length < src.dord.length then .decDict else payloadPhase src.total
  origlen : b.origlen = src.total
  dictsz : b.dictsz = 16 * src.dord.length
  dord : b.dord = l
  code : ∀ c, b.code c = if c ∈ l then src.code c else ⟨0, 0⟩
  spos : b.spos = 0
  acclen : b.acclen = 0
  outn : b.outn = 0

theorem le64_length (v : Nat) : (le64 v).length = 8 := leBytes_length 8 v

theorem le32_length (v : Nat) : (le32 v).length = 4 := leBytes_length 4 v

theorem unLe_le64 {v : Nat} (h : v < 2 ^ 64) : unLe (le64 v) = v := unLe_leBytes 8 v h

/-- The block after reset once the header of `src` is read. -/
def headerBlock (src : Block) (h : (headerBytes src.total src.dord.length).length = 16) : Block :=
  { Block.reset with
    stage := recordStage (headerBytes src.total src.dord.length) h, origlen := src.total, dictsz := 16 * src.dord.length,
    phase := if 16 * src.dord.length ≠ 0 then .decDict else payloadPhase src.total }

theorem loaded_headerBlock (src : Block) (h : (headerBytes src.total src.dord.length).length = 16) :
    Loaded src [] (headerBlock src h) where
  phase := by
    simp only [headerBlock, List.length_nil, Nat.pos_iff_ne_zero, Nat.mul_ne_zero_iff, ne_eq, OfNat.ofNat_ne_zero,
      not_false_eq_true, true_and]
  origlen := rfl
  dictsz := rfl
  dord := rfl
  code := fun c => by rw [if_neg List.not_mem_nil]; exact Block.code_reset c
  spos := rfl
  acclen := rfl
  outn := rfl

theorem headerBytes_length (total dn : Nat) : (headerBytes total dn).length = 16 := by simp [headerBytes, le64]

/-- `DEC` reads `src`'s header after reset and `DECST` (45_decode.md R132). -/
theorem pass_dec_header {src : Block} (ht : src.total < 2 ^ 64) (hd : 16 * src.dord.length < 2 ^ 64) :
    Pass ((headerBytes src.total src.dord.length).map .dec) { Block.reset with phase := .decHdr }
      (headerBlock src (headerBytes_length ..)) [] (List.replicate 16 0x00) := by
  refine pass_dec_sixteen (.inl rfl) rfl (headerBytes_length ..) fun b1 d hframe hspos hfill => ?_
  have hp : b1.phase = .decHdr := by rw [hframe]
  have hstage : b1.stage.set 15 d = recordStage (headerBytes src.total src.dord.length) (headerBytes_length ..) :=
    congrArg Block.stage hfill
  have horig : fromLittleEndian ((b1.stage.set 15 d).toList.take 8) = src.total := by
    rw [hstage, recordStage_toList, headerBytes, List.take_left' (le64_length _), ← unLe_eq_fromLittleEndian,
      unLe_le64 ht]
  have hdict : fromLittleEndian ((b1.stage.set 15 d).toList.drop 8) = 16 * src.dord.length := by
    rw [hstage, recordStage_toList, headerBytes, List.drop_left' (le64_length _), ← unLe_eq_fromLittleEndian,
      Config.recSize, unLe_le64 hd]
  have hheader := headerByte_of_last (d := d) hspos
  rw [horig, hdict, hfill] at hheader
  rintro s rfl
  exact exec_dec_of_load_ok (.inl hp) (decRule_of_decHdr hp) (hheader.trans (if_neg (by omega)))

/-! ## The dictionary -/

/-- The fields of the record that `HEAD` writes for a code (20_memory.md R45). -/
theorem parseRecord_recordBytes {c : Code} (hc : c.len ≤ 64) (ch : Byte) :
    parseRecord (recordStage (recordBytes c ch) (recordBytes_length c ch)) = ⟨c.bits, c.len, ch⟩ := by
  have hlist : recordBytes c ch = le64 c.bits.toNat ++ (le32 c.len ++ ([ch] ++ [0x00, 0x00, 0x00])) := by
    simp only [recordBytes, List.append_assoc]
  have hbits : stageSlice (recordStage (recordBytes c ch) (recordBytes_length c ch)) 0 8 = le64 c.bits.toNat := by
    rw [stageSlice, recordStage_toList, List.drop_zero, hlist, List.take_left' (le64_length _)]
  have hlen : stageSlice (recordStage (recordBytes c ch) (recordBytes_length c ch)) 8 4 = le32 c.len := by
    rw [stageSlice, recordStage_toList, hlist, List.drop_left' (le64_length _), List.take_left' (le32_length _)]
  have hlen32 : unLe (le32 c.len) = c.len := unLe_leBytes 4 _ (hc.trans_lt (by decide))
  simp only [parseRecord, hbits, hlen, hlen32, unLe_le64 c.bits.isLt, asSigned32, BitVec.ofNat_toNat, BitVec.setWidth_eq]
  rw [if_pos (hc.trans_lt (by decide))]
  rfl

section
variable {src b : Block} {l rest : List Byte} {c : Byte}

/-- The record behind the ones loaded is accepted: its symbol has no code yet, and no symbol has its key (45_decode.md
R134). -/
theorem Loaded.record_accepted (hb : Loaded src l b) (hsrc : TableInv src) (hp : src.phase = .coded)
    (hsplit : src.dord = l ++ c :: rest) :
    loadRecord ⟨(src.code c).bits, (src.code c).len, c⟩ b = .ok (b.addRecord ⟨(src.code c).bits, (src.code c).len, c⟩) := by
  have hmem : c ∈ src.dord := by simp [hsplit]
  have hnew : c ∉ l := fun hc => by
    have hnd := hsrc.listed_once
    rw [hsplit] at hnd
    exact (List.nodup_append.mp hnd).2.2 c hc c (by simp) rfl
  obtain ⟨h1, h64⟩ := hsrc.len_of_mem_dord hmem
  refine loadRecord_of_wellFormed (Int.ofNat_le.mpr h1) (Int.ofNat_le.mpr h64) ?_ ?_
  · rw [hb.code, if_neg hnew]
  · rintro ⟨c', hlen, hbits⟩
    by_cases hc' : c' ∈ l
    · rw [hb.code, if_pos hc'] at hlen hbits
      have hcode : src.code c' = src.code c := by
        cases h : src.code c'
        cases h' : src.code c
        simp_all
      refine hsrc.coded_prefix_free (by simp [hp]) c' (by simp [hsplit, hc']) c hmem (fun he => hnew (he ▸ hc')) ?_
      rw [hcode]
    · rw [hb.code, if_neg hc'] at hlen
      simp at hlen
      omega

/-- What is staged makes no difference to what is loaded. -/
theorem Loaded.staged (hb : Loaded src l b) (st : Vector Byte 16) : Loaded src l { b with stage := st, spos := 0 } :=
  ⟨hb.phase, hb.origlen, hb.dictsz, hb.dord, hb.code, rfl, hb.acclen, hb.outn⟩

/-- The block once the record it has staged is loaded (45_decode.md R134). -/
def Block.recordLoaded (b : Block) (r : DictRecord) : Block :=
  { b.addRecord r with phase := if 16 * (b.dord.length + 1) = b.dictsz then payloadPhase b.origlen else .decDict }

theorem Loaded.recordLoaded (hb : Loaded src l b) (hsplit : src.dord = l ++ c :: rest) :
    Loaded src (l ++ [c]) (b.recordLoaded ⟨(src.code c).bits, (src.code c).len, c⟩) where
  phase := by
    have hlen : src.dord.length = l.length + (rest.length + 1) := by rw [hsplit, List.length_append, List.length_cons]
    simp only [Block.recordLoaded, hb.dord, hb.dictsz, hb.origlen, List.length_append, List.length_singleton]
    by_cases h : rest.length = 0
    · rw [if_pos (by omega), if_neg (by omega)]
    · rw [if_neg (by omega), if_pos (by omega)]
  origlen := hb.origlen
  dictsz := hb.dictsz
  dord := congrArg (· ++ [c]) hb.dord
  code := fun c' => by
    have hcode : (b.recordLoaded ⟨(src.code c).bits, (src.code c).len, c⟩).code c' =
        if c' = c then src.code c else b.code c' := Block.code_addRecord b _ c'
    rw [hcode, hb.code]
    by_cases h : c' = c
    · simp [h]
    · simp [h]
  spos := hb.spos
  acclen := hb.acclen
  outn := hb.outn

/-- `DEC` reads the next record of `src`'s dictionary (45_decode.md R133, R134). -/
theorem Loaded.exists_pass_record (hb : Loaded src l b) (hsrc : TableInv src) (hp : src.phase = .coded)
    (hsplit : src.dord = l ++ c :: rest) :
    ∃ b', Pass ((recordBytes (src.code c) c).map .dec) b b' [] (List.replicate 16 0x00) ∧ Loaded src (l ++ [c]) b' := by
  have hlt : l.length < src.dord.length := by simp [hsplit]
  have hphase : b.phase = .decDict := by rw [hb.phase, if_pos hlt]
  have hstaged := hb.staged (recordStage (recordBytes (src.code c) c) (recordBytes_length _ _))
  refine ⟨_, pass_dec_sixteen (.inr hphase) hb.spos (recordBytes_length _ _) fun b1 d hframe hspos hfill => ?_,
    hstaged.recordLoaded hsplit⟩
  have hp1 : b1.phase = .decDict := by rw [hframe]; exact hphase
  have hload : loadRecord (parseRecord (b1.fillStage d).stage) (b1.fillStage d) =
      .ok ((b1.fillStage d).addRecord ⟨(src.code c).bits, (src.code c).len, c⟩) := by
    rw [hfill, parseRecord_recordBytes (hsrc.len_le c)]
    exact hstaged.record_accepted hsrc hp hsplit
  have hbyte := dictByte_of_accepted hspos hp1 hload
  rintro s rfl
  exact exec_dec_of_load_ok (.inr (.inl hp1)) (decRule_of_decDict hp1)
    (hbyte.trans (congrArg (fun x : Block => Except.ok (ε := Abort) (x.recordLoaded ⟨(src.code c).bits, (src.code c).len, c⟩)) hfill))

/-- `DEC` reads the records of `src`'s dictionary that are left. -/
theorem Loaded.exists_pass_records (hb : Loaded src l b) (hsrc : TableInv src) (hp : src.phase = .coded)
    (hsplit : src.dord = l ++ rest) :
    ∃ b', Pass ((rest.flatMap fun c => recordBytes (src.code c) c).map .dec) b b' []
      (List.replicate (16 * rest.length) 0x00) ∧ Loaded src src.dord b' := by
  induction rest generalizing l b with
  | nil => exact ⟨b, .nil b, by rwa [hsplit, List.append_nil]⟩
  | cons c rest ih =>
    obtain ⟨b1, hpass, hb1⟩ := hb.exists_pass_record hsrc hp hsplit
    obtain ⟨b', hpass', hb'⟩ := ih hb1 (by rw [hsplit, List.append_assoc, List.singleton_append])
    refine ⟨b', ?_, hb'⟩
    rw [List.flatMap_cons, List.map_append, List.length_cons, Nat.mul_succ, Nat.add_comm, List.replicate_add]
    exact hpass.append hpass'

end

/-! ## The file's beginning -/

/-- What `HEAD` puts out, decoded after reset, loads the table that `GEN` left. -/
theorem exists_pass_decst_head {src : Block} (hsrc : Inv src) (hp : src.phase = .coded) :
    ∃ u, Pass (.decst :: src.headBytes.map .dec) Block.reset u [] (List.replicate (1 + src.headBytes.length) 0x00) ∧
      Loaded src src.dord u := by
  have ht : src.total < 2 ^ 64 := hsrc.count.total_fits.trans_lt (by decide)
  have hd : 16 * src.dord.length < 2 ^ 64 := by have := bytes_le_256 hsrc.table.listed_once; omega
  have hstart : Answers .decst Block.reset { Block.reset with phase := .decHdr } [] 0x00 := by
    rintro s hs
    rw [exec_decst_idle (by rw [hs]; rfl), hs]
  obtain ⟨u, hpass, hu⟩ := (loaded_headerBlock src (headerBytes_length ..)).exists_pass_records hsrc.table hp rfl
  refine ⟨u, ?_, hu⟩
  rw [headBytes_length, List.replicate_add, List.replicate_add, Block.headBytes, List.map_append]
  exact .cons hstart ((pass_dec_header ht hd).append hpass)

theorem ct_eq_of_code_eq {b b' : Block} (h : ∀ c, b.code c = b'.code c) : b.ct = b'.ct := by
  have hentries : b.ct.entries = b'.ct.entries := by rw [ct_entries, ct_entries, funext h]
  cases hb : b.ct
  cases hb' : b'.ct
  simp_all

/-- Once the whole dictionary is read, the table is `src`'s. -/
theorem Loaded.code_eq {src b : Block} (hb : Loaded src src.dord b) (hsrc : TableInv src) (c : Byte) :
    b.code c = src.code c := by
  rw [hb.code]
  split
  · rfl
  · next hc =>
    have hlen : (src.code c).len = 0 := not_ne_iff.mp (mt (hsrc.listed c).mp hc)
    have hbits := hsrc.absent_bits c hlen
    cases h : src.code c
    simp_all

/-- Settles O56: the header is staged and parsed, then by induction every record, which is accepted because the codes of
`CODED` do not begin one another. -/
theorem dictionaryReadsBack : Obligations.DictionaryReadsBack := by
  unfold Obligations.DictionaryReadsBack
  intro s t hinv hp ht
  obtain ⟨b, hpass, hb⟩ := exists_pass_decst_head hinv hp
  obtain ⟨w, -, hrun⟩ := hpass.runFromReset
  rw [exec_head_coded hp] at ht
  cases ht
  refine ⟨s.block.headBytes, _, ?_, hrun, ct_eq_of_code_eq (hb.code_eq hinv.table), hb.dord, hb.origlen, hb.dictsz, ?_⟩
  · simp [State.answered]
  · rw [hb.phase, if_neg (lt_irrefl _)]
    rfl

end Sys2Proof.Machine
end

section
/-! PROOFS. The decoding pass: the bit stage on a whole bitstream, and its bytes one by one (45_decode.md R135 to R140). -/

namespace Sys2Proof.Machine

/-! ## A whole bitstream -/

theorem BitStage.pendingBits_takeBit {b : Block} (hw : BitStage b) (hroom : b.acclen + 1 ≤ b.maxlen) (bit : Bool) :
    pendingBits (b.takeBit bit) = pendingBits b ++ [bit] := by
  have h64 := hw.maxlen_le
  exact pending_snoc _ _ _ (by omega) hw.accbits_lt

/-- The bits of a listed code, the first of them pending, put its character out. -/
theorem bitsLoop_code {b : Block} {c : Byte} {bits : List Bool} (hw : BitStage b) (hfree : PrefixFree b)
    (hc : c ∈ b.dord) (hlt : (b.code c).bits.toNat < 2 ^ (b.code c).len)
    (hcode : codeBits (b.code c) = pendingBits b ++ bits) (rest : List Bool) (out : List Byte) :
    bitsLoop (bits ++ rest) b out =
      if b.outn + 1 = b.origlen then .ok ({ b.emitChar with phase := .decDone }, out ++ [c])
      else bitsLoop rest b.emitChar (out ++ [c]) := by
  induction bits generalizing b with
  | nil => exact absurd ⟨[], by rw [hcode, List.append_nil, List.append_nil]⟩ (hw.no_prefix c hc hlt)
  | cons bit bits ih =>
    have hmatch : ∀ ch, lookup b (accumulate b.accbits bit) (b.acclen + 1) = some ch → ch = c ∧ bits = [] := by
      intro ch hl
      obtain ⟨hch, hmem⟩ := hw.matched hl
      obtain rfl : ch = c := by_contra fun hne =>
        hfree ch hmem c hc hne ⟨bits, by rw [hch, hcode, List.append_assoc, List.singleton_append]⟩
      exact ⟨rfl, by simpa [hch] using hcode⟩
    rcases bitsLoop_cons_cases bit b with ⟨ch, hl, hlast, he⟩ | ⟨ch, hl, hmore, he⟩ | ⟨-, hlong, -⟩ | ⟨hl, hroom, he⟩
    · obtain ⟨rfl, rfl⟩ := hmatch ch hl
      exact (he _ _).trans (if_pos hlast).symm
    · obtain ⟨rfl, rfl⟩ := hmatch ch hl
      exact (he _ _).trans (if_neg hmore).symm
    · have hlen := congrArg List.length hcode
      rw [codeBits_length, List.length_append, pendingBits, codeBits_length, List.length_cons] at hlen
      have hmax := hw.maxlen_bound c
      simp only at hlen
      omega
    · rw [List.cons_append, he]
      refine ih (b := b.takeBit bit) (hw.next hl hroom) hfree hc hlt ?_
      rw [hw.pendingBits_takeBit hroom, List.append_assoc]
      exact hcode

/-- The block once the last byte is out. -/
def Block.decoded (b : Block) : Block := { b with accbits := 0, acclen := 0, outn := b.origlen, phase := .decDone }

/-- The codes of all the bytes, one after the other, put these bytes out; what is behind makes no difference
(44_encode.md R124, 45_decode.md R144). -/
theorem bitsLoop_codeStream {b : Block} {ds : List Byte} (hw : BitStage b) (hfree : PrefixFree b)
    (hlt : ∀ c, (b.code c).bits.toNat < 2 ^ (b.code c).len) (hacc : b.acclen = 0) (hds : ∀ d ∈ ds, d ∈ b.dord)
    (hlen : b.outn + ds.length = b.origlen) (rest : List Bool) (out : List Byte) :
    bitsLoop (codeStream b ds ++ rest) b out = .ok (b.decoded, out ++ ds) := by
  induction ds generalizing b out with
  | nil => exact absurd hlen (Nat.ne_of_lt hw.outn_lt)
  | cons d ds ih =>
    obtain ⟨hd, hds⟩ := List.forall_mem_cons.mp hds
    rw [List.length_cons] at hlen
    rw [codeStream, List.flatMap_cons, List.append_assoc,
      bitsLoop_code hw hfree hd (hlt d) (by rw [pendingBits_nil hacc, List.nil_append])]
    split
    · next hlast =>
      obtain rfl : ds = [] := List.length_eq_zero_iff.mp (by omega)
      have hend : b.decoded = { b.emitChar with phase := .decDone } := by simp only [Block.decoded, Block.emitChar, hlast]
      rw [hend]
    · next hmore =>
      have hlen' : b.emitChar.outn + ds.length = b.emitChar.origlen := by simp only [Block.emitChar]; omega
      have hrest := ih (b := b.emitChar) (hw.emit hmore) hfree hlt rfl hds hlen' (out ++ [d])
      rw [List.append_assoc] at hrest
      exact hrest

/-! ## Byte by byte -/

/-- The loop on the bits of a stream's beginning: it has ended there, or it goes on with the other bits. -/
theorem bitsLoop_append {bits rest : List Bool} {b b' : Block} {out out' : List Byte} (hp : b.phase = .decBits)
    (h : bitsLoop (bits ++ rest) b out = .ok (b', out')) :
    ∃ b1 out1, bitsLoop bits b out = .ok (b1, out1) ∧
      ((b1.phase = .decDone ∧ b1 = b' ∧ out1 = out') ∨
        (b1.phase = .decBits ∧ bitsLoop rest b1 out1 = .ok (b', out'))) := by
  induction bits generalizing b out with
  | nil => exact ⟨b, out, rfl, .inr ⟨hp, h⟩⟩
  | cons bit bits ih =>
    rw [List.cons_append] at h
    rcases bitsLoop_cons_cases bit b with ⟨ch, -, -, he⟩ | ⟨ch, -, -, he⟩ | ⟨-, -, he⟩ | ⟨-, -, he⟩ <;> rw [he] at h ⊢
    · cases h
      exact ⟨_, _, rfl, .inl ⟨rfl, rfl, rfl⟩⟩
    · exact ih (b := b.emitChar) hp h
    · cases h
    · exact ih (b := b.takeBit bit) hp h

/-- What the loop has put out before makes no difference. -/
theorem bitsLoop_out (bits : List Bool) (b : Block) (o out : List Byte) :
    bitsLoop bits b (o ++ out) = (bitsLoop bits b out).map (fun r => (r.1, o ++ r.2)) := by
  induction bits generalizing b out with
  | nil => rfl
  | cons bit bits ih =>
    rcases bitsLoop_cons_cases bit b with ⟨ch, -, -, he⟩ | ⟨ch, -, -, he⟩ | ⟨-, -, he⟩ | ⟨-, -, he⟩ <;> rw [he, he]
    · rw [List.append_assoc]; rfl
    · rw [List.append_assoc, ih]
    · rfl
    · rw [ih]

theorem answers_dec_bits {b b' : Block} {d : Byte} {out : List Byte} (hp : b.phase = .decBits)
    (h : bitsLoop (byteBits d) b [] = .ok (b', out)) : Answers (.dec d) b b' out 0x00 := by
  rintro s rfl
  exact exec_dec_of_bits_ok hp h

/-- Bytes behind the last character are discarded (45_decode.md R139). -/
theorem pass_dec_done {b : Block} (hp : b.phase = .decDone) (ds : List Byte) :
    Pass (ds.map .dec) b b [] (List.replicate ds.length 0x00) := by
  induction ds with
  | nil => exact .nil b
  | cons d ds ih =>
    refine .cons (out := []) ?_ ih
    rintro s rfl
    exact decDoneDiscardsTheByte d s hp

/-- Bytes whose bits decode to the end are a pass. -/
theorem pass_dec_of_bitsLoop {b b' : Block} {fs outs : List Byte} (hp : b.phase = .decBits) (hp' : b'.phase = .decDone)
    (h : bitsLoop (fs.flatMap byteBits) b [] = .ok (b', outs)) :
    Pass (fs.map .dec) b b' outs (List.replicate fs.length 0x00) := by
  induction fs generalizing b outs with
  | nil => cases h; cases hp.symm.trans hp'
  | cons f fs ih =>
    rw [List.flatMap_cons] at h
    obtain ⟨b1, out1, h1, ⟨hdone, rfl, rfl⟩ | ⟨hgo, h2⟩⟩ := bitsLoop_append hp h
    · exact List.append_nil out1 ▸ Pass.cons (answers_dec_bits hp h1) (pass_dec_done hdone fs)
    · have hout := bitsLoop_out (fs.flatMap byteBits) b1 out1 []
      rw [List.append_nil, h2] at hout
      cases h3 : bitsLoop (fs.flatMap byteBits) b1 [] with
      | error a => rw [h3] at hout; cases hout
      | ok r =>
        rw [h3] at hout
        cases hout
        exact .cons (answers_dec_bits hp h1) (ih hgo h3)

theorem answers_decend_done {b : Block} (hp : b.phase = .decDone) : Answers .decend b b [] 0x00 := by
  rintro s rfl
  exact (decendJudgesTheEnd s).1 hp

/-! ## The decode run -/

theorem Loaded.codeStream_eq {src b : Block} (hb : Loaded src src.dord b) (hsrc : TableInv src) (ds : List Byte) :
    codeStream b ds = codeStream src ds := by
  simp only [codeStream, hb.code_eq hsrc]

theorem Loaded.prefixFree {src b : Block} (hb : Loaded src src.dord b) (hsrc : TableInv src) (h : PrefixFree src) :
    PrefixFree b := by
  simpa only [PrefixFree, hb.dord, hb.code_eq hsrc] using h

/-- The table loaded, the file's other bytes decode to the bytes they encode (45_decode.md R144). -/
theorem Loaded.exists_pass_payload {src b : Block} {ds fs : List Byte} {pad : List Bool} (hb : Loaded src src.dord b)
    (hsrc : Inv src) (hp : src.phase = .coded) (hinv : Inv b) (ht : src.total = ds.length) (hds : ∀ d ∈ ds, d ∈ src.dord)
    (hfs : fs.flatMap byteBits = codeStream src ds ++ pad) :
    ∃ b', Pass (fs.map .dec) b b' ds (List.replicate fs.length 0x00) ∧ b'.phase = .decDone := by
  have hphase := hb.phase
  rw [if_neg (lt_irrefl _)] at hphase
  rcases Nat.eq_zero_or_pos src.total with h0 | hpos
  · obtain rfl : ds = [] := List.length_eq_zero_iff.mp (ht.symm.trans h0)
    rw [h0] at hphase
    exact ⟨b, pass_dec_done hphase fs, hphase⟩
  · rw [payloadPhase, if_pos (Nat.ne_of_gt hpos)] at hphase
    refine ⟨_, pass_dec_of_bitsLoop hphase (b' := b.decoded) rfl ?_, rfl⟩
    rw [hfs, ← hb.codeStream_eq hsrc.table]
    refine bitsLoop_codeStream (.of_inv hinv hphase) (hb.prefixFree hsrc.table (hsrc.table.coded_prefix_free (by simp [hp])))
      (fun c => ?_) hb.acclen (fun d hd => hb.dord ▸ hds d hd) ?_ pad []
    · rw [hb.code_eq hsrc.table]
      exact hsrc.table.coded_bits (by simp [hp]) c
    · rw [hb.outn, hb.origlen, ht, Nat.zero_add]

/-- The decode run of an encoded file (70_reset_and_hazards.md R173). -/
theorem exists_pass_decodeCommands {src : Block} {ds fs : List Byte} {pad : List Bool} (hsrc : Inv src)
    (hp : src.phase = .coded) (ht : src.total = ds.length) (hds : ∀ d ∈ ds, d ∈ src.dord)
    (hfs : fs.flatMap byteBits = codeStream src ds ++ pad) :
    ∃ b' n, Pass (decodeCommands (src.headBytes ++ fs)) Block.reset b' ds (List.replicate n 0x00 ++ [0x00]) := by
  obtain ⟨b, hload, hb⟩ := exists_pass_decst_head hsrc hp
  obtain ⟨b', hpay, hdone⟩ := hb.exists_pass_payload hsrc hp (hload.inv inv_reset) ht hds hfs
  have hpass := (hload.append hpay).append (answers_decend_done hdone).pass
  rw [List.nil_append, List.append_nil, ← List.replicate_add] at hpass
  refine ⟨b', 1 + src.headBytes.length + fs.length, ?_⟩
  rw [decodeCommands, List.map_append]
  exact hpass

end Sys2Proof.Machine
end

section
/-! PROOFS. The encode run, and the round trip of every input (45_decode.md R144, 70_reset_and_hazards.md R173, R181). -/

namespace Sys2Proof.Machine

/-! ## The result of a run -/

theorem encode_ne_clr {i : Instr} (h : i ≠ .clr) : encode i ≠ 0x1000 := fun he => h (encode_injective (he.trans rfl))

/-- One command in the view of a run (70_reset_and_hazards.md R181). -/
theorem foldl_next_commandEvents {i : Instr} (h : i ≠ .clr) (v : RunView) (out : List Byte) (c : Byte) :
    (commandEvents i out c).foldl RunView.next v =
      { word := some (encode i), bytes := v.bytes ++ out,
        ended := v.ended || decide (c = 0x00 ∧ (encode i = 0x9000 ∨ encode i = 0xC000)) } := by
  have hbytes : ∀ (l : List Byte) (u : RunView),
      (l.map PortEvent.byte).foldl RunView.next u = { u with bytes := u.bytes ++ l } := by
    intro l
    induction l with
    | nil => intro u; simp
    | cons d l ih => intro u; simp [ih, RunView.next]
  rw [commandEvents, List.cons_append, List.foldl_cons, List.foldl_append, hbytes]
  have hne : encode i ≠ 4096#16 := encode_ne_clr h
  simp [RunView.next, hne]

theorem Transcript.bytes_foldl {is : List Instr} {outs cs : List Byte} {w : List PortEvent} (h : Transcript is outs cs w)
    (hclr : .clr ∉ is) (v : RunView) : (w.foldl RunView.next v).bytes = v.bytes ++ outs := by
  induction h generalizing v with
  | nil => simp
  | cons i out c _ ih =>
    simp only [List.mem_cons, not_or] at hclr
    rw [List.foldl_append, foldl_next_commandEvents (Ne.symm hclr.1), ih hclr.2, List.append_assoc]

/-- `ENCEND` or `DECEND` answered with OK ends the run (70_reset_and_hazards.md R181). -/
theorem Transcript.ended_foldl {is : List Instr} {outs cs : List Byte} {w : List PortEvent} (h : Transcript is outs cs w)
    (hclr : .clr ∉ is) {i : Instr} (hi : is.getLast? = some i) (hend : i = .encend ∨ i = .decend)
    (hc : cs.getLast? = some 0x00) (v : RunView) : (w.foldl RunView.next v).ended = true := by
  induction h generalizing v with
  | nil => cases hi
  | cons i' out c h ih =>
    simp only [List.mem_cons, not_or] at hclr
    rw [List.foldl_append, foldl_next_commandEvents (Ne.symm hclr.1)]
    cases h with
    | nil =>
      obtain rfl : i' = i := by simpa using hi
      obtain rfl : c = 0x00 := by simpa using hc
      have hword : encode i' = 36864#16 ∨ encode i' = 49152#16 := by rcases hend with rfl | rfl <;> decide
      simp [hword]
    | cons => exact ih hclr.2 hi hc _

theorem Transcript.runResult_eq {is : List Instr} {outs cs : List Byte} {w : List PortEvent} {i : Instr}
    (h : Transcript (is ++ [i]) outs (cs ++ [0x00]) w) (hclr : .clr ∉ is) (hend : i = .encend ∨ i = .decend) :
    runResult w = some outs := by
  have hclr' : .clr ∉ is ++ [i] := by
    rcases hend with rfl | rfl <;> simpa using hclr
  rw [runResult, h.ended_foldl hclr' (by simp) hend (by simp), h.bytes_foldl hclr']
  rfl

/-! ## The encode run -/

/-- `BUILD` completes in the counting stage (42_tree.md R99). -/
theorem Inv.exists_answers_build {b : Block} (h : Inv b) (hp : b.phase = .idle ∨ b.phase = .count) :
    ∃ b' c, Answers .build b b' [] c ∧ (c = 0x00 ∨ (b.total = 0 ∧ c = 0x01)) ∧ b'.phase = .tree ∧ b'.pq.length ≤ 1 ∧
      b'.freq = b.freq ∧ b'.total = b.total := by
  obtain ⟨hn, hq, hs⟩ := h.tree.empty_of_idle_or_count hp
  obtain ⟨b1, hseed, htree1, hforest, -, -, hsum⟩ := seed_forest hn hq hs
  obtain ⟨b2, hmerge, -⟩ := hforest.mergeWhile (k := b1.pq.length) (Nat.le_succ _)
  obtain ⟨htree2, hlen⟩ := mergeWhile_ok hmerge (Nat.le_succ _)
  have hframe := htree1.trans htree2
  refine ⟨{ b2 with phase := .tree }, (seedResponse b1).code, ?_, ?_, rfl, hlen, ?_, ?_⟩
  · rintro s rfl
    exact exec_build_of_seed_merge hp hseed hmerge
  · rw [seedResponse_code]
    split
    · next hempty =>
      rw [List.length_eq_zero_iff.mp hempty] at hsum
      exact .inr ⟨h.count.total_eq.trans hsum.symm, rfl⟩
    · exact .inl rfl
  · rw [hframe]
  · rw [hframe]

theorem answers_gen {b b' : Block} (hp : b.phase = .tree) (h : genRule b = .ok b'.done) : Answers .gen b b' [] 0x00 := by
  rintro s rfl
  exact exec_gen_of_ok hp h

/-- `GEN` completes on a tree without an Internal node at depth 64 (43_codegen.md R109). -/
theorem Inv.exists_answers_gen {b : Block} (h : Inv b) (hp : b.phase = .tree) (hq : b.pq.length ≤ 1)
    (hdeep : ∀ e ∈ b.pq, ¬ tooDeep b.node e.node) :
    ∃ b', Answers .gen b b' [] 0x00 ∧ b'.phase = .coded ∧ b'.freq = b.freq ∧ b'.total = b.total := by
  rcases genRule_cases h hp with ⟨hlen, -⟩ | ⟨-, hg⟩ | ⟨e, t, -, -, -, hg⟩ | ⟨e, t, hpq, ht, hd, -⟩
  · omega
  · exact ⟨_, answers_gen hp hg, rfl, rfl, rfl⟩
  · refine ⟨_, answers_gen hp hg, rfl, ?_, ?_⟩ <;> rw [genBlock_form]
  · exact absurd ((tooDeep_iff ht).mpr hd) (hdeep e (by simp [hpq]))

theorem answers_head {b : Block} (hp : b.phase = .coded) : Answers .head b { b with phase := .enc } b.headBytes 0x00 := by
  rintro s rfl
  exact exec_head_coded hp

/-- No Internal node stands at depth 64 in the tree of the bytes (43_codegen.md R109). -/
def ShallowTree (bs : List Byte) : Prop :=
  ∀ s e, runFromReset (bs.map Instr.freq ++ [Instr.build]) = .next s → e ∈ s.block.pq → ¬ tooDeep s.block.node e.node

theorem Block.phase_countBytes {b : Block} (hp : b.phase = .idle ∨ b.phase = .count) (ds : List Byte) :
    (b.countBytes ds).phase = .idle ∨ (b.countBytes ds).phase = .count := by
  induction ds generalizing b with
  | nil => exact hp
  | cons d ds ih => exact ih (b := b.countByte d) (.inr rfl)

/-- The encode run up to `GEN` (70_reset_and_hazards.md R173). -/
theorem exists_pass_freq_build_gen {bs : List Byte} (hlen : bs.length < 2 ^ 64) (hshallow : ShallowTree bs) :
    ∃ b c, Pass (bs.map .freq ++ [.build, .gen]) Block.reset b [] (List.replicate bs.length 0x00 ++ [c, 0x00]) ∧
      (c = 0x00 ∨ (bs = [] ∧ c = 0x01)) ∧ b.phase = .coded ∧ b.total = bs.length ∧ ∀ d, b.count d = bs.count d := by
  have hfreq := pass_freq (b := Block.reset) (ds := bs) (.inl rfl)
    (Nat.le_sub_one_of_lt (by rw [show Block.reset.total = 0 from rfl, Nat.zero_add]; exact hlen))
  obtain ⟨b1, c, hbuild, hc, hp1, hq1, hfreq1, htotal1⟩ := (hfreq.inv inv_reset).exists_answers_build
    (Block.phase_countBytes (.inl rfl) bs)
  have hpass1 := hfreq.append hbuild.pass
  obtain ⟨w, -, hrun⟩ := hpass1.runFromReset
  obtain ⟨b2, hgen, hp2, hfreq2, htotal2⟩ := (hpass1.inv inv_reset).exists_answers_gen hp1 hq1 fun e he =>
    hshallow _ e hrun he
  have htotal : (Block.reset.countBytes bs).total = bs.length :=
    (Block.total_countBytes _ _).trans (Nat.zero_add _)
  refine ⟨b2, c, ?_, hc.imp_right fun ⟨h0, hc⟩ => ⟨List.length_eq_zero_iff.mp (htotal.symm.trans h0), hc⟩, hp2,
    htotal2.trans (htotal1.trans htotal), fun d => ?_⟩
  · have hpass := hpass1.append hgen.pass
    rw [List.append_assoc, List.append_assoc] at hpass
    exact List.append_assoc _ [c] [0x00] ▸ hpass
  · rw [Block.count, hfreq2, hfreq1, ← Block.count, Block.count_countBytes, Block.count_reset,
      Nat.zero_add]

/-- The encode run: the header and dictionary of the block that `GEN` left, then the bitstream (70_reset_and_hazards.md
R173). -/
theorem exists_pass_encodeCommands {bs : List Byte} (hlen : bs.length < 2 ^ 64) (hshallow : ShallowTree bs) :
    ∃ src b' fs cs, Pass (encodeCommands bs) Block.reset b' (src.headBytes ++ fs) (cs ++ [0x00]) ∧
      (∀ c ∈ cs, c = 0x00 ∨ (bs = [] ∧ c = 0x01)) ∧ Inv src ∧ src.phase = .coded ∧ src.total = bs.length ∧
      (∀ d ∈ bs, d ∈ src.dord) ∧ fs.flatMap byteBits = codeStream src bs ++ padding (codeStream src bs).length := by
  obtain ⟨src, c, hpass, hc, hp, ht, hcount⟩ := exists_pass_freq_build_gen hlen hshallow
  have hinv := hpass.inv inv_reset
  have hcnt : src.pkcnt = 0 := hinv.encoder.packer_idle (hp.trans_ne nofun) (hp.trans_ne nofun)
  have hmem : ∀ d ∈ bs, d ∈ src.dord := fun d hd => by
    rw [hinv.table.coded_present (by simp [hp]), hcount]
    exact Nat.ne_of_gt (List.count_pos_iff.mpr hd)
  obtain ⟨b', fs, hencode, -, hfs⟩ := exists_pass_enc_encend (b := { src with phase := .enc }) (ds := bs) rfl
    (hinv.encoder.packer.pkbuf_zero hcnt) hcnt (hinv.encoder.encn_zero (by simp [hp])) ht
    fun d hd => (hinv.table.listed d).mpr (hmem d hd)
  refine ⟨src, b', fs, List.replicate bs.length 0x00 ++ [c, 0x00] ++ [0x00] ++ List.replicate bs.length 0x00, ?_, ?_, hinv, hp, ht,
    hmem, hfs⟩
  · have hall := (hpass.append (answers_head hp).pass).append hencode
    rw [List.replicate_succ'] at hall
    simpa [encodeCommands] using hall
  · intro c' hc'
    simp only [List.mem_append, List.mem_replicate, List.mem_cons, List.not_mem_nil, or_false] at hc'
    obtain (((⟨-, rfl⟩ | rfl | rfl) | rfl) | ⟨-, rfl⟩) := hc'
    case inl.inl.inr.inl => exact hc
    all_goals exact .inl rfl

/-- Settles O57: the encode run's file is the header, the dictionary and the bitstream, and the decode run loads the table
and matches the codes one after the other. -/
theorem decodeInvertsEncode : Obligations.DecodeInvertsEncode := by
  unfold Obligations.DecodeInvertsEncode
  intro bs hlen hshallow
  obtain ⟨src, b, fs, cs, hencode, hcs, hinv, hp, ht, hmem, hfs⟩ := exists_pass_encodeCommands hlen hshallow
  obtain ⟨b', n, hdecode⟩ := exists_pass_decodeCommands hinv hp ht hmem hfs
  obtain ⟨w, hw, hrun⟩ := hencode.runFromReset
  obtain ⟨w', hw', hrun'⟩ := hdecode.runFromReset
  refine ⟨_, _, src.headBytes ++ fs, hrun, hw.runResult_eq (by simp) (.inl rfl), fun c hc => ?_, hrun',
    hw'.runResult_eq (by simp) (.inr rfl), fun c hc => ?_⟩
  · rw [hw.wireResponses_eq] at hc
    rcases List.mem_append.mp hc with hc | hc
    · exact hcs c hc
    · exact .inl (List.mem_singleton.mp hc)
  · rw [hw'.wireResponses_eq, ← List.replicate_succ'] at hc
    exact List.eq_of_mem_replicate hc

end Sys2Proof.Machine
end
